-- ==== Sys2Proof/Word.lean ====
section
/-! DEFINITION. The two word types of the controller (spec 00_scope R4, R9): the 8-bit byte of the link and the
32-bit word of a command argument, a sector and a count. All quantities are unsigned (R9, R38). -/

namespace Sys2Proof

/-- `u8` of R9: what one exchange moves in each direction (20_memory R35). -/
abbrev Byte := BitVec 8

/-- `u32` of R9: a command argument (`ARG_W`), a sector (`SECTOR_W`), a count (`COUNT_W`) (R4). -/
abbrev Word := BitVec 32

end Sys2Proof
end

