-- ==== Sys2Proof/Config.lean ====
section
/-! DEFINITION. What is fixed for the controller (spec 00_scope R4), the two parameters the spec leaves OPEN, and the
free values: what the environment answers where no script of State says so (R7). -/

namespace Sys2Proof

/-- The two OPEN parameters of R4 (decisions D5, D6). The spec has the model take them as arguments: State carries
them, no step writes them, and a statement over all states is a statement over both values of each (log 4). -/
structure Params where
  /-- `LINK_FAULTS`: whether an exchange can report a transport error (D5); default false. -/
  linkFaults : Bool := false
  /-- `ACMD23_ON_MMC`: whether ACMD23 precedes CMD25 on an MMC card (D6); default false. -/
  acmd23OnMmc : Bool := false
deriving DecidableEq, Repr

namespace Config

/-- `BLOCK_SIZE` of R4. -/
abbrev blockSize : Nat := 512
/-- `N_WAKE` of R4: the wake-up bytes (R121). -/
abbrev nWake : Nat := 10
/-- `N_READY` of R4: polls before a command, before a token, in CTRL_SYNC. -/
abbrev nReady : Nat := 500
/-- `N_READY_POST` of R4: polls of the wait that ends transmit_datablock. -/
abbrev nReadyPost : Nat := 1000
/-- `N_R1` of R4: the R1 response poll. -/
abbrev nR1 : Nat := 10
/-- `N_TOKEN` of R4: the data-token poll. -/
abbrev nToken : Nat := 255
/-- `N_INIT` of R4: the initialization retry loops. -/
abbrev nInit : Nat := 1000
/-- `FILL` of R4: the byte sent while reading, the wake-up byte, the two dummy CRC bytes (decision D4). -/
abbrev fill : Byte := 0xFF
/-- `CTRL_SYNC` of R4 and R69: the one implemented ioctl code (decision D7). -/
abbrev ctrlSync : Byte := 0

/-- FREE VALUE (log 3): the byte the environment answers at the `n`-th exchange where the script says nothing.
R7: "No rule constrains it". -/
opaque freeByte : Nat → Byte

/-- FREE VALUE (log 3): whether the `n`-th exchange past the script ends in a transport error, and with which code
(R88); it matters only where `LINK_FAULTS` is true. -/
opaque freeFault : Nat → Option Nat

end Config
end Sys2Proof
end

