-- ==== Sys2Proof/Syntax.lean ====
section
/-! DEFINITION. The instruction set as syntax: one constructor of `Instr` for each of the 42 rows of
spec/opcode_table.json (host operations, wire commands, tokens and response bytes, micro-operations: 00_scope R1),
and the formats under which their bits stand (30_encoding R49). -/

namespace Sys2Proof

/-- Who sends a byte (the "direction" of R49 and R58). -/
inductive Direction where
  | toController
  | toCard
deriving DecidableEq, Repr

/-- The three data tokens (R58). -/
inductive Token where
  | startBlock
  | startMultiWrite
  | stopTran
deriving DecidableEq, Repr

/-- A command inside the controller: the pair `(app, index)` of R53. -/
structure Command where
  app : Bool
  index : BitVec 6
deriving DecidableEq, Repr

/-- The operands of a host operation besides its code and its buffer: `(drive, sector, count, ioctl_cmd)` of R68.
The buffer comes with the request (Machine.Request). -/
structure HostOperands where
  drive : Byte
  sector : Word
  count : Word
  ioctlCmd : Byte
deriving DecidableEq, Repr

/-- The hardwired micro-operations, selected by the sequencer and not by any bit pattern (R49). -/
inductive MicroOp where
  | select | deselect | xfer | readByte | writeByte | waitReady | sendCommand | receiveDatablock | transmitDatablock
deriving DecidableEq, Repr

/-- Where an instruction's bits stand: the formats of R49. TOKEN says who sends it; TRAIL4 says after which command it
is read (R55, R56); MICRO says which micro-operation the sequencer selected. -/
inductive Format where
  | frame
  | token (d : Direction)
  | stopPkt
  | r1
  | idle
  | dresp
  | trailCmd8
  | trailCmd58
  | hostOp
  | ioctl
  | micro (m : MicroOp)
deriving DecidableEq, Repr

/-- The instructions. Each constructor is one row of the opcode table, in the table's order. -/
inductive Instr where
  /-- CMD0 GO_IDLE_STATE (R100). -/
  | cmd0
  /-- CMD1 (R101). -/
  | cmd1
  /-- CMD8 SEND_IF_COND, argument 0x1AA (R102). -/
  | cmd8
  /-- CMD12 STOP_TRANSMISSION (R103). -/
  | cmd12
  /-- CMD16 SET_BLOCKLEN, argument 512 (R104). -/
  | cmd16
  /-- CMD17, read a single block at the translated address (R105). -/
  | cmd17 (arg : Word)
  /-- CMD18, read multiple blocks from the translated address (R106). -/
  | cmd18 (arg : Word)
  /-- ACMD23 with the block count (R107). -/
  | acmd23 (count : Word)
  /-- CMD24, write a single block (R108). -/
  | cmd24 (arg : Word)
  /-- CMD25, write multiple blocks (R109). -/
  | cmd25 (arg : Word)
  /-- ACMD41; `hcs` is bit 30 of the argument, the other bits are 0 (R110). -/
  | acmd41 (hcs : Bool)
  /-- CMD55 APP_CMD (R111). -/
  | cmd55
  /-- CMD58 READ_OCR (R112). -/
  | cmd58
  /-- FRAME.generic: what compose_frame makes of an index and an argument (R92). -/
  | frameGeneric (index : BitVec 6) (arg : Word)
  /-- TOKEN.START_BLOCK, 0xFE, received or sent (R58). -/
  | tokenStartBlock (dir : Direction)
  /-- TOKEN.START_MULTI_WRITE, 0xFC, sent (R58). -/
  | tokenStartMultiWrite
  /-- TOKEN.STOP_TRAN, 0xFD, sent (R61). -/
  | tokenStopTran
  /-- R1.valid, `0rrrrrrr` (R54). -/
  | r1Valid (status : BitVec 7)
  /-- R1.pending, `1xxxxxxx` (R54). -/
  | r1Pending (ignored : BitVec 7)
  /-- IDLE.ready, 0xFF (R57). -/
  | idleReady
  /-- DRESP.accepted, `xxx00101` (R60). -/
  | drespAccepted (ignored : BitVec 3)
  /-- TRAIL4.cmd8_echo: the four bytes after CMD8's R1 with the check pattern (R55). -/
  | trailCmd8Echo (ignored : BitVec 16)
  /-- TRAIL4.ocr_ccs_set: the OCR with bit 6 of byte 0 set; `high` is bit 31, `low` bits 29:0 (R56). -/
  | trailOcrCcsSet (high : BitVec 1) (low : BitVec 30)
  /-- TRAIL4.ocr_ccs_clear: the OCR with bit 6 of byte 0 clear (R56). -/
  | trailOcrCcsClear (high : BitVec 1) (low : BitVec 30)
  /-- disk_initialize (R131). -/
  | diskInitialize (o : HostOperands)
  /-- disk_status (R173). -/
  | diskStatus (o : HostOperands)
  /-- disk_read (R150). -/
  | diskRead (o : HostOperands)
  /-- disk_write (R153). -/
  | diskWrite (o : HostOperands)
  /-- disk_ioctl (R160). -/
  | diskIoctl (o : HostOperands)
  /-- The reserved host operation code 5 (R68, R170). -/
  | hostReserved5 (o : HostOperands)
  /-- The reserved host operation code 6 (R68, R170). -/
  | hostReserved6 (o : HostOperands)
  /-- The reserved host operation code 7 (R68, R170). -/
  | hostReserved7 (o : HostOperands)
  /-- CTRL_SYNC, the implemented ioctl code (R69, R160). -/
  | ctrlSync
  /-- Select (R80). -/
  | select
  /-- Deselect (R81). -/
  | deselect
  /-- Xfer(tx) (R82). -/
  | xfer (tx : Byte)
  /-- ReadByte (R83). -/
  | readByte
  /-- WriteByte(b) (R84). -/
  | writeByte (b : Byte)
  /-- wait_ready(n) (R85). -/
  | waitReady (n : BitVec 16)
  /-- send_command((app, index), arg) (R96). -/
  | sendCommand (cmd : Command) (arg : Word)
  /-- receive_datablock(off, length) (R141). -/
  | receiveDatablock (off : BitVec 48) (length : BitVec 10)
  /-- transmit_datablock(off, token) (R146). -/
  | transmitDatablock (off : BitVec 48) (token : Token)
deriving DecidableEq, Repr

end Sys2Proof
end

