-- ==== Sys2Proof/WellFormed.lean ====
section
/-! DEFINITION. Which terms of `Instr` are instructions. A field's width is checked by its type; two checks are left:
the poll bound of wait_ready is one of the two the spec gives (40_link R85), and a FRAME.generic is a frame that no
other row of the table claims (30_encoding R62). -/

namespace Sys2Proof

/-- The frames that have a row of their own: index and argument of R52 and R62. -/
def isNamedFrame (index : BitVec 6) (arg : Word) : Bool :=
  (index == 0 && arg == 0) || (index == 1 && arg == 0) || (index == 8 && arg == 0x1AA)
    || (index == 12 && arg == 0) || (index == 16 && arg == 512) || index == 17 || index == 18 || index == 23
    || index == 24 || index == 25 || (index == 41 && (arg == 0x40000000 || arg == 0))
    || (index == 55 && arg == 0) || (index == 58 && arg == 0)

/-- R85: "Operands: the poll bound `n` (500 or 1000)"; "`n` is never 0". -/
def isPollBound (n : BitVec 16) : Bool :=
  n == 500 || n == 1000

/-- The well-formed instructions. -/
def WellFormed : Instr → Bool
  | .frameGeneric index arg => !isNamedFrame index arg
  | .waitReady n => isPollBound n
  | .cmd0 | .cmd1 | .cmd8 | .cmd12 | .cmd16 | .cmd17 _ | .cmd18 _ | .acmd23 _ | .cmd24 _ | .cmd25 _ | .acmd41 _
  | .cmd55 | .cmd58 | .tokenStartBlock _ | .tokenStartMultiWrite | .tokenStopTran | .r1Valid _ | .r1Pending _
  | .idleReady | .drespAccepted _ | .trailCmd8Echo _ | .trailOcrCcsSet _ _ | .trailOcrCcsClear _ _
  | .diskInitialize _ | .diskStatus _ | .diskRead _ | .diskWrite _ | .diskIoctl _ | .hostReserved5 _
  | .hostReserved6 _ | .hostReserved7 _ | .ctrlSync | .select | .deselect | .xfer _ | .readByte | .writeByte _
  | .sendCommand _ _ | .receiveDatablock _ _ | .transmitDatablock _ _ => true

end Sys2Proof
end

