-- ==== Sys2Proof/Decode.lean ====
section
/-! DEFINITION. The decoder and the encoder (30_encoding R49 to R69). An instruction's bits stand under a format; the
spec's formats overlap (0xFF is an idle byte, a pending R1 and the byte ReadByte shifts out), so the decoder is told the
format, as the controller is by where a byte arrives (R64). Bytes are in the order of the link, first byte first. -/

namespace Sys2Proof

/-- An instruction's bits: the format they stand under and the bytes, first byte first. -/
structure InstrWord where
  fmt : Format
  bytes : List Byte
deriving DecidableEq, Repr

/-- Why a word is no instruction of the table. Some of these words have an effect all the same (R64, R69): the machine's
`execUnlisted` gives it. -/
inductive DecodeError where
  /-- The number of bytes is not the format's (R49: every format has a fixed length). -/
  | badLength
  /-- Bits 47:46 of a frame are not `01` (R50). -/
  | badStartBits
  /-- Byte 5 of a frame is not the one R51 gives its index. -/
  | badCrcByte
  /-- A byte of format TOKEN that the controller never sends (R58, R63). -/
  | badToken
  /-- The stop token under format TOKEN: its row stands under STOPPKT (R61). -/
  | stopToken
  /-- A byte read by the token poll is not 0xFE: no row (R58). -/
  | notStart
  /-- A byte of format STOPPKT is not 0xFD (R61). -/
  | badStopPacket
  /-- A byte read by wait_ready is not 0xFF: busy, no row (R57). -/
  | notIdle
  /-- A data response that is not `xxx00101`: a rejection, no row (R60). -/
  | notAccepted
  /-- Four bytes after CMD8 without the check pattern: no row (R55). -/
  | noEcho
  /-- The bits above the 3-bit operation code are not 0 (R68). -/
  | badOpCode
  /-- An ioctl code other than CTRL_SYNC: reserved, no row (R69). -/
  | reservedIoctl
  /-- A poll bound of wait_ready other than 500 and 1000 (R85; log 26). -/
  | otherBound
  /-- A micro-operation whose fixed byte or operand is not one the spec gives. -/
  | badMicroOperand
deriving DecidableEq, Repr

/-! Byte order: most significant byte first (20_memory R33). -/

/-- Byte `k` of a 32-bit word, byte 0 least significant: `arg[8k+7:8k]` (R50). -/
def wordByte (w : Word) (k : Nat) : Byte := w.extractLsb' (8 * k) 8

/-- The word whose bytes are given most significant first. -/
def wordOfBytes (b3 b2 b1 b0 : Byte) : Word := b3 ++ b2 ++ b1 ++ b0

/-- The four bytes of a word, most significant first (R33, R50). -/
def wordBytes (w : Word) : List Byte := [wordByte w 3, wordByte w 2, wordByte w 1, wordByte w 0]

/-- Byte `k` of a buffer offset operand. -/
def offByte (w : BitVec 48) (k : Nat) : Byte := w.extractLsb' (8 * k) 8

/-- The six bytes of a buffer offset operand, most significant first (log 12). -/
def offBytes (w : BitVec 48) : List Byte :=
  [offByte w 5, offByte w 4, offByte w 3, offByte w 2, offByte w 1, offByte w 0]

/-- The buffer offset whose bytes are given most significant first. -/
def offOfBytes (b5 b4 b3 b2 b1 b0 : Byte) : BitVec 48 := b5 ++ b4 ++ b3 ++ b2 ++ b1 ++ b0

/-! The command frame. -/

/-- Byte 0 of a frame: `0x40 | index` (R50). -/
def frameHead (index : BitVec 6) : Byte := (1 : BitVec 2) ++ index

/-- Byte 5 of a frame, "chosen by `index` alone" (R51; conflict C1: these are whole bytes). -/
def frameTail (index : BitVec 6) : Byte :=
  if index = 0 then 0x95 else if index = 8 then 0x87 else 0x01

/-- The six bytes of the frame of `index` and `arg`, byte 0 first (R50, R51). -/
def frameBytes (index : BitVec 6) (arg : Word) : List Byte :=
  frameHead index :: (wordBytes arg ++ [frameTail index])

/-- The instruction of a frame: the row of R62 that index and argument name, FRAME.generic for every other. -/
def instrOfFrame (index : BitVec 6) (arg : Word) : Instr :=
  if index = 0 ∧ arg = 0 then .cmd0
  else if index = 1 ∧ arg = 0 then .cmd1
  else if index = 8 ∧ arg = 0x1AA then .cmd8
  else if index = 12 ∧ arg = 0 then .cmd12
  else if index = 16 ∧ arg = 512 then .cmd16
  else if index = 17 then .cmd17 arg
  else if index = 18 then .cmd18 arg
  else if index = 23 then .acmd23 arg
  else if index = 24 then .cmd24 arg
  else if index = 25 then .cmd25 arg
  else if index = 41 ∧ arg = 0x40000000 then .acmd41 true
  else if index = 41 ∧ arg = 0 then .acmd41 false
  else if index = 55 ∧ arg = 0 then .cmd55
  else if index = 58 ∧ arg = 0 then .cmd58
  else .frameGeneric index arg

/-- R50 and R51 read backwards: the start bits, the index, the argument, the sixth byte. -/
def decodeFrame (b0 b1 b2 b3 b4 b5 : Byte) : Except DecodeError Instr :=
  let index : BitVec 6 := b0.extractLsb' 0 6
  if b0.extractLsb' 6 2 ≠ 1 then .error .badStartBits
  else if b5 ≠ frameTail index then .error .badCrcByte
  else .ok (instrOfFrame index (wordOfBytes b1 b2 b3 b4))

/-! Tokens and response bytes. -/

/-- The byte of a token (R58). -/
def Token.byte : Token → Byte
  | .startBlock => 0xFE
  | .startMultiWrite => 0xFC
  | .stopTran => 0xFD

/-- The token of a byte (R58: "Three values exist"). -/
def tokenOfByte (b : Byte) : Option Token :=
  if b = 0xFE then some .startBlock else if b = 0xFC then some .startMultiWrite
  else if b = 0xFD then some .stopTran else none

/-- R58's table: the card sends 0xFE only; the controller sends 0xFE and 0xFC under this format (0xFD is STOPPKT). -/
def decodeToken : Direction → Byte → Except DecodeError Instr
  | d, b =>
    if b = 0xFE then .ok (.tokenStartBlock d)
    else match d with
      | .toController => .error .notStart
      | .toCard =>
        if b = 0xFC then .ok .tokenStartMultiWrite
        else if b = 0xFD then .error .stopToken else .error .badToken

/-- R54: bit 7 tells a valid response from a pending one. -/
def decodeR1 (b : Byte) : Instr :=
  if b.getLsbD 7 then .r1Pending (b.extractLsb' 0 7) else .r1Valid (b.extractLsb' 0 7)

/-- R60: bits 4:0 must be `00101`. -/
def decodeDresp (b : Byte) : Except DecodeError Instr :=
  if b.extractLsb' 0 5 = 5 then .ok (.drespAccepted (b.extractLsb' 5 3)) else .error .notAccepted

/-- R55: the whole bytes 2 and 3 are compared. -/
def decodeEcho (b0 b1 b2 b3 : Byte) : Except DecodeError Instr :=
  if b2 = 0x01 ∧ b3 = 0xAA then .ok (.trailCmd8Echo (b0 ++ b1)) else .error .noEcho

/-- R56: bit 6 of the first byte received is bit 30 of the four bytes. -/
def decodeOcr (w : Word) : Instr :=
  if w.getLsbD 30 then .trailOcrCcsSet (w.extractLsb' 31 1) (w.extractLsb' 0 30)
  else .trailOcrCcsClear (w.extractLsb' 31 1) (w.extractLsb' 0 30)

/-- The OCR word with the given CCS bit. -/
def ocrWord (high : BitVec 1) (ccs : BitVec 1) (low : BitVec 30) : Word := high ++ ccs ++ low

/-! Host operations. -/

/-- The instruction of a host operation code (R68, R170). -/
def instrOfOp (op : BitVec 3) (o : HostOperands) : Instr :=
  if op = 0 then .diskInitialize o
  else if op = 1 then .diskStatus o
  else if op = 2 then .diskRead o
  else if op = 3 then .diskWrite o
  else if op = 4 then .diskIoctl o
  else if op = 5 then .hostReserved5 o
  else if op = 6 then .hostReserved6 o
  else .hostReserved7 o

/-- The 3-bit code in a byte of its own (R68; log 12). -/
def opByte (op : BitVec 3) : Byte := (0 : BitVec 5) ++ op

/-- The tuple of R68 as bytes: op, drive, sector, count, ioctl_cmd (log 12). -/
def hostBytes (op : BitVec 3) (o : HostOperands) : List Byte :=
  opByte op :: o.drive :: (wordBytes o.sector ++ (wordBytes o.count ++ [o.ioctlCmd]))

/-- The tuple of R68 read back. -/
def decodeHost : List Byte → Except DecodeError Instr
  | [op, drive, s3, s2, s1, s0, c3, c2, c1, c0, io] =>
    if op.extractLsb' 3 5 ≠ 0 then .error .badOpCode
    else .ok (instrOfOp (op.extractLsb' 0 3) ⟨drive, wordOfBytes s3 s2 s1 s0, wordOfBytes c3 c2 c1 c0, io⟩)
  | _ => .error .badLength

/-! Micro-operations. -/

/-- The 8-bit code of a command value, `{app, 0, index[5:0]}` (R53). -/
def Command.code (c : Command) : Byte := BitVec.ofBool c.app ++ (0 : BitVec 1) ++ c.index

/-- A micro-operation and its operands: the byte of the table where the table gives one, then the operands, most
significant byte first (R49; log 12). -/
def decodeMicro : MicroOp → List Byte → Except DecodeError Instr
  | .select, [] => .ok .select
  | .deselect, [] => .ok .deselect
  | .xfer, [tx] => .ok (.xfer tx)
  | .readByte, [b] => if b = 0xFF then .ok .readByte else .error .badMicroOperand
  | .writeByte, [b] => .ok (.writeByte b)
  | .waitReady, [b, n1, n0] =>
    if b ≠ 0xFF then .error .badMicroOperand
    else if isPollBound (n1 ++ n0) then .ok (.waitReady (n1 ++ n0)) else .error .otherBound
  | .sendCommand, [c, a3, a2, a1, a0] =>
    if c.getLsbD 6 then .error .badMicroOperand
    else .ok (.sendCommand ⟨c.getLsbD 7, c.extractLsb' 0 6⟩ (wordOfBytes a3 a2 a1 a0))
  | .receiveDatablock, [o5, o4, o3, o2, o1, o0, l1, l0] =>
    if l1.extractLsb' 2 6 ≠ 0 then .error .badMicroOperand
    else .ok (.receiveDatablock (offOfBytes o5 o4 o3 o2 o1 o0) (l1.extractLsb' 0 2 ++ l0))
  | .transmitDatablock, [o5, o4, o3, o2, o1, o0, t] =>
    match tokenOfByte t with
    | some token => .ok (.transmitDatablock (offOfBytes o5 o4 o3 o2 o1 o0) token)
    | none => .error .badMicroOperand
  | _, _ => .error .badLength

/-- The decoder: total, every word an instruction or a named rejection. -/
def decode (w : InstrWord) : Except DecodeError Instr :=
  match w.fmt, w.bytes with
  | .frame, [b0, b1, b2, b3, b4, b5] => decodeFrame b0 b1 b2 b3 b4 b5
  | .token d, [b] => decodeToken d b
  | .stopPkt, [b] => if b = 0xFD then .ok .tokenStopTran else .error .badStopPacket
  | .r1, [b] => .ok (decodeR1 b)
  | .idle, [b] => if b = 0xFF then .ok .idleReady else .error .notIdle
  | .dresp, [b] => decodeDresp b
  | .trailCmd8, [b0, b1, b2, b3] => decodeEcho b0 b1 b2 b3
  | .trailCmd58, [b0, b1, b2, b3] => .ok (decodeOcr (wordOfBytes b0 b1 b2 b3))
  | .hostOp, bytes => decodeHost bytes
  | .ioctl, [b] => if b = 0 then .ok .ctrlSync else .error .reservedIoctl
  | .micro m, bytes => decodeMicro m bytes
  | _, _ => .error .badLength

/-- The encoder, from the same tables. -/
def encode : Instr → InstrWord
  | .cmd0 => ⟨.frame, frameBytes 0 0⟩
  | .cmd1 => ⟨.frame, frameBytes 1 0⟩
  | .cmd8 => ⟨.frame, frameBytes 8 0x1AA⟩
  | .cmd12 => ⟨.frame, frameBytes 12 0⟩
  | .cmd16 => ⟨.frame, frameBytes 16 512⟩
  | .cmd17 arg => ⟨.frame, frameBytes 17 arg⟩
  | .cmd18 arg => ⟨.frame, frameBytes 18 arg⟩
  | .acmd23 count => ⟨.frame, frameBytes 23 count⟩
  | .cmd24 arg => ⟨.frame, frameBytes 24 arg⟩
  | .cmd25 arg => ⟨.frame, frameBytes 25 arg⟩
  | .acmd41 hcs => ⟨.frame, frameBytes 41 (if hcs then 0x40000000 else 0)⟩
  | .cmd55 => ⟨.frame, frameBytes 55 0⟩
  | .cmd58 => ⟨.frame, frameBytes 58 0⟩
  | .frameGeneric index arg => ⟨.frame, frameBytes index arg⟩
  | .tokenStartBlock dir => ⟨.token dir, [0xFE]⟩
  | .tokenStartMultiWrite => ⟨.token .toCard, [0xFC]⟩
  | .tokenStopTran => ⟨.stopPkt, [0xFD]⟩
  | .r1Valid status => ⟨.r1, [(0 : BitVec 1) ++ status]⟩
  | .r1Pending ignored => ⟨.r1, [(1 : BitVec 1) ++ ignored]⟩
  | .idleReady => ⟨.idle, [0xFF]⟩
  | .drespAccepted ignored => ⟨.dresp, [ignored ++ (5 : BitVec 5)]⟩
  | .trailCmd8Echo ignored => ⟨.trailCmd8, [ignored.extractLsb' 8 8, ignored.extractLsb' 0 8, 0x01, 0xAA]⟩
  | .trailOcrCcsSet high low => ⟨.trailCmd58, wordBytes (ocrWord high 1 low)⟩
  | .trailOcrCcsClear high low => ⟨.trailCmd58, wordBytes (ocrWord high 0 low)⟩
  | .diskInitialize o => ⟨.hostOp, hostBytes 0 o⟩
  | .diskStatus o => ⟨.hostOp, hostBytes 1 o⟩
  | .diskRead o => ⟨.hostOp, hostBytes 2 o⟩
  | .diskWrite o => ⟨.hostOp, hostBytes 3 o⟩
  | .diskIoctl o => ⟨.hostOp, hostBytes 4 o⟩
  | .hostReserved5 o => ⟨.hostOp, hostBytes 5 o⟩
  | .hostReserved6 o => ⟨.hostOp, hostBytes 6 o⟩
  | .hostReserved7 o => ⟨.hostOp, hostBytes 7 o⟩
  | .ctrlSync => ⟨.ioctl, [0]⟩
  | .select => ⟨.micro .select, []⟩
  | .deselect => ⟨.micro .deselect, []⟩
  | .xfer tx => ⟨.micro .xfer, [tx]⟩
  | .readByte => ⟨.micro .readByte, [0xFF]⟩
  | .writeByte b => ⟨.micro .writeByte, [b]⟩
  | .waitReady n => ⟨.micro .waitReady, [0xFF, n.extractLsb' 8 8, n.extractLsb' 0 8]⟩
  | .sendCommand cmd arg => ⟨.micro .sendCommand, cmd.code :: wordBytes arg⟩
  | .receiveDatablock off length =>
    ⟨.micro .receiveDatablock,
      offBytes off ++ [(0 : BitVec 6) ++ length.extractLsb' 8 2, length.extractLsb' 0 8]⟩
  | .transmitDatablock off token => ⟨.micro .transmitDatablock, offBytes off ++ [token.byte]⟩

/-! The opcode table's numbering. -/

/-- Byte `k` of a table word, byte 0 in bits 7..0. -/
def tableByte (w : Nat) (k : Nat) : Byte := BitVec.ofNat 8 (w >>> (8 * k))

/-- The format a table word of one byte is read under. The table's 8-bit rows overlap (log 11). A byte alone is read, in
this order, as a host operation code (what a controller in Idle waits for), a token, an idle byte, an accepted data
response, an R1 byte. -/
def byteFormat (b : Byte) : Format :=
  if b.toNat < 8 then .hostOp
  else if b = 0xFE ∨ b = 0xFC then .token .toCard
  else if b = 0xFD then .stopPkt
  else if b = 0xFF then .idle
  else if b.extractLsb' 0 5 = 5 then .dresp
  else .r1

/-- A word numbered as the opcode table numbers it, laid out as the link carries it: most significant byte first (R50),
operand bytes beyond the table's bits zero. -/
def tableWord (nbits w : Nat) : InstrWord :=
  if nbits = 0 then ⟨.micro .select, []⟩
  else if nbits ≤ 8 then
    let b := tableByte w 0
    match byteFormat b with
    | .hostOp => ⟨.hostOp, b :: List.replicate 10 0⟩
    | f => ⟨f, [b]⟩
  else if nbits ≤ 32 then
    let bytes := [tableByte w 3, tableByte w 2, tableByte w 1, tableByte w 0]
    if tableByte w 1 = 0x01 ∧ tableByte w 0 = 0xAA then ⟨.trailCmd8, bytes⟩ else ⟨.trailCmd58, bytes⟩
  else
    ⟨.frame, [tableByte w 5, tableByte w 4, tableByte w 3, tableByte w 2, tableByte w 1, tableByte w 0]⟩

/-- The instruction the decoder reads from a table word. -/
def decodeTableWord (nbits w : Nat) : Option Instr :=
  (decode (tableWord nbits w)).toOption

end Sys2Proof
end

