-- ==== Sys2Proof/Machine/State.lean ====
section
/-! DEFINITION. The state of one controller instance (10_state R10, R20): everything the spec gives it, as plain data,
with the link trace and the outside world (the card's answers, what the host presents) as data beside it. -/

namespace Sys2Proof.Machine

/-- The five values of `CardType` (R11). -/
inductive CardType where
  | none
  | mmc
  | sd1
  | sd2
  | sdc
deriving DecidableEq, Repr

/-- The chip-select latch (R12). -/
inductive ChipSelect where
  | asserted
  | deasserted
deriving DecidableEq, Repr

/-- The sequencer's phase register (R13, R120). `capacityCheck` is the state `CapacityCheck/SetBlockLength`. -/
inductive Seq where
  | idle
  | reset
  | idleOrFail
  | voltageCheck
  | advancedInit
  | legacyInit
  | capacityCheck
  | ready
  | failed
  | transfer
deriving DecidableEq, Repr

/-- The host operation codes (R68, R170). -/
inductive HostOp where
  | diskInitialize
  | diskStatus
  | diskRead
  | diskWrite
  | diskIoctl
  | reserved5
  | reserved6
  | reserved7
deriving DecidableEq, Repr

/-- The result codes (R67, R174); `linkFault code` exists only where `LINK_FAULTS` is true and carries the transport's
code unchanged (R186). -/
inductive Result where
  | ok
  | error
  | notReady
  | paramError
  | linkFault (code : Nat)
deriving DecidableEq, Repr

/-- One event of the link trace (R8): `SEL`, `DES`, `X(tx, rx)`. -/
inductive Event where
  | sel
  | des
  | xfer (tx rx : Byte)
deriving DecidableEq, Repr

/-- What the environment answers to one exchange: a byte (R7), or a transport error with its code (R82, R88). -/
inductive Answer where
  | byte (b : Byte)
  | fault (code : Nat)
deriving DecidableEq, Repr

/-- The command frame, six bytes, `b0` sent first (R50). -/
structure Frame where
  b0 : Byte
  b1 : Byte
  b2 : Byte
  b3 : Byte
  b4 : Byte
  b5 : Byte
deriving DecidableEq, Repr

/-- The four trailing bytes after CMD8 or CMD58; `t0` is received first (R15, R33). -/
structure Trail where
  t0 : Byte
  t1 : Byte
  t2 : Byte
  t3 : Byte
deriving DecidableEq, Repr

/-- Sparse bytes by offset, in canonical form (`Memory.wf`): an offset not listed reads as 0 (log 6). -/
abbrev Memory := List Host.Cell

/-- The canonical form: offsets strictly rising, no entry 0. Equal memories are equal lists. -/
abbrev Memory.wf (m : Memory) : Prop :=
  m.Pairwise (fun c d => c.1 < d.1) ∧ ∀ c ∈ m, c.2 ≠ 0

/-- The host buffer of an operation: `size` bytes at the offsets `0 .. size-1` (R30, R32). -/
structure HostBuffer where
  size : Nat
  cells : Memory
deriving DecidableEq, Repr

/-- What the outside presents to the controller: an operation's word with its buffer (R14, R170), or a power cycle
(R200). The hardwired instructions can be presented too, so that each has a step of its own (log 2). -/
inductive Request where
  | run (word : InstrWord) (buf : HostBuffer)
  | powerCycle
deriving DecidableEq, Repr

/-- What the last instruction below the host operations returned (the "micro-result" of R181); the model's own record
(log 13). -/
inductive MicroResult where
  /-- No such instruction has run. -/
  | none
  /-- The micro-operation returns nothing. -/
  | unit
  /-- It returned a byte. -/
  | byte (b : Byte)
  /-- It returned a truth value. -/
  | bool (b : Bool)
  /-- It ended in `LinkFault(code)` (F16). -/
  | linkFault (code : Nat)
deriving DecidableEq, Repr

/-- The state. The first group is R10's complete list (R11 to R15); the second is the trace and the outside world. -/
structure State where
  /-- `CardType` (R11). -/
  cardType : CardType
  /-- `cs` (R12). -/
  cs : ChipSelect
  /-- `seq` (R13). -/
  seq : Seq
  /-- The host operand latches of R14. -/
  op : HostOp
  drive : Byte
  sector : Word
  count : Word
  ioctlCmd : Byte
  buf : HostBuffer
  /-- The result returned to the host (R14, R67). -/
  result : Result
  /-- The transient registers of R15. -/
  frame : Frame
  resp : Byte
  trail : Trail
  ty : CardType
  rc : Command
  addr : Word
  poll : BitVec 10
  iter : BitVec 10
  done : BitVec 32
  byte : BitVec 10
  tok : Byte
  dresp : Byte
  /-- The link trace (R8), oldest event first. -/
  trace : List Event
  /-- The OPEN parameters (R4; log 4). -/
  params : Params
  /-- The environment's next answers (R7; log 3). -/
  oracle : List Answer
  /-- How many answers were drawn, the index of the free values (log 3). -/
  draws : Nat
  /-- What the outside presents next (log 2). -/
  pending : List Request
  /-- The last micro-result (log 13). -/
  microResult : MicroResult
deriving DecidableEq, Repr

/-- Why the machine stops with a fault. Every other failure of the spec is a result code (R180). -/
inductive Fault where
  /-- Raised by receive_datablock, transmit_datablock, CMD17, CMD18, CMD24 and CMD25 run as rows of their own on a buffer
  that does not hold their blocks: R30 gives the buffer the offsets `0 .. count*512-1` and no others. Safe: the
  model stops where the host broke R208 (log 7). -/
  | bufferRange
deriving DecidableEq, Repr

/-- Why the machine refuses to step. -/
inductive Refusal where
  /-- An instruction without a meaning; raised by exec's refused arms only (there is none). Safe. -/
  | notModelled (mnemonic : String)
  /-- The word presented is no row of the opcode table, and no rule gives it an effect: a frame or a token the controller
  never sends (R63), bytes no operand tuple is laid out in (log 12). Raised by execUnlisted, with the decoder's reason.
  Safe. -/
  | notAnInstruction (why : DecodeError)
  /-- A host operation presented while another is running: U1, R206, "refuse". Raised by the host operations. Safe. -/
  | operationRunning
  /-- disk_read or disk_write with a buffer shorter than `count*512` bytes: U6, R32, "a model refuses such a call".
  Raised by those two after their up-front checks. Safe (log 7). -/
  | bufferTooShort
  /-- A power cycle while a host operation is running: U18, "refuse: reset is taken only between operations". Raised by
  step. Safe. -/
  | resetDuringOperation
deriving DecidableEq, Repr

/-- The state after reset (R18, R200, decision D14): `CardType` None, `cs` Deasserted, `seq` Idle, the trace empty.
The latches and transient registers are "unspecified; never read before written" (R18): the model names the value
whose bits are all 0 for each (DESIGN CHOICE, log 5). -/
def State.reset : State where
  cardType := .none
  cs := .deasserted
  seq := .idle
  op := .diskInitialize
  drive := 0
  sector := 0
  count := 0
  ioctlCmd := 0
  buf := ⟨0, []⟩
  result := .ok
  frame := ⟨0, 0, 0, 0, 0, 0⟩
  resp := 0
  trail := ⟨0, 0, 0, 0⟩
  ty := .none
  rc := ⟨false, 0⟩
  addr := 0
  poll := 0
  iter := 0
  done := 0
  byte := 0
  tok := 0
  dresp := 0
  trace := []
  params := ⟨false, false⟩
  oracle := []
  draws := 0
  pending := []
  microResult := .none

end Sys2Proof.Machine
end

