-- ==== Sys2Proof/Machine/Flags.lean ====
section
/-! DEFINITION. The conditions the sequencer branches on (10_state R16). There is no flags register: each condition is
computed from a byte just received or from `CardType`, consumed at once and not stored. -/

namespace Sys2Proof.Machine

/-- `r1_valid(b)`: `b[7] == 0` (R16, R93). -/
def r1IsValid (b : Byte) : Bool := !b.getLsbD 7

/-- `is_idle(b)`: `b == 0xFF` (R16, R57). -/
def isIdle (b : Byte) : Bool := b == 0xFF

/-- `is_token_candidate(b)`: `b != 0xFF` (R16, R140). -/
def isTokenCandidate (b : Byte) : Bool := b != 0xFF

/-- `is_start_block(b)`: `b == 0xFE` (R16, R58). -/
def isStartBlock (b : Byte) : Bool := b == 0xFE

/-- `data_accepted(b)`: `(b & 0x1F) == 0x05` (R16, R60). -/
def dataAccepted (b : Byte) : Bool := (b &&& 0x1F) == 0x05

/-- `in_idle_state(r)`: `r == 1` (R16). -/
def inIdleState (r : Byte) : Bool := r == 1

/-- `ready(r)`: `r == 0` (R16). -/
def isReady (r : Byte) : Bool := r == 0

/-- `fatal(r)`: `r > 1`, unsigned (R16). -/
def isFatal (r : Byte) : Bool := decide (1 < r.toNat)

/-- `echo_ok`: `trail[2] == 0x01 and trail[3] == 0xAA` (R16, R55). -/
def echoOk (t : Trail) : Bool := t.t2 == 0x01 && t.t3 == 0xAA

/-- `ccs`: `trail[0][6] == 1` (R16, R56). -/
def ccs (t : Trail) : Bool := t.t0.getLsbD 6

/-- `card_present`: `CardType != None` (R16, R172). -/
def cardPresent (ct : CardType) : Bool := ct != .none

/-- The phases of disk_initialize (R13, R120). -/
def Seq.initializing : Seq → Bool
  | .reset | .idleOrFail | .voltageCheck | .advancedInit | .legacyInit | .capacityCheck | .ready | .failed => true
  | .idle | .transfer => false

end Sys2Proof.Machine
end

