-- ==== Sys2Proof/Machine/Operands.lean ====
section
/-! DEFINITION. Operands: the sector-address translator (20_memory R36), argument assembly (30_encoding R52), the
command-frame composer (41_command_framer R92), the numeric codes of the host side (R66 to R68) and the operand
latches (10_state R14). -/

namespace Sys2Proof.Machine

/-- The sector-address translator (R36): unchanged for SDC, `(sector * 512) mod 2^32` otherwise (R37, decision D2). -/
def translate (ct : CardType) (sector : Word) : Word :=
  match ct with
  | .sdc => sector
  | .none | .mmc | .sd1 | .sd2 => sector * 512

/-! The commands of R62 as command values (R53) and their constant arguments (R52). -/

def cmd0Value : Command := ⟨false, 0⟩
def cmd1Value : Command := ⟨false, 1⟩
def cmd8Value : Command := ⟨false, 8⟩
def cmd12Value : Command := ⟨false, 12⟩
def cmd16Value : Command := ⟨false, 16⟩
def cmd17Value : Command := ⟨false, 17⟩
def cmd18Value : Command := ⟨false, 18⟩
def acmd23Value : Command := ⟨true, 23⟩
def cmd24Value : Command := ⟨false, 24⟩
def cmd25Value : Command := ⟨false, 25⟩
def acmd41Value : Command := ⟨true, 41⟩
def cmd55Value : Command := ⟨false, 55⟩
def cmd58Value : Command := ⟨false, 58⟩

/-- The argument of CMD8 (R52). -/
def echoArg : Word := 0x000001AA

/-- The argument of CMD16: 512 (R52). -/
def blockLengthArg : Word := 512

/-- The argument of ACMD41: bit 30 on the v2 path, 0 on the legacy path (R52, R110). -/
def opCondArg (hcs : Bool) : Word := if hcs then 0x40000000 else 0

/-- `compose_frame(index, arg)` (R92). -/
def composeFrame (index : BitVec 6) (arg : Word) : Frame where
  b0 := frameHead index
  b1 := wordByte arg 3
  b2 := wordByte arg 2
  b3 := wordByte arg 1
  b4 := wordByte arg 0
  b5 := frameTail index

/-- The bytes of a frame, byte 0 first (R50). -/
def Frame.bytes (f : Frame) : List Byte := [f.b0, f.b1, f.b2, f.b3, f.b4, f.b5]

/-- The frame as R50's 48 bits, byte 0 in bits 47:40. -/
def Frame.bits (f : Frame) : BitVec 48 := f.b0 ++ f.b1 ++ f.b2 ++ f.b3 ++ f.b4 ++ f.b5

/-- The numeric code of a card type (R66). -/
def CardType.code : CardType → BitVec 3
  | .none => 0
  | .mmc => 1
  | .sd1 => 2
  | .sd2 => 3
  | .sdc => 4

/-- The numeric code of a result (R67); a link fault has none of the four. -/
def Result.code : Result → Option (BitVec 2)
  | .ok => some 0
  | .error => some 1
  | .notReady => some 2
  | .paramError => some 3
  | .linkFault _ => none

/-- The numeric code of a host operation (R68). -/
def HostOp.code : HostOp → BitVec 3
  | .diskInitialize => 0
  | .diskStatus => 1
  | .diskRead => 2
  | .diskWrite => 3
  | .diskIoctl => 4
  | .reserved5 => 5
  | .reserved6 => 6
  | .reserved7 => 7

/-- The buffer bytes a transfer of `count` blocks uses: `count * 512` (R32). -/
def transferBytes (count : Word) : Nat := count.toNat * Config.blockSize

/-- The operand latches, "loaded when the host starts an operation" (R14); the buffer was latched with the request. -/
def State.loadOperands (s : State) (op : HostOp) (o : HostOperands) : State :=
  { s with op := op, drive := o.drive, sector := o.sector, count := o.count, ioctlCmd := o.ioctlCmd }

end Sys2Proof.Machine
end

