-- ==== Sys2Proof/Machine/Ops.lean ====
section
/-! DEFINITION. The shared operations: host-buffer memory (20_memory R32), the link computations and their primitives
(40_link R80 to R89), the response reader and `send_command` (41_command_framer R96, R97), the packets of the block
engine (43_block_transfer R140 to R146), and the two ways a host operation ends: its return (R185) and the link-fault
abort (R186), which is this hardware's one exception-like event. -/

namespace Sys2Proof.Machine

/-! Memory. -/

/-- The byte at an offset; an unlisted offset reads as 0 (log 6). -/
def Memory.read (m : Memory) (a : Nat) : Byte :=
  match m with
  | [] => 0
  | c :: rest => if c.1 = a then c.2 else Memory.read rest a

/-- Store a byte, keeping the canonical form: a 0 is not listed. -/
def Memory.write (m : Memory) (a : Nat) (b : Byte) : Memory :=
  match m with
  | [] => if b = 0 then [] else [(a, b)]
  | c :: rest =>
    if a < c.1 then (if b = 0 then c :: rest else (a, b) :: c :: rest)
    else if a = c.1 then (if b = 0 then rest else (a, b) :: rest)
    else c :: Memory.write rest a b

/-- Bytes stored at consecutive offsets from `a` on (R33). -/
def Memory.store (m : Memory) (a : Nat) : List Byte → Memory
  | [] => m
  | b :: rest => Memory.store (Memory.write m a b) (a + 1) rest

/-- `BufRead(off)` (R9, R32). -/
def State.bufByte (s : State) (off : Nat) : Byte := Memory.read s.buf.cells off

/-- `BufWrite(off, v)` (R9, R32). -/
def State.setBufByte (s : State) (off : Nat) (v : Byte) : State :=
  { s with buf := { s.buf with cells := Memory.write s.buf.cells off v } }

/-- `BufWrite` of each byte in order, at consecutive offsets from `off` on (R33). -/
def State.storeBytes (s : State) (off : Nat) (data : List Byte) : State :=
  { s with buf := { s.buf with cells := Memory.store s.buf.cells off data } }

/-! Link computations: the sequencer's pseudocode, which reads and writes the state, exchanges bytes, and may be
unwound by a link fault (R88). -/

/-- How a link computation ends: with a value, or unwound by `LinkFault(code)`. -/
inductive LinkResult (α : Type) where
  | ok (a : α) (s : State)
  | fault (code : Nat) (s : State)

/-- The state a link computation ends in, either way. -/
def LinkResult.state {α : Type} : LinkResult α → State
  | .ok _ s => s
  | .fault _ s => s

/-- A link computation. -/
abbrev Link (α : Type) := State → LinkResult α

/-- Return a value. -/
def Link.pure {α : Type} (a : α) : Link α := fun s => .ok a s

/-- First `m`, then `f` of its value; a link fault unwinds everything (R88). -/
def Link.bind {α β : Type} (m : Link α) (f : α → Link β) : Link β := fun s =>
  match m s with
  | .ok a s' => f a s'
  | .fault c s' => .fault c s'

/-- First `m`, then `k`, the value of `m` dropped. -/
def Link.andThen {α β : Type} (m : Link α) (k : Link β) : Link β := Link.bind m (fun _ => k)

/-- Write registers. -/
def Link.modify (f : State → State) : Link Unit := fun s => .ok () (f s)

/-- Read registers and go on with what was read. -/
def Link.reading {α β : Type} (f : State → α) (k : α → Link β) : Link β := fun s => k (f s) s

/-! The primitives. -/

/-- `Select()` (R80). -/
def select : Link Unit := Link.modify fun s => { s with cs := .asserted, trace := s.trace ++ [.sel] }

/-- `Deselect()` as a change of state (R81). -/
def State.deselected (s : State) : State := { s with cs := .deasserted, trace := s.trace ++ [.des] }

/-- `Deselect()` (R81). -/
def deselect : Link Unit := Link.modify State.deselected

/-- The answer past the script's end (log 3): a byte, or a link fault where `LINK_FAULTS` admits one (R82). -/
def State.freeAnswer (s : State) : Answer :=
  if s.params.linkFaults then
    match Config.freeFault s.draws with
    | some code => .fault code
    | none => .byte (Config.freeByte s.draws)
  else .byte (Config.freeByte s.draws)

/-- `oracle.next()` (R82): the script's next answer, a free one past its end. Where `LINK_FAULTS` is false an exchange
"always returns a byte" (R88): a fault in the script is then a free byte (log 3). -/
def State.nextAnswer (s : State) : Answer :=
  match s.oracle with
  | [] => s.freeAnswer
  | .byte b :: _ => .byte b
  | .fault code :: _ => if s.params.linkFaults then .fault code else .byte (Config.freeByte s.draws)

/-- One draw taken. -/
def State.drawn (s : State) : State := { s with oracle := s.oracle.tail, draws := s.draws + 1 }

/-- `Xfer(tx)` (R82): one exchange; a link fault records no event (R88). -/
def xfer (tx : Byte) : Link Byte := fun s =>
  match s.nextAnswer with
  | .byte rx => .ok rx { s.drawn with trace := s.trace ++ [.xfer tx rx] }
  | .fault code => .fault code s.drawn

/-- `ReadByte()` (R83). -/
def readByte : Link Byte := xfer Config.fill

/-- `WriteByte(b)`: the received byte is dropped (R84). -/
def writeByte (b : Byte) : Link Unit := Link.andThen (xfer b) (Link.pure ())

/-- `WriteByte` of each byte in order (R86). -/
def writeBytes : List Byte → Link Unit
  | [] => Link.pure ()
  | b :: rest => Link.andThen (writeByte b) (writeBytes rest)

/-! Register writes. -/

/-- `trail[k]` written (R123). -/
def Trail.set (t : Trail) (k : Nat) (b : Byte) : Trail :=
  match k with
  | 0 => { t with t0 := b }
  | 1 => { t with t1 := b }
  | 2 => { t with t2 := b }
  | _ => { t with t3 := b }

def setSeq (q : Seq) : Link Unit := Link.modify fun s => { s with seq := q }
def setTy (ct : CardType) : Link Unit := Link.modify fun s => { s with ty := ct }
def setRc (c : Command) : Link Unit := Link.modify fun s => { s with rc := c }
def setAddr (a : Word) : Link Unit := Link.modify fun s => { s with addr := a }
def setFrame (f : Frame) : Link Unit := Link.modify fun s => { s with frame := f }
def setResp (b : Byte) : Link Unit := Link.modify fun s => { s with resp := b }
def setTrailByte (k : Nat) (b : Byte) : Link Unit := Link.modify fun s => { s with trail := s.trail.set k b }
def setTok (b : Byte) : Link Unit := Link.modify fun s => { s with tok := b }
def setDresp (b : Byte) : Link Unit := Link.modify fun s => { s with dresp := b }
def setDone (n : BitVec 32) : Link Unit := Link.modify fun s => { s with done := n }
def setByteIndex (n : Nat) : Link Unit := Link.modify fun s => { s with byte := BitVec.ofNat 10 n }

/-- The poll counter starts afresh at each use (R191). -/
def startPoll : Link Unit := Link.modify fun s => { s with poll := 0 }
/-- One more poll. -/
def countPoll : Link Unit := Link.modify fun s => { s with poll := s.poll + 1 }
/-- The iteration counter starts afresh at each use (R191). -/
def startIter : Link Unit := Link.modify fun s => { s with iter := 0 }
/-- One more iteration. -/
def countIter : Link Unit := Link.modify fun s => { s with iter := s.iter + 1 }

/-! wait_ready. -/

/-- One poll of `wait_ready`: is the byte read 0xFF (R57, R85)? -/
def idlePoll : Link Bool :=
  Link.andThen countPoll (Link.bind readByte fun b => Link.pure (isIdle b))

/-- At most `n` polls. -/
def idlePolls : Nat → Link Bool
  | 0 => Link.pure false
  | n + 1 => Link.bind idlePoll fun ready => if ready then Link.pure true else idlePolls n

/-- `wait_ready(n)` (R85). -/
def waitReady (n : Nat) : Link Bool := Link.andThen startPoll (idlePolls n)

/-! The response reader. -/

/-- One poll for R1: the byte goes to `resp`; does it end the poll (R54, R97)? -/
def r1Poll : Link Bool :=
  Link.andThen countPoll (Link.bind readByte fun b => Link.andThen (setResp b) (Link.pure (r1IsValid b)))

/-- At most `n` polls, then `return resp` (R96 step 4). -/
def r1Polls : Nat → Link Byte
  | 0 => Link.reading State.resp Link.pure
  | n + 1 => Link.bind r1Poll fun ends => if ends then Link.reading State.resp Link.pure else r1Polls n

/-- The R1 poll: at least 1 and at most 10 reads (R97). -/
def readR1 : Link Byte := Link.andThen startPoll (r1Polls Config.nR1)

/-- One trailing byte: `trail[k] <- ReadByte()` (R123, R126). -/
def readTrailByte (k : Nat) : Link Unit := Link.bind readByte (setTrailByte k)

/-- The four trailing bytes, first received first (R33, R55, R56). -/
def readTrail : Link Unit :=
  Link.andThen (readTrailByte 0) (Link.andThen (readTrailByte 1) (Link.andThen (readTrailByte 2) (readTrailByte 3)))

/-! send_command. -/

/-- Steps 3 and 4 of R96: compose the frame, send its six bytes, poll for R1. -/
def sendFrame (index : BitVec 6) (arg : Word) : Link Byte :=
  Link.andThen (setFrame (composeFrame index arg))
    (Link.andThen (Link.reading State.frame fun f => writeBytes f.bytes) readR1)

/-- Steps 2 to 4 of R96 for one frame: "Unless the command is STOP_TRANSMISSION, deselect then reselect the card and
run `wait_ready`"; on failure 0xFF. -/
def sendStandard (index : BitVec 6) (arg : Word) : Link Byte :=
  if index = 12 then sendFrame index arg
  else
    Link.andThen deselect (Link.andThen select (Link.bind (waitReady Config.nReady) fun ready =>
      if ready then sendFrame index arg else Link.pure 0xFF))

/-- `send_command((app, index), arg)` (R96). An application command sends CMD55 first and is aborted by a fatal
answer (step 1, R65, R98). -/
def sendCommand (cmd : Command) (arg : Word) : Link Byte :=
  if cmd.app then
    Link.bind (sendStandard cmd55Value.index 0) fun r =>
      if isFatal r then Link.pure r else sendStandard cmd.index arg
  else sendStandard cmd.index arg

/-! Packets. -/

/-- One poll for a token: the byte goes to `tok`; is it a token candidate (R140)? -/
def tokenPoll : Link Bool :=
  Link.andThen countPoll (Link.bind readByte fun b => Link.andThen (setTok b) (Link.pure (isTokenCandidate b)))

/-- At most `n` polls; `tok` is what was read last. -/
def tokenPolls : Nat → Link Byte
  | 0 => Link.reading State.tok Link.pure
  | n + 1 => Link.bind tokenPoll fun ends => if ends then Link.reading State.tok Link.pure else tokenPolls n

/-- The token poll of R140, `tok` 0xFF before it. -/
def readToken : Link Byte :=
  Link.andThen (setTok 0xFF) (Link.andThen startPoll (tokenPolls Config.nToken))

/-- `n` data bytes, counted in `byte` from `i` on (R141). -/
def receiveBytes : Nat → Nat → Link (List Byte)
  | _, 0 => Link.pure []
  | i, n + 1 =>
    Link.andThen (setByteIndex i) (Link.bind readByte fun b =>
      Link.bind (receiveBytes (i + 1) n) fun rest => Link.pure (b :: rest))

/-- `receive_datablock(off, length)` (R141): the two CRC bytes are read and discarded. The buffer is written "only on the
success path", so the block is stored once all of it has been read: it "arrives whole ... or not at all" (R35), where a
link fault cuts it short too. -/
def receiveDatablock (off length : Nat) : Link Bool :=
  Link.bind readToken fun tok =>
    if isStartBlock tok then
      Link.bind (receiveBytes 0 length) fun data =>
        Link.andThen readByte (Link.andThen readByte
          (Link.andThen (Link.modify fun s => s.storeBytes off data) (Link.pure true)))
    else Link.pure false

/-- `n` data bytes from the buffer from `off + i` on (R144). -/
def transmitBytes (off : Nat) : Nat → Nat → Link Unit
  | _, 0 => Link.pure ()
  | i, n + 1 =>
    Link.andThen (setByteIndex i) (Link.andThen (Link.reading (fun s => s.bufByte (off + i)) writeByte)
      (transmitBytes off (i + 1) n))

/-- "The token is one `WriteByte`" (R143); `tok` holds "the token being sent" (R15). -/
def sendToken (t : Token) : Link Unit := Link.andThen (setTok t.byte) (writeByte t.byte)

/-- "read the 1-byte data-response": exactly one read (R144), accepted or not (R60). -/
def readDresp : Link Bool :=
  Link.bind readByte fun b => Link.andThen (setDresp b) (Link.pure (dataAccepted b))

/-- The payload, the two dummy CRC bytes and the data response (R144). -/
def transmitPayload (off : Nat) : Link Bool :=
  Link.andThen (transmitBytes off 0 Config.blockSize)
    (Link.andThen (writeBytes [Config.fill, Config.fill]) readDresp)

/-- What follows the token: nothing after the stop token (R143), the payload otherwise. -/
def transmitBody (off : Nat) (t : Token) : Link Bool :=
  if t = .stopTran then Link.pure true else transmitPayload off

/-- `transmit_datablock(off, token)` (R146); the closing wait's outcome is ignored (R145). -/
def transmitDatablock (off : Nat) (t : Token) : Link Bool :=
  Link.bind (waitReady Config.nReady) fun ready =>
    if ready then
      Link.andThen (sendToken t) (Link.bind (transmitBody off t) fun ok =>
        Link.andThen (waitReady Config.nReadyPost) (Link.pure ok))
    else Link.pure false

/-! How operations end. -/

/-- The end of a host operation: the result to the host, `seq <- Idle` (R185). The operand latches, the transient
registers and the buffer keep what they hold: R14 has the controller keep no copy of the buffer and U7 allows the rest any
value, so this is the model's choice (log 28). -/
def State.returned (s : State) (r : Result) : State := { s with result := r, seq := .idle }

/-- TAKING A LINK FAULT (R186): no further exchange, `Deselect()`, `CardType <- None` if the operation is
disk_initialize (told by the phase), the result is `LINK_FAULT(code)` with the code unchanged, and the controller is
Idle again. -/
def State.takeLinkFault (s : State) (code : Nat) : State :=
  let d := s.deselected
  { d with
    cardType := if s.seq.initializing then .none else s.cardType
    result := .linkFault code
    seq := .idle }

/-- The state a host operation leaves. -/
def LinkResult.settle : LinkResult Result → State
  | .ok r s => s.returned r
  | .fault code s => s.takeLinkFault code

/-- Run a host operation (R170): refused while one is running (U1, R206); otherwise the operand latches are loaded
(R14), `seq` holds the operation's first phase (R13), and the body runs to completion: to the host the operation is
atomic (R170). -/
def hostOperation (op : HostOp) (first : Seq) (body : Link Result) (o : HostOperands) (s : State) :
    Host.Outcome State Fault Refusal :=
  if s.seq = .idle then .next (body { s.loadOperands op o with seq := first }).settle
  else .refused .operationRunning

/-- The state an instruction below the host operations leaves: its micro-result recorded (log 13); a link fault is taken
as in a host operation (R186, log 17). -/
def LinkResult.record {α : Type} (report : α → MicroResult) : LinkResult α → State
  | .ok a s => { s with microResult := report a }
  | .fault code s => { s.takeLinkFault code with microResult := .linkFault code }

/-- Run an instruction below the host operations as a step of its own (log 2). -/
def microOperation {α : Type} (report : α → MicroResult) (m : Link α) (s : State) :
    Host.Outcome State Fault Refusal :=
  .next ((m s).record report)

/-- Run one that stores to or reads from the buffer's bytes `off .. off+length-1`: they must exist (R30; log 7). -/
def bufferOperation {α : Type} (off length : Nat) (report : α → MicroResult) (m : Link α) (s : State) :
    Host.Outcome State Fault Refusal :=
  if off + length ≤ s.buf.size then microOperation report m s else .fault .bufferRange

/-- The card's answers to the next exchanges, put before the script: the rows of received bytes (log 9). -/
def State.answering (s : State) (bytes : List Byte) : State :=
  { s with oracle := bytes.map Answer.byte ++ s.oracle }

/-- A power cycle (R18, R200): every piece of controller state at its reset value, no link event. The outside world
(parameters, the card's answers, what the host presents) is not the controller's and stays. -/
def State.powerCycled (s : State) : State :=
  { State.reset with params := s.params, oracle := s.oracle, draws := s.draws, pending := s.pending }

end Sys2Proof.Machine
end

