-- ==== Sys2Proof/Machine/Recognizers.lean ====
section
/-! DEFINITION. The meanings of the rows that are one token or one received answer (30_encoding R54 to R61, R64). A
received row is the card giving that answer to the next exchange and the recognizer that reads it taking its step: the
same one-poll operation that wait_ready, the R1 poll and the token poll are made of (log 9). -/

namespace Sys2Proof.Machine

/-- Run a recognizer on the card's next answers. -/
def recognize (bytes : List Byte) (m : Link Bool) (s : State) : Host.Outcome State Fault Refusal :=
  microOperation .bool m (s.answering bytes)

/-- A byte read by the token poll (R58, R64): is it the start token? -/
def receiveToken (b : Byte) (s : State) : Host.Outcome State Fault Refusal :=
  recognize [b] (Link.andThen tokenPoll (Link.reading (fun s => isStartBlock s.tok) Link.pure)) s

/-- A byte read by `wait_ready` (R57, R64): is the card ready? -/
def receiveIdle (b : Byte) (s : State) : Host.Outcome State Fault Refusal := recognize [b] idlePoll s

/-- A data response (R60, R64): is the block accepted? -/
def receiveDresp (b : Byte) (s : State) : Host.Outcome State Fault Refusal := recognize [b] readDresp s

/-- The four bytes after CMD8 (R55, R123): is the check pattern there? -/
def receiveEcho (b0 b1 b2 b3 : Byte) (s : State) : Host.Outcome State Fault Refusal :=
  recognize [b0, b1, b2, b3] (Link.andThen readTrail (Link.reading (fun s => echoOk s.trail) Link.pure)) s

/-- TOKEN.START_BLOCK (R58): read by the token poll, or sent before the block of a single-block write. -/
def execTokenStartBlock (dir : Direction) (s : State) : Host.Outcome State Fault Refusal :=
  match dir with
  | .toController => receiveToken Token.startBlock.byte s
  | .toCard => microOperation (fun _ => .unit) (sendToken .startBlock) s

/-- TOKEN.START_MULTI_WRITE (R58): sent before every block of a multi-block write. -/
def execTokenStartMultiWrite (s : State) : Host.Outcome State Fault Refusal :=
  microOperation (fun _ => .unit) (sendToken .startMultiWrite) s

/-- TOKEN.STOP_TRAN (R61): the stop packet, one byte; "No data, no CRC, no data response follows it". -/
def execTokenStopTran (s : State) : Host.Outcome State Fault Refusal :=
  microOperation (fun _ => .unit) (sendToken .stopTran) s

/-- R1.valid (R54): ends the R1 poll. -/
def execR1Valid (status : BitVec 7) (s : State) : Host.Outcome State Fault Refusal :=
  recognize [(0 : BitVec 1) ++ status] r1Poll s

/-- R1.pending (R54): the R1 poll goes on. -/
def execR1Pending (ignored : BitVec 7) (s : State) : Host.Outcome State Fault Refusal :=
  recognize [(1 : BitVec 1) ++ ignored] r1Poll s

/-- IDLE.ready (R57): wait_ready succeeds. -/
def execIdleReady (s : State) : Host.Outcome State Fault Refusal := receiveIdle 0xFF s

/-- DRESP.accepted (R60): the written block is accepted. -/
def execDrespAccepted (ignored : BitVec 3) (s : State) : Host.Outcome State Fault Refusal :=
  receiveDresp (ignored ++ (5 : BitVec 5)) s

/-- TRAIL4.cmd8_echo (R55): four bytes read, the check pattern found. -/
def execTrailCmd8Echo (ignored : BitVec 16) (s : State) : Host.Outcome State Fault Refusal :=
  receiveEcho (ignored.extractLsb' 8 8) (ignored.extractLsb' 0 8) 0x01 0xAA s

/-- "`trail[0][6]` ... set means `SDC`, clear means `SD2`" (R56): the OCR read and the card classified in `ty`. -/
def readOcr : Link Unit :=
  Link.andThen readTrail (Link.reading (fun s => ccs s.trail) fun set => setTy (if set then .sdc else .sd2))

/-- The OCR recognizer with its condition as the micro-result. -/
def recognizeOcr (w : Word) (s : State) : Host.Outcome State Fault Refusal :=
  recognize (wordBytes w) (Link.andThen readOcr (Link.reading (fun s => ccs s.trail) Link.pure)) s

/-- TRAIL4.ocr_ccs_set (R56). -/
def execTrailOcrCcsSet (high : BitVec 1) (low : BitVec 30) (s : State) : Host.Outcome State Fault Refusal :=
  recognizeOcr (ocrWord high 1 low) s

/-- TRAIL4.ocr_ccs_clear (R56). -/
def execTrailOcrCcsClear (high : BitVec 1) (low : BitVec 30) (s : State) : Host.Outcome State Fault Refusal :=
  recognizeOcr (ocrWord high 0 low) s

end Sys2Proof.Machine
end

