-- ==== Sys2Proof/Machine/Commands.lean ====
section
/-! DEFINITION. The thirteen wire commands (41_command_framer R100 to R112) and the composer's row (R92). Each command
is a link computation: its frame sent by `send_command`, then what its rule says the controller does with the answer.
The host operations are made of these computations, and each is also a step of its own (log 2, log 16). -/

namespace Sys2Proof.Machine

/-- CMD0 (R100): the value is tested for 1 by the initializer. -/
def cmd0 : Link Byte := sendCommand cmd0Value 0

/-- CMD1 (R101). -/
def cmd1 : Link Byte := sendCommand cmd1Value 0

/-- CMD8 (R102): on R1 = 1 the four trailing bytes are read at once. -/
def cmd8 : Link Byte :=
  Link.bind (sendCommand cmd8Value echoArg) fun r =>
    if inIdleState r then Link.andThen readTrail (Link.pure r) else Link.pure r

/-- CMD12 (R103). -/
def cmd12 : Link Byte := sendCommand cmd12Value 0

/-- CMD16 (R104): "any other value is the failure → CardType=None". -/
def cmd16 : Link Byte :=
  Link.bind (sendCommand cmd16Value blockLengthArg) fun r =>
    if isReady r then Link.pure r else Link.andThen (setTy .none) (Link.pure r)

/-- ACMD23 (R107). -/
def acmd23 (count : Word) : Link Byte := sendCommand acmd23Value count

/-- ACMD41 (R110). -/
def acmd41 (hcs : Bool) : Link Byte := sendCommand acmd41Value (opCondArg hcs)

/-- CMD55 (R111). -/
def cmd55 : Link Byte := sendCommand cmd55Value 0

/-- CMD58 (R112): "on response==0, read 4 OCR bytes; CardType = SDC if bit6 of byte0 is set, else SD2". -/
def cmd58 : Link Byte :=
  Link.bind (sendCommand cmd58Value 0) fun r =>
    if isReady r then Link.andThen readOcr (Link.pure r) else Link.pure r

/-- CMD17 (R105): R1 = 0 starts one receive_datablock at the buffer's start. -/
def cmd17 (addr : Word) : Link Bool :=
  Link.bind (sendCommand cmd17Value addr) fun r =>
    if isReady r then receiveDatablock 0 Config.blockSize else Link.pure false

/-- The buffer offset of the running block: `done * 512` (R15, R32). -/
def State.blockOffset (s : State) : Nat := s.done.toNat * Config.blockSize

/-- Receive at most `n` blocks, advancing `done`, "break early on failure" (R150). -/
def receiveBlocks : Nat → Link Unit
  | 0 => Link.pure ()
  | n + 1 =>
    Link.bind (Link.reading State.blockOffset fun off => receiveDatablock off Config.blockSize) fun got =>
      if got then Link.andThen (Link.reading State.done fun d => setDone (d + 1)) (receiveBlocks n)
      else Link.pure ()

/-- CMD18 (R106, R150): R1 = 0 starts the loop of receive_datablocks, always followed by CMD12, whose value is
ignored; any other value opens no transfer. `done == count` is the outcome. -/
def cmd18 (addr : Word) : Link Bool :=
  Link.andThen (setDone 0) (Link.bind (sendCommand cmd18Value addr) fun r =>
    Link.andThen
      (if isReady r then
        Link.reading State.count fun count =>
          Link.andThen (receiveBlocks count.toNat) (Link.andThen cmd12 (Link.pure ()))
      else Link.pure ())
      (Link.reading (fun s => s.done == s.count) Link.pure))

/-- CMD24 (R108): R1 = 0 starts `transmit_datablock(0, 0xFE)`. -/
def cmd24 (addr : Word) : Link Bool :=
  Link.bind (sendCommand cmd24Value addr) fun r =>
    if isReady r then transmitDatablock 0 .startBlock else Link.pure false

/-- Transmit at most `n` blocks with token 0xFC, advancing `done`, "break early on failure" (R153). -/
def transmitBlocks : Nat → Link Unit
  | 0 => Link.pure ()
  | n + 1 =>
    Link.bind (Link.reading State.blockOffset fun off => transmitDatablock off .startMultiWrite) fun accepted =>
      if accepted then Link.andThen (Link.reading State.done fun d => setDone (d + 1)) (transmitBlocks n)
      else Link.pure ()

/-- CMD25 (R109, R153): R1 = 0 starts the loop, "always closed" by the stop packet; the outcome is that all blocks were
accepted and the stop packet was sent. -/
def cmd25 (addr : Word) : Link Bool :=
  Link.andThen (setDone 0) (Link.bind (sendCommand cmd25Value addr) fun r =>
    if isReady r then
      Link.reading State.count fun count =>
        Link.andThen (transmitBlocks count.toNat) (Link.bind (transmitDatablock 0 .stopTran) fun st =>
          Link.reading (fun s => s.done == s.count && st) Link.pure)
    else Link.pure false)

/-! The rows. -/

/-- CMD0 (R100). -/
def execCmd0 (s : State) : Host.Outcome State Fault Refusal := microOperation .byte cmd0 s

/-- CMD1 (R101). -/
def execCmd1 (s : State) : Host.Outcome State Fault Refusal := microOperation .byte cmd1 s

/-- CMD8 (R102). -/
def execCmd8 (s : State) : Host.Outcome State Fault Refusal := microOperation .byte cmd8 s

/-- CMD12 (R103). -/
def execCmd12 (s : State) : Host.Outcome State Fault Refusal := microOperation .byte cmd12 s

/-- CMD16 (R104). -/
def execCmd16 (s : State) : Host.Outcome State Fault Refusal := microOperation .byte cmd16 s

/-- CMD17 (R105). -/
def execCmd17 (arg : Word) (s : State) : Host.Outcome State Fault Refusal :=
  bufferOperation 0 Config.blockSize .bool (cmd17 arg) s

/-- CMD18 (R106): the number of blocks is the `count` latch (log 16). -/
def execCmd18 (arg : Word) (s : State) : Host.Outcome State Fault Refusal :=
  bufferOperation 0 (transferBytes s.count) .bool (cmd18 arg) s

/-- ACMD23 (R107). -/
def execAcmd23 (count : Word) (s : State) : Host.Outcome State Fault Refusal := microOperation .byte (acmd23 count) s

/-- CMD24 (R108). -/
def execCmd24 (arg : Word) (s : State) : Host.Outcome State Fault Refusal :=
  bufferOperation 0 Config.blockSize .bool (cmd24 arg) s

/-- CMD25 (R109): the number of blocks is the `count` latch (log 16). -/
def execCmd25 (arg : Word) (s : State) : Host.Outcome State Fault Refusal :=
  bufferOperation 0 (transferBytes s.count) .bool (cmd25 arg) s

/-- ACMD41 (R110). -/
def execAcmd41 (hcs : Bool) (s : State) : Host.Outcome State Fault Refusal := microOperation .byte (acmd41 hcs) s

/-- CMD55 (R111). -/
def execCmd55 (s : State) : Host.Outcome State Fault Refusal := microOperation .byte cmd55 s

/-- CMD58 (R112). -/
def execCmd58 (s : State) : Host.Outcome State Fault Refusal := microOperation .byte cmd58 s

/-- FRAME.generic: the composer (R92): "Reads its operands; writes `frame`". -/
def execFrameGeneric (index : BitVec 6) (arg : Word) (s : State) : Host.Outcome State Fault Refusal :=
  microOperation (fun _ => .unit) (setFrame (composeFrame index arg)) s

end Sys2Proof.Machine
end

