-- ==== Sys2Proof/Machine/Facade.lean ====
section
/-! DEFINITION. The host operations besides disk_initialize (43_block_transfer R150, R153, R160; 44_disk_facade R170 to
R175), and the ioctl code's row. -/

namespace Sys2Proof.Machine

/-- The card-present gate (R172), before anything else (R175): NOT_READY and no event. -/
def gated (body : Link Result) : Link Result :=
  Link.reading State.cardType fun ct => if cardPresent ct then body else Link.pure .notReady

/-- OK or ERROR by the outcome (R150, R153, R160). -/
def verdict (ok : Bool) : Result := if ok then .ok else .error

/-- "Always deselect before returning." (R150, R153, R160). -/
def concluding (m : Link Bool) : Link Result :=
  Link.bind m fun ok => Link.andThen deselect (Link.pure (verdict ok))

/-- The translator applied once, to the first sector (R36). -/
def translateSector : Link Unit :=
  Link.modify fun s => { s with addr := translate s.cardType s.sector }

/-- The transfer of `disk_read` (R150): CMD17 for one block, CMD18 for more. -/
def readTransfer : Link Bool :=
  Link.andThen translateSector (Link.reading State.addr fun a =>
    Link.reading State.count fun count => if count = 1 then cmd17 a else cmd18 a)

/-- `disk_read` (R150). -/
def readBody : Link Result :=
  gated (Link.reading State.count fun count =>
    if count = 0 then Link.pure .paramError else concluding readTransfer)

/-- Is ACMD23 sent before CMD25 (R153, decision D6)? -/
def sendsAcmd23 (s : State) : Bool := s.cardType != .mmc || s.params.acmd23OnMmc

/-- The transfer of `disk_write` (R153): CMD24 for one block; for more, ACMD23 where it is sent, its value ignored,
then CMD25. -/
def writeTransfer : Link Bool :=
  Link.andThen translateSector (Link.reading State.addr fun a =>
    Link.reading State.count fun count =>
      if count = 1 then cmd24 a
      else
        Link.reading sendsAcmd23 fun pre =>
          Link.andThen (if pre then Link.andThen (acmd23 count) (Link.pure ()) else Link.pure ()) (cmd25 a))

/-- `disk_write` (R153). -/
def writeBody : Link Result :=
  gated (Link.reading State.count fun count =>
    if count = 0 then Link.pure .paramError else concluding writeTransfer)

/-- `disk_ioctl` (R160): a plain Select, wait_ready(500), Deselect. -/
def ioctlBody : Link Result :=
  gated (Link.reading State.ioctlCmd fun cmd =>
    if cmd = Config.ctrlSync then
      Link.andThen select (concluding (waitReady Config.nReady))
    else Link.pure .paramError)

/-- `disk_status` (R173): the pure read of the gate. -/
def statusBody : Link Result := gated (Link.pure .ok)

/-- Does a transfer reach its first link event with a buffer shorter than `count * 512` bytes (U6, R32)? The up-front
checks come first (R175): they do not touch the buffer. A buffer of more than `count * 512` bytes is accepted and its bytes
past them are not touched: R208 asks for exactly that many and the spec treats only fewer, so this is the model's choice
(log 29). -/
def shortBuffer (o : HostOperands) (s : State) : Bool :=
  cardPresent s.cardType && o.count != 0 && decide (s.buf.size < transferBytes o.count)

/-- A host operation that needs its buffer (R32): "a model refuses such a call" where it is too short. -/
def transferOperation (op : HostOp) (body : Link Result) (o : HostOperands) (s : State) :
    Host.Outcome State Fault Refusal :=
  if shortBuffer o s then .refused .bufferTooShort else hostOperation op .transfer body o s

/-- disk_status (R173). -/
def execDiskStatus (o : HostOperands) (s : State) : Host.Outcome State Fault Refusal :=
  hostOperation .diskStatus .transfer statusBody o s

/-- disk_read (R150). -/
def execDiskRead (o : HostOperands) (s : State) : Host.Outcome State Fault Refusal :=
  transferOperation .diskRead readBody o s

/-- disk_write (R153). -/
def execDiskWrite (o : HostOperands) (s : State) : Host.Outcome State Fault Refusal :=
  transferOperation .diskWrite writeBody o s

/-- disk_ioctl (R160). -/
def execDiskIoctl (o : HostOperands) (s : State) : Host.Outcome State Fault Refusal :=
  hostOperation .diskIoctl .transfer ioctlBody o s

/-- "5, 6, 7: return PARAM_ERROR", no link activity (R68, R170, decision D18). -/
def reservedBody : Link Result := Link.pure .paramError

/-- The reserved code 5 (R170). -/
def execHostReserved5 (o : HostOperands) (s : State) : Host.Outcome State Fault Refusal :=
  hostOperation .reserved5 .transfer reservedBody o s

/-- The reserved code 6 (R170). -/
def execHostReserved6 (o : HostOperands) (s : State) : Host.Outcome State Fault Refusal :=
  hostOperation .reserved6 .transfer reservedBody o s

/-- The reserved code 7 (R170). -/
def execHostReserved7 (o : HostOperands) (s : State) : Host.Outcome State Fault Refusal :=
  hostOperation .reserved7 .transfer reservedBody o s

/-- The operands of `disk_ioctl` where its code alone is presented: the other latches keep what they hold (log 20). -/
def ioctlOperands (code : Byte) (s : State) : HostOperands := ⟨s.drive, s.sector, s.count, code⟩

/-- A code of R69 alone: `disk_ioctl` with it (R160). -/
def execIoctlCode (code : Byte) (s : State) : Host.Outcome State Fault Refusal :=
  hostOperation .diskIoctl .transfer ioctlBody (ioctlOperands code s) s

/-- CTRL_SYNC (R69, R160): `disk_ioctl` with this code. -/
def execCtrlSync (s : State) : Host.Outcome State Fault Refusal := execIoctlCode Config.ctrlSync s

end Sys2Proof.Machine
end

