-- ==== Sys2Proof/Machine/Initializer.lean ====
section
/-! DEFINITION. The card initializer, disk_initialize (42_card_initializer R120 to R135), phase by phase: each state of
R120's chain is one computation that ends by writing the next phase to `seq`. -/

namespace Sys2Proof.Machine

/-- `Reset` (R121): ten bytes of 0xFF with chip-select asserted. -/
def phaseReset : Link Unit :=
  Link.andThen (setTy .none) (Link.andThen select
    (Link.andThen (writeBytes (List.replicate Config.nWake Config.fill)) (setSeq .idleOrFail)))

/-- `IdleOrFail` (R122): CMD0 must answer exactly 1. -/
def phaseIdleOrFail : Link Unit :=
  Link.bind cmd0 fun r => setSeq (if inIdleState r then .voltageCheck else .failed)

/-- `VoltageCheck` (R123, R124): CMD8 chooses the path; an echo mismatch fails without the legacy path. -/
def phaseVoltageCheck : Link Unit :=
  Link.bind cmd8 fun r =>
    if inIdleState r then
      Link.reading (fun s => echoOk s.trail) fun echo => setSeq (if echo then .advancedInit else .failed)
    else setSeq .legacyInit

/-- Send a command until it answers 0, at most `n` times (R125, R128): did it? -/
def retryLoop (cmd : Link Byte) : Nat → Link Bool
  | 0 => Link.pure false
  | n + 1 =>
    Link.andThen countIter (Link.bind cmd fun r => if isReady r then Link.pure true else retryLoop cmd n)

/-- The retry loop with its counter started afresh. -/
def retryCommand (cmd : Link Byte) : Link Bool := Link.andThen startIter (retryLoop cmd Config.nInit)

/-- `AdvancedInit` (R125). -/
def phaseAdvancedInit : Link Unit :=
  Link.bind (retryCommand (acmd41 true)) fun ok => setSeq (if ok then .capacityCheck else .failed)

/-- The classification of the legacy probe (R127): "response ≤1 → CardType=SD1 with retry-command ACMD41; otherwise
CardType=MMC with retry-command CMD1". -/
def classifyLegacy (r : Byte) : Link Unit :=
  if isFatal r then Link.andThen (setTy .mmc) (setRc cmd1Value)
  else Link.andThen (setTy .sd1) (setRc acmd41Value)

/-- `LegacyInit` (R127, R128): the probe, then the retry-command with argument 0; exhaustion leaves no type (R129). -/
def phaseLegacyInit : Link Unit :=
  Link.bind (acmd41 false) fun r =>
    Link.andThen (classifyLegacy r)
      (Link.bind (Link.reading State.rc fun rc => retryCommand (sendCommand rc 0)) fun ok =>
        if ok then setSeq .capacityCheck else Link.andThen (setTy .none) (setSeq .failed))

/-- CMD58 and, if it answered 0, CMD16 (R126): the v2 path, told by `ty` still None (log 21). -/
def checkCapacity : Link Unit :=
  Link.bind cmd58 fun r => if isReady r then Link.andThen cmd16 (Link.pure ()) else Link.pure ()

/-- `CapacityCheck/SetBlockLength` (R126, R129): no CMD58 on the legacy path. -/
def phaseCapacityCheck : Link Unit :=
  Link.reading State.ty fun ct =>
    Link.andThen (if ct = .none then checkCapacity else Link.andThen cmd16 (Link.pure ()))
      (Link.reading State.ty fun ct' => setSeq (if ct' = .none then .failed else .ready))

/-- `Ready` and `Failed` (R130): "Deselect; return OK iff CardType != None", the one write of `CardType` (R131). -/
def phaseConclude : Link Result :=
  Link.reading State.ty fun ct =>
    Link.andThen (Link.modify fun s => { s with cardType := ct })
      (Link.andThen deselect (Link.pure (if ct = .none then .notReady else .ok)))

/-- The phase `seq` names; the phases after the middle of the chain have nothing left to do there (R120). -/
def phaseOf : Seq → Link Unit
  | .reset => phaseReset
  | .idleOrFail => phaseIdleOrFail
  | .voltageCheck => phaseVoltageCheck
  | .advancedInit => phaseAdvancedInit
  | .legacyInit => phaseLegacyInit
  | .capacityCheck => phaseCapacityCheck
  | .ready | .failed | .idle | .transfer => Link.pure ()

/-- Run the phase `seq` names. -/
def nextPhase : Link Unit := Link.reading State.seq phaseOf

/-- `disk_initialize` (R131): the chain of R120 has five phases before `Ready` or `Failed`. -/
def initializeCard : Link Result :=
  Link.andThen nextPhase (Link.andThen nextPhase (Link.andThen nextPhase (Link.andThen nextPhase
    (Link.andThen nextPhase phaseConclude))))

/-- disk_initialize (R131). It may be called with `CardType` of any value and does not look at it. -/
def execDiskInitialize (o : HostOperands) (s : State) : Host.Outcome State Fault Refusal :=
  hostOperation .diskInitialize .reset initializeCard o s

end Sys2Proof.Machine
end

