-- ==== Sys2Proof/Machine/LinkPrimitives.lean ====
section
/-! DEFINITION. The meanings of the link primitives (40_link R80 to R85) and of the packet micro-operations
(41_command_framer R96, 43_block_transfer R141, R146), each as a step of its own (log 2). -/

namespace Sys2Proof.Machine

/-- Select (R80). -/
def execSelect (s : State) : Host.Outcome State Fault Refusal := microOperation (fun _ => .unit) select s

/-- Deselect (R81). -/
def execDeselect (s : State) : Host.Outcome State Fault Refusal := microOperation (fun _ => .unit) deselect s

/-- Xfer(tx) (R82). -/
def execXfer (tx : Byte) (s : State) : Host.Outcome State Fault Refusal := microOperation .byte (xfer tx) s

/-- ReadByte (R83). -/
def execReadByte (s : State) : Host.Outcome State Fault Refusal := microOperation .byte readByte s

/-- WriteByte(b) (R84). -/
def execWriteByte (b : Byte) (s : State) : Host.Outcome State Fault Refusal :=
  microOperation (fun _ => .unit) (writeByte b) s

/-- wait_ready(n) (R85). -/
def execWaitReady (n : BitVec 16) (s : State) : Host.Outcome State Fault Refusal :=
  microOperation .bool (waitReady n.toNat) s

/-- send_command((app, index), arg) (R96). -/
def execSendCommand (cmd : Command) (arg : Word) (s : State) : Host.Outcome State Fault Refusal :=
  microOperation .byte (sendCommand cmd arg) s

/-- receive_datablock(off, length) (R141). -/
def execReceiveDatablock (off : BitVec 48) (length : BitVec 10) (s : State) : Host.Outcome State Fault Refusal :=
  bufferOperation off.toNat length.toNat .bool (receiveDatablock off.toNat length.toNat) s

/-- The buffer bytes a token's packet reads: none for the stop token (R143, R144). -/
def packetBytes : Token → Nat
  | .stopTran => 0
  | .startBlock | .startMultiWrite => Config.blockSize

/-- transmit_datablock(off, token) (R146); `off` is "unused when `token == 0xFD`". -/
def execTransmitDatablock (off : BitVec 48) (t : Token) (s : State) : Host.Outcome State Fault Refusal :=
  bufferOperation (if t = .stopTran then 0 else off.toNat) (packetBytes t) .bool (transmitDatablock off.toNat t) s

end Sys2Proof.Machine
end

