-- ==== Sys2Proof/Machine/Dispatch.lean ====
section
/-! DEFINITION. exec: one arm per row of the opcode table. -/

namespace Sys2Proof.Machine

def exec (i : Instr) (s : State) : Host.Outcome State Fault Refusal :=
  match i with
  -- wire commands
  | .cmd0 => Sys2Proof.Machine.execCmd0 s
  | .cmd1 => Sys2Proof.Machine.execCmd1 s
  | .cmd8 => Sys2Proof.Machine.execCmd8 s
  | .cmd12 => Sys2Proof.Machine.execCmd12 s
  | .cmd16 => Sys2Proof.Machine.execCmd16 s
  | .cmd17 arg => Sys2Proof.Machine.execCmd17 arg s
  | .cmd18 arg => Sys2Proof.Machine.execCmd18 arg s
  | .acmd23 count => Sys2Proof.Machine.execAcmd23 count s
  | .cmd24 arg => Sys2Proof.Machine.execCmd24 arg s
  | .cmd25 arg => Sys2Proof.Machine.execCmd25 arg s
  | .acmd41 hcs => Sys2Proof.Machine.execAcmd41 hcs s
  | .cmd55 => Sys2Proof.Machine.execCmd55 s
  | .cmd58 => Sys2Proof.Machine.execCmd58 s
  | .frameGeneric index arg => Sys2Proof.Machine.execFrameGeneric index arg s
  -- tokens and received bytes
  | .tokenStartBlock dir => Sys2Proof.Machine.execTokenStartBlock dir s
  | .tokenStartMultiWrite => Sys2Proof.Machine.execTokenStartMultiWrite s
  | .tokenStopTran => Sys2Proof.Machine.execTokenStopTran s
  | .r1Valid status => Sys2Proof.Machine.execR1Valid status s
  | .r1Pending ignored => Sys2Proof.Machine.execR1Pending ignored s
  | .idleReady => Sys2Proof.Machine.execIdleReady s
  | .drespAccepted ignored => Sys2Proof.Machine.execDrespAccepted ignored s
  | .trailCmd8Echo ignored => Sys2Proof.Machine.execTrailCmd8Echo ignored s
  | .trailOcrCcsSet high low => Sys2Proof.Machine.execTrailOcrCcsSet high low s
  | .trailOcrCcsClear high low => Sys2Proof.Machine.execTrailOcrCcsClear high low s
  -- host operations
  | .diskInitialize o => Sys2Proof.Machine.execDiskInitialize o s
  | .diskStatus o => Sys2Proof.Machine.execDiskStatus o s
  | .diskRead o => Sys2Proof.Machine.execDiskRead o s
  | .diskWrite o => Sys2Proof.Machine.execDiskWrite o s
  | .diskIoctl o => Sys2Proof.Machine.execDiskIoctl o s
  | .hostReserved5 o => Sys2Proof.Machine.execHostReserved5 o s
  | .hostReserved6 o => Sys2Proof.Machine.execHostReserved6 o s
  | .hostReserved7 o => Sys2Proof.Machine.execHostReserved7 o s
  | .ctrlSync => Sys2Proof.Machine.execCtrlSync s
  -- micro-operations
  | .select => Sys2Proof.Machine.execSelect s
  | .deselect => Sys2Proof.Machine.execDeselect s
  | .xfer tx => Sys2Proof.Machine.execXfer tx s
  | .readByte => Sys2Proof.Machine.execReadByte s
  | .writeByte b => Sys2Proof.Machine.execWriteByte b s
  | .waitReady n => Sys2Proof.Machine.execWaitReady n s
  | .sendCommand cmd arg => Sys2Proof.Machine.execSendCommand cmd arg s
  | .receiveDatablock off length => Sys2Proof.Machine.execReceiveDatablock off length s
  | .transmitDatablock off token => Sys2Proof.Machine.execTransmitDatablock off token s

end Sys2Proof.Machine
end

