-- ==== Sys2Proof/Machine/Fetch.lean ====
section
/-! DEFINITION. How the next instruction reaches the controller. Nothing is fetched at a program counter (10_state R13,
20_memory R44): the outside presents a request, a word with its buffer (R14, R170; log 2). -/

namespace Sys2Proof.Machine

/-- The request taken: the queue moves on and the buffer is latched with the operation (R14). -/
def State.latched (s : State) (buf : HostBuffer) (rest : List Request) : State :=
  { s with pending := rest, buf := buf }

/-- The buffer presented with a word alone: one block, every byte 0 (log 6). -/
def oneBlockBuffer : HostBuffer := ⟨Config.blockSize, []⟩

/-- `w`, numbered as the opcode table numbers it, presented next with a one-block buffer (log 2, log 11). -/
def State.presenting (s : State) (word : InstrWord) (buf : HostBuffer) : State :=
  { s with pending := .run word buf :: s.pending }

end Sys2Proof.Machine
end

