-- ==== Sys2Proof/Machine/Unlisted.lean ====
section
/-! DEFINITION. The words that are no row of the opcode table (30_encoding R57 to R64, R69). "There is no illegal input; every
byte value has a defined effect" (R64): a received byte that has no row takes its turn of the recognizer that reads it (log
9), and a reserved ioctl code returns PARAM_ERROR past the gate (R69, R160). -/

namespace Sys2Proof.Machine

/-- The effect of a word of these bytes that decodes to nothing, for the reason `e`. A word no rule gives an effect is
refused: the controller never sends it (R63), or it is no layout of an operand tuple (log 12). -/
def execUnlisted (e : DecodeError) (bytes : List Byte) (s : State) : Host.Outcome State Fault Refusal :=
  match e, bytes with
  | .notStart, [b] => receiveToken b s
  | .notIdle, [b] => receiveIdle b s
  | .notAccepted, [b] => receiveDresp b s
  | .noEcho, [b0, b1, b2, b3] => receiveEcho b0 b1 b2 b3 s
  | .reservedIoctl, [code] => execIoctlCode code s
  | .stopToken, [_] => execTokenStopTran s
  | .otherBound, [_, n1, n0] => execWaitReady (n1 ++ n0) s
  | _, _ => .refused (.notAnInstruction e)

end Sys2Proof.Machine
end

