-- ==== Sys2Proof/Machine/Step.lean ====
section
/-! DEFINITION. One step: the next request is taken and run; with none, the controller waits in Idle (R18, R201). -/

namespace Sys2Proof.Machine

/-- One step. -/
def step (s : State) : Host.Outcome State Fault Refusal :=
  match s.pending with
  | [] => .next s
  | .powerCycle :: rest =>
    if s.seq = .idle then .next (State.powerCycled { s with pending := rest }) else .refused .resetDuringOperation
  | .run word buf :: rest =>
    match decode word with
    | .ok i => exec i (s.latched buf rest)
    | .error e => execUnlisted e word.bytes (s.latched buf rest)

/-- The table word `w` presented as the next request. -/
def State.withFetchWord (s : State) (nbits w : Nat) : State :=
  s.presenting (tableWord nbits w) oneBlockBuffer

end Sys2Proof.Machine
end

