-- ==== Sys2Proof/Machine/Crc.lean ====
section
/-! DEFINITION. The CRC-7 command/response validator (41_command_framer R90, R91, R93). No sequencer rule calls it: the
composer sends the three literal bytes of R51. -/

namespace Sys2Proof.Machine

/-- One data bit of the CRC-7: generator x^7 + x^3 + 1 (R90). -/
def crc7Bit (c : BitVec 7) (bit : Bool) : BitVec 7 :=
  let fb := c.getLsbD 6 ^^ bit
  let shifted := c <<< 1
  if fb then shifted ^^^ 0x09 else shifted

/-- The bits of a byte, most significant first (R33, R90). -/
def byteBits (b : Byte) : List Bool :=
  [b.getLsbD 7, b.getLsbD 6, b.getLsbD 5, b.getLsbD 4, b.getLsbD 3, b.getLsbD 2, b.getLsbD 1, b.getLsbD 0]

/-- One data byte of the CRC-7. -/
def crc7Byte (c : BitVec 7) (b : Byte) : BitVec 7 := (byteBits b).foldl crc7Bit c

/-- `crc7(bytes)`: initial value 0, no reflection, no final exclusive-or (R90). -/
def crc7 (bytes : List Byte) : BitVec 7 := bytes.foldl crc7Byte 0

/-- `frame_wellformed(f)`: `f[0][7:6] == 01` and `f[5][0] == 1` (R93). -/
def frameWellFormed (f : Frame) : Bool := f.b0.extractLsb' 6 2 == 1 && f.b5.getLsbD 0

/-- `frame_crc_ok(f)`: `f[5][7:1] == crc7(f[0..4])` (R93). -/
def frameCrcOk (f : Frame) : Bool := f.b5.extractLsb' 1 7 == crc7 [f.b0, f.b1, f.b2, f.b3, f.b4]

end Sys2Proof.Machine
end

