-- ==== Sys2Proof/Safety.lean ====
section
/-! DEFINITION. The terms in which claims about runs are made: what a link trace is made of (00_scope R8), the traces
the spec's pseudocode admits, written as a grammar beside it (40_link R85 to 43_block_transfer R153), what the
environment answers (R7), the bounds of 70_reset R211, and the invariants of 10_state R19. -/

namespace Sys2Proof.Machine

/-! Counting and bracketing. -/

/-- Is the event an exchange? -/
def Event.isExchange : Event → Bool
  | .xfer _ _ => true
  | .sel | .des => false

/-- The number of exchanges of a trace: the `X` of R211. -/
def exchanges (ev : List Event) : Nat := ev.countP Event.isExchange

/-- The bytes the environment gave in a trace, in order. -/
def received : List Event → List Byte
  | [] => []
  | .xfer _ rx :: ev => rx :: received ev
  | .sel :: ev => received ev
  | .des :: ev => received ev

/-- Chip-select after a trace: the last `SEL` or `DES` decides (R12, R80, R81). -/
def csAfter : ChipSelect → List Event → ChipSelect
  | c, [] => c
  | _, .sel :: ev => csAfter .asserted ev
  | _, .des :: ev => csAfter .deasserted ev
  | c, .xfer _ _ :: ev => csAfter c ev

/-- Does every exchange of a trace happen while chip-select is asserted (R87)? -/
def selectedThroughout : ChipSelect → List Event → Bool
  | _, [] => true
  | _, .sel :: ev => selectedThroughout .asserted ev
  | _, .des :: ev => selectedThroughout .deasserted ev
  | c, .xfer _ _ :: ev => c == .asserted && selectedThroughout c ev

/-! The environment. -/

/-- The environment's next answers are these bytes (R7): from the script, or free past its end. -/
def State.WillAnswer : State → List Byte → Prop
  | _, [] => True
  | s, b :: rest => s.nextAnswer = .byte b ∧ s.drawn.WillAnswer rest

/-- The state after the events `ev`, in everything that only depends on them: the trace, chip-select and the answers
drawn. -/
def State.after (s : State) (ev : List Event) : State :=
  { s with
    trace := s.trace ++ ev
    cs := csAfter s.cs ev
    oracle := s.oracle.drop (exchanges ev)
    draws := s.draws + exchanges ev }

/-- The same state with LINK_FAULTS false: the environment answers the same bytes, and no exchange fails (R82, R88). -/
def State.faultless (s : State) : State := { s with params := { s.params with linkFaults := false } }

/-- From `s` to `s'` the link saw exactly the events `ev`, answered by the environment of `s`. -/
structure Ran (s s' : State) (ev : List Event) : Prop where
  trace : s'.trace = s.trace ++ ev
  cs : s'.cs = csAfter s.cs ev
  oracle : s'.oracle = s.oracle.drop (exchanges ev)
  draws : s'.draws = s.draws + exchanges ev
  params : s'.params = s.params
  answers : s.WillAnswer (received ev)

/-- From `s` to `s'` the link saw exactly the events `ev`, and the exchange after them ended in `LinkFault(code)`: one
more answer was drawn and no further event recorded (R82, R88). -/
structure Aborted (s s' : State) (ev : List Event) (code : Nat) : Prop where
  trace : s'.trace = s.trace ++ ev
  cs : s'.cs = csAfter s.cs ev
  oracle : s'.oracle = s.oracle.drop (exchanges ev + 1)
  draws : s'.draws = s.draws + exchanges ev + 1
  params : s'.params = s.params
  answers : s.WillAnswer (received ev)
  failed : (s.after ev).nextAnswer = .fault code

/-! The grammar of link traces. -/

/-- Exchanges that read these bytes: each sends `FILL` (R83). -/
def reads (rxs : List Byte) : List Event := rxs.map (Event.xfer Config.fill)

/-- Exchanges that send `txs` while the card answers `rxs` (R84). -/
def writes (txs rxs : List Byte) : List Event := List.zipWith Event.xfer txs rxs

/-- `wait_ready(n)` and its value (R85). -/
inductive WaitTrace (n : Nat) : List Event → Bool → Prop
  | ready (busy : List Byte) : busy.length < n → (∀ b ∈ busy, b ≠ 0xFF) → WaitTrace n (reads (busy ++ [0xFF])) true
  | never (busy : List Byte) : busy.length = n → (∀ b ∈ busy, b ≠ 0xFF) → WaitTrace n (reads busy) false

/-- The R1 poll and the byte it returns (R97). -/
inductive R1Trace : List Event → Byte → Prop
  | valid (pending : List Byte) (r : Byte) : pending.length < 10 → (∀ b ∈ pending, b.getLsbD 7 = true) →
      r.getLsbD 7 = false → R1Trace (reads (pending ++ [r])) r
  | exhausted (pending : List Byte) (r : Byte) : pending.length = 9 → (∀ b ∈ pending, b.getLsbD 7 = true) →
      r.getLsbD 7 = true → R1Trace (reads (pending ++ [r])) r

/-- One frame and its response: steps 3 and 4 of R96. -/
inductive FrameTrace (index : BitVec 6) (arg : Word) : List Event → Byte → Prop
  | sent (dropped : List Byte) (ev : List Event) (r : Byte) : dropped.length = 6 → R1Trace ev r →
      FrameTrace index arg (writes (frameBytes index arg) dropped ++ ev) r

/-- `send_command` of a standard command: steps 2 to 4 of R96. -/
inductive StandardTrace (index : BitVec 6) (arg : Word) : List Event → Byte → Prop
  | stopTransmission (ev : List Event) (r : Byte) : index = 12 → FrameTrace index arg ev r →
      StandardTrace index arg ev r
  | sent (wait ev : List Event) (r : Byte) : index ≠ 12 → WaitTrace 500 wait true → FrameTrace index arg ev r →
      StandardTrace index arg (.des :: .sel :: (wait ++ ev)) r
  | busy (wait : List Event) : index ≠ 12 → WaitTrace 500 wait false →
      StandardTrace index arg (.des :: .sel :: wait) 0xFF

/-- `send_command` and the byte it returns (R96, R98). -/
inductive CommandTrace (cmd : Command) (arg : Word) : List Event → Byte → Prop
  | standard (ev : List Event) (r : Byte) : cmd.app = false → StandardTrace cmd.index arg ev r →
      CommandTrace cmd arg ev r
  | aborted (ev : List Event) (r : Byte) : cmd.app = true → StandardTrace 55 0 ev r → 1 < r.toNat →
      CommandTrace cmd arg ev r
  | application (prefixed ev : List Event) (r55 r : Byte) : cmd.app = true → StandardTrace 55 0 prefixed r55 →
      r55.toNat ≤ 1 → StandardTrace cmd.index arg ev r → CommandTrace cmd arg (prefixed ++ ev) r

/-- One frame of a standard command other than CMD12 attempted (R99): one DES and one SEL, then 1 to 500 reads, the six
bytes of the frame and 1 to 10 reads, 8 to 516 exchanges in all; or exactly 500 where the card stays busy. -/
structure FrameAttempt (index : BitVec 6) (arg : Word) (ev : List Event) : Prop where
  des : ev.count .des = 1
  sel : ev.count .sel = 1
  exchanges :
    (∃ wait dropped poll : List Byte,
      ev = .des :: .sel :: (reads wait ++ (writes (frameBytes index arg) dropped ++ reads poll)) ∧
      1 ≤ wait.length ∧ wait.length ≤ 500 ∧ dropped.length = 6 ∧ 1 ≤ poll.length ∧ poll.length ≤ 10 ∧
      8 ≤ exchanges ev ∧ exchanges ev ≤ 516) ∨
    ∃ wait : List Byte, ev = .des :: .sel :: reads wait ∧ exchanges ev = 500

/-- CMD12's frame (R99, R103): 7 to 16 exchanges, neither DES nor SEL. -/
structure StopAttempt (ev : List Event) : Prop where
  des : ev.count .des = 0
  sel : ev.count .sel = 0
  exchanges : 7 ≤ exchanges ev ∧ exchanges ev ≤ 16

/-- `receive_datablock(off, length)` (R140, R141) and the data it stored, none where it failed. -/
inductive BlockInTrace (length : Nat) : List Event → Option (List Byte) → Prop
  | received (k : Nat) (data : List Byte) (c0 c1 : Byte) : k < 255 → data.length = length →
      BlockInTrace length (reads (List.replicate k 0xFF ++ 0xFE :: (data ++ [c0, c1]))) (some data)
  | wrongToken (k : Nat) (tok : Byte) : k < 255 → tok ≠ 0xFF → tok ≠ 0xFE →
      BlockInTrace length (reads (List.replicate k 0xFF ++ [tok])) none
  | noToken : BlockInTrace length (reads (List.replicate 255 0xFF)) none

/-- `transmit_datablock` with the payload it reads from the buffer, and its value (R142 to R146). -/
inductive BlockOutTrace (payload : List Byte) (t : Token) : List Event → Bool → Prop
  | busy (wait : List Event) : WaitTrace 500 wait false → BlockOutTrace payload t wait false
  | stop (wait closing : List Event) (rx : Byte) (q : Bool) : t = .stopTran → WaitTrace 500 wait true →
      WaitTrace 1000 closing q → BlockOutTrace payload t (wait ++ .xfer t.byte rx :: closing) true
  | block (wait closing : List Event) (rx response : Byte) (dropped : List Byte) (q : Bool) : t ≠ .stopTran →
      WaitTrace 500 wait true → dropped.length = payload.length + 2 → WaitTrace 1000 closing q →
      BlockOutTrace payload t
        (wait ++ .xfer t.byte rx :: (writes (payload ++ [0xFF, 0xFF]) dropped ++ (reads [response] ++ closing)))
        (dataAccepted response)

/-- The loop "until response==0", at most `n` times (R125, R128). -/
inductive RetryTrace (cmd : Command) (arg : Word) : Nat → List Event → Bool → Prop
  | exhausted : RetryTrace cmd arg 0 [] false
  | ready (n : Nat) (ev : List Event) : CommandTrace cmd arg ev 0 → RetryTrace cmd arg (n + 1) ev true
  | again (n : Nat) (ev rest : List Event) (r : Byte) (ok : Bool) : CommandTrace cmd arg ev r → r ≠ 0 →
      RetryTrace cmd arg n rest ok → RetryTrace cmd arg (n + 1) (ev ++ rest) ok

/-- CMD16 at the end of either path: the type is kept on R1 = 0 and lost otherwise (R126, R129). -/
inductive LengthTrace (ct : CardType) : List Event → CardType → Prop
  | kept (ev : List Event) : CommandTrace cmd16Value 512 ev 0 → LengthTrace ct ev ct
  | lost (ev : List Event) (r : Byte) : CommandTrace cmd16Value 512 ev r → r ≠ 0 → LengthTrace ct ev .none

/-- The v2 path after the echo matched (R125, R126): rows 3 to 8 of R132. -/
inductive AdvancedTrace : List Event → CardType → Prop
  | exhausted (ev : List Event) : RetryTrace acmd41Value 0x40000000 1000 ev false → AdvancedTrace ev .none
  | noOcr (loop ev : List Event) (r : Byte) : RetryTrace acmd41Value 0x40000000 1000 loop true →
      CommandTrace cmd58Value 0 ev r → r ≠ 0 → AdvancedTrace (loop ++ ev) .none
  | classified (loop ev len : List Event) (t0 t1 t2 t3 : Byte) (ct : CardType) :
      RetryTrace acmd41Value 0x40000000 1000 loop true → CommandTrace cmd58Value 0 ev 0 →
      LengthTrace (if t0.getLsbD 6 then .sdc else .sd2) len ct →
      AdvancedTrace (loop ++ (ev ++ (reads [t0, t1, t2, t3] ++ len))) ct

/-- The legacy path (R127 to R129): rows 9 to 14 of R132. -/
inductive LegacyTrace : List Event → CardType → Prop
  | sd1Exhausted (probe loop : List Event) (r : Byte) : CommandTrace acmd41Value 0 probe r → r.toNat ≤ 1 →
      RetryTrace acmd41Value 0 1000 loop false → LegacyTrace (probe ++ loop) .none
  | sd1 (probe loop len : List Event) (r : Byte) (ct : CardType) : CommandTrace acmd41Value 0 probe r →
      r.toNat ≤ 1 → RetryTrace acmd41Value 0 1000 loop true → LengthTrace .sd1 len ct →
      LegacyTrace (probe ++ (loop ++ len)) ct
  | mmcExhausted (probe loop : List Event) (r : Byte) : CommandTrace acmd41Value 0 probe r → 1 < r.toNat →
      RetryTrace cmd1Value 0 1000 loop false → LegacyTrace (probe ++ loop) .none
  | mmc (probe loop len : List Event) (r : Byte) (ct : CardType) : CommandTrace acmd41Value 0 probe r →
      1 < r.toNat → RetryTrace cmd1Value 0 1000 loop true → LengthTrace .mmc len ct →
      LegacyTrace (probe ++ (loop ++ len)) ct

/-- Identification after the wake-up bytes (R122 to R129): the rows of R132. -/
inductive IdentifyTrace : List Event → CardType → Prop
  | noCard (ev : List Event) (r : Byte) : CommandTrace cmd0Value 0 ev r → r ≠ 1 → IdentifyTrace ev .none
  | noEcho (ev0 ev8 : List Event) (t0 t1 t2 t3 : Byte) : CommandTrace cmd0Value 0 ev0 1 →
      CommandTrace cmd8Value 0x1AA ev8 1 → ¬ (t2 = 0x01 ∧ t3 = 0xAA) →
      IdentifyTrace (ev0 ++ (ev8 ++ reads [t0, t1, t2, t3])) .none
  | advanced (ev0 ev8 ev : List Event) (t0 t1 : Byte) (ct : CardType) : CommandTrace cmd0Value 0 ev0 1 →
      CommandTrace cmd8Value 0x1AA ev8 1 → AdvancedTrace ev ct →
      IdentifyTrace (ev0 ++ (ev8 ++ (reads [t0, t1, 0x01, 0xAA] ++ ev))) ct
  | legacy (ev0 ev8 ev : List Event) (r : Byte) (ct : CardType) : CommandTrace cmd0Value 0 ev0 1 →
      CommandTrace cmd8Value 0x1AA ev8 r → r ≠ 1 → LegacyTrace ev ct → IdentifyTrace (ev0 ++ (ev8 ++ ev)) ct

/-- `disk_initialize` up to its closing Deselect (R131). -/
inductive InitializeTrace : List Event → CardType → Prop
  | woken (dropped : List Byte) (ev : List Event) (ct : CardType) : dropped.length = 10 → IdentifyTrace ev ct →
      InitializeTrace (.sel :: (writes (List.replicate 10 0xFF) dropped ++ ev)) ct

/-- The four accepted sequences, up to the closing Deselect, and the type each gives (R132 rows 6, 8, 11, 14): after the
wake-up bytes CMD0 is answered 1; on the v2 path CMD8 is answered 1 with the echo, ACMD41 reaches 0 and CMD58 is answered
0; on the legacy path the probe chooses ACMD41 or CMD1, which reaches 0; CMD16 answered 0 is last. -/
inductive AcceptedTrace : List Event → CardType → Prop
  | highCapacity (wake : List Byte) (ev0 ev8 loop ev58 ev16 : List Event) (b0 b1 t0 t1 t2 t3 : Byte) :
      wake.length = 10 → CommandTrace cmd0Value 0 ev0 1 → CommandTrace cmd8Value 0x1AA ev8 1 →
      RetryTrace acmd41Value 0x40000000 1000 loop true → CommandTrace cmd58Value 0 ev58 0 → t0.getLsbD 6 = true →
      CommandTrace cmd16Value 512 ev16 0 →
      AcceptedTrace (.sel :: (writes (List.replicate 10 0xFF) wake ++ (ev0 ++ (ev8 ++ (reads [b0, b1, 0x01, 0xAA] ++
        (loop ++ (ev58 ++ (reads [t0, t1, t2, t3] ++ ev16)))))))) .sdc
  | standardCapacity (wake : List Byte) (ev0 ev8 loop ev58 ev16 : List Event) (b0 b1 t0 t1 t2 t3 : Byte) :
      wake.length = 10 → CommandTrace cmd0Value 0 ev0 1 → CommandTrace cmd8Value 0x1AA ev8 1 →
      RetryTrace acmd41Value 0x40000000 1000 loop true → CommandTrace cmd58Value 0 ev58 0 → t0.getLsbD 6 = false →
      CommandTrace cmd16Value 512 ev16 0 →
      AcceptedTrace (.sel :: (writes (List.replicate 10 0xFF) wake ++ (ev0 ++ (ev8 ++ (reads [b0, b1, 0x01, 0xAA] ++
        (loop ++ (ev58 ++ (reads [t0, t1, t2, t3] ++ ev16)))))))) .sd2
  | legacySd (wake : List Byte) (ev0 ev8 probe loop ev16 : List Event) (r8 r : Byte) : wake.length = 10 →
      CommandTrace cmd0Value 0 ev0 1 → CommandTrace cmd8Value 0x1AA ev8 r8 → r8 ≠ 1 →
      CommandTrace acmd41Value 0 probe r → r.toNat ≤ 1 → RetryTrace acmd41Value 0 1000 loop true →
      CommandTrace cmd16Value 512 ev16 0 →
      AcceptedTrace (.sel :: (writes (List.replicate 10 0xFF) wake ++ (ev0 ++ (ev8 ++ (probe ++ (loop ++ ev16))))))
        .sd1
  | legacyMmc (wake : List Byte) (ev0 ev8 probe loop ev16 : List Event) (r8 r : Byte) : wake.length = 10 →
      CommandTrace cmd0Value 0 ev0 1 → CommandTrace cmd8Value 0x1AA ev8 r8 → r8 ≠ 1 →
      CommandTrace acmd41Value 0 probe r → 1 < r.toNat → RetryTrace cmd1Value 0 1000 loop true →
      CommandTrace cmd16Value 512 ev16 0 →
      AcceptedTrace (.sel :: (writes (List.replicate 10 0xFF) wake ++ (ev0 ++ (ev8 ++ (probe ++ (loop ++ ev16))))))
        .mmc

/-- The loop of receive_datablocks, at most `n` blocks, and the blocks stored (R150). -/
inductive BlocksInTrace : Nat → List Event → List (List Byte) → Prop
  | done : BlocksInTrace 0 [] []
  | failed (n : Nat) (ev : List Event) : BlockInTrace 512 ev none → BlocksInTrace (n + 1) ev []
  | more (n : Nat) (ev rest : List Event) (data : List Byte) (blocks : List (List Byte)) :
      BlockInTrace 512 ev (some data) → BlocksInTrace n rest blocks →
      BlocksInTrace (n + 1) (ev ++ rest) (data :: blocks)

/-- CMD17 and its data phase: the blocks stored and the outcome (R105, R150). -/
inductive SingleReadTrace (addr : Word) : List Event → List (List Byte) → Bool → Prop
  | rejected (ev : List Event) (r : Byte) : CommandTrace cmd17Value addr ev r → r ≠ 0 → SingleReadTrace addr ev [] false
  | failed (ev block : List Event) : CommandTrace cmd17Value addr ev 0 → BlockInTrace 512 block none →
      SingleReadTrace addr (ev ++ block) [] false
  | stored (ev block : List Event) (data : List Byte) : CommandTrace cmd17Value addr ev 0 →
      BlockInTrace 512 block (some data) → SingleReadTrace addr (ev ++ block) [data] true

/-- CMD18 and its data phase of at most `n` blocks, closed by CMD12 where it was opened: the blocks stored and the
outcome `done == count` (R106, R150). -/
inductive MultiReadTrace (addr : Word) (n : Nat) : List Event → List (List Byte) → Bool → Prop
  | rejected (ev : List Event) (r : Byte) : CommandTrace cmd18Value addr ev r → r ≠ 0 →
      MultiReadTrace addr n ev [] (0 == n)
  | opened (ev loop stop : List Event) (blocks : List (List Byte)) (r : Byte) : CommandTrace cmd18Value addr ev 0 →
      BlocksInTrace n loop blocks → CommandTrace cmd12Value 0 stop r →
      MultiReadTrace addr n (ev ++ (loop ++ stop)) blocks (blocks.length == n)

/-- `disk_read` of `count` blocks with the command argument `addr`, up to its closing Deselect (R150). -/
inductive ReadTrace (addr count : Word) (ev : List Event) (blocks : List (List Byte)) (ok : Bool) : Prop
  | single : count = 1 → SingleReadTrace addr ev blocks ok → ReadTrace addr count ev blocks ok
  | multi : count ≠ 1 → MultiReadTrace addr count.toNat ev blocks ok → ReadTrace addr count ev blocks ok

/-- The loop of transmit_datablocks over the blocks of the buffer, and how many were accepted (R153). -/
inductive BlocksOutTrace : List (List Byte) → List Event → Nat → Prop
  | done : BlocksOutTrace [] [] 0
  | failed (payload : List Byte) (later : List (List Byte)) (ev : List Event) :
      BlockOutTrace payload .startMultiWrite ev false → BlocksOutTrace (payload :: later) ev 0
  | more (payload : List Byte) (later : List (List Byte)) (ev rest : List Event) (k : Nat) :
      BlockOutTrace payload .startMultiWrite ev true → BlocksOutTrace later rest k →
      BlocksOutTrace (payload :: later) (ev ++ rest) (k + 1)

/-- The frames before the data of a multi-block write: ACMD23 where it is sent, whatever it answers (R107, R153). -/
inductive PreEraseTrace (count : Word) : Bool → List Event → Prop
  | skipped : PreEraseTrace count false []
  | sent (ev : List Event) (r : Byte) : CommandTrace acmd23Value count ev r → PreEraseTrace count true ev

/-- CMD24 and its data phase, and the outcome (R108, R153). -/
inductive SingleWriteTrace (addr : Word) (payload : List Byte) : List Event → Bool → Prop
  | rejected (ev : List Event) (r : Byte) : CommandTrace cmd24Value addr ev r → r ≠ 0 →
      SingleWriteTrace addr payload ev false
  | sent (ev block : List Event) (ok : Bool) : CommandTrace cmd24Value addr ev 0 →
      BlockOutTrace payload .startBlock block ok → SingleWriteTrace addr payload (ev ++ block) ok

/-- CMD25 and its data phase, closed by the stop packet where it was opened, and the outcome (R109, R153). -/
inductive MultiWriteTrace (addr : Word) (blocks : List (List Byte)) : List Event → Bool → Prop
  | rejected (ev : List Event) (r : Byte) : CommandTrace cmd25Value addr ev r → r ≠ 0 →
      MultiWriteTrace addr blocks ev false
  | opened (ev loop stop : List Event) (accepted : Nat) (stopped : Bool) : CommandTrace cmd25Value addr ev 0 →
      BlocksOutTrace blocks loop accepted → BlockOutTrace [] .stopTran stop stopped →
      MultiWriteTrace addr blocks (ev ++ (loop ++ stop)) (accepted == blocks.length && stopped)

/-- `disk_write` of the blocks of the buffer with the command argument `addr`, up to its closing Deselect; `pre` says
whether ACMD23 is sent before CMD25 (R153). -/
inductive WriteTrace (addr count : Word) (pre : Bool) (blocks : List (List Byte)) : List Event → Bool → Prop
  | single (ev : List Event) (payload : List Byte) (ok : Bool) : count = 1 → blocks = [payload] →
      SingleWriteTrace addr payload ev ok → WriteTrace addr count pre blocks ev ok
  | multi (erase ev : List Event) (ok : Bool) : count ≠ 1 → PreEraseTrace count pre erase →
      MultiWriteTrace addr blocks ev ok → WriteTrace addr count pre blocks (erase ++ ev) ok

/-! Buffers as data. -/

/-- The bytes of block `i` of the host buffer (R32). -/
def State.block (s : State) (i : Nat) : List Byte :=
  (List.range 512).map fun j => s.bufByte (i * 512 + j)

/-- The first `n` blocks of the host buffer. -/
def State.blocks (s : State) (n : Nat) : List (List Byte) := (List.range n).map s.block

/-! Frames: what an operation may change, set to a fixed value. Two states with the same blanked form agree in every
other field. -/

/-- The link alone: the answers drawn, the events, the poll counter. -/
def State.linkBlank (s : State) : State := { s with trace := [], oracle := [], draws := 0, poll := 0 }

/-- What `send_command` may change, blanked: the link and the registers `frame`, `resp`, `poll`. -/
def State.sendBlank (s : State) : State :=
  { s with cs := .deasserted, trace := [], oracle := [], draws := 0, poll := 0, frame := ⟨0, 0, 0, 0, 0, 0⟩, resp := 0 }

/-- What `receive_datablock` may change, blanked: the link, `tok`, `poll`, `byte` and the buffer's bytes. -/
def State.blockInBlank (s : State) : State :=
  { s with trace := [], oracle := [], draws := 0, poll := 0, tok := 0, byte := 0, buf := ⟨s.buf.size, []⟩ }

/-- What `transmit_datablock` may change, blanked: the link, `tok`, `poll`, `byte`, `dresp`. -/
def State.blockOutBlank (s : State) : State :=
  { s with trace := [], oracle := [], draws := 0, poll := 0, tok := 0, byte := 0, dresp := 0 }

/-- What `disk_initialize` may change before it returns, blanked. -/
def State.initBlank (s : State) : State :=
  { s.sendBlank with
    cardType := .none
    seq := .idle
    trail := ⟨0, 0, 0, 0⟩
    ty := .none
    rc := ⟨false, 0⟩
    iter := 0 }

/-- What CMD17 with its data phase may change, blanked. -/
def State.readOneBlank (s : State) : State := { s.sendBlank with tok := 0, byte := 0, buf := ⟨s.buf.size, []⟩ }

/-- What CMD18 with its data phase may change, blanked. -/
def State.readManyBlank (s : State) : State := { s.readOneBlank with done := 0 }

/-- What `disk_read` may change before it returns, blanked. -/
def State.fetchBlank (s : State) : State := { s.readManyBlank with addr := 0 }

/-- What CMD24 with its data phase may change, blanked. -/
def State.writeOneBlank (s : State) : State := { s.sendBlank with tok := 0, byte := 0, dresp := 0 }

/-- What CMD25 with its data phase may change, blanked. -/
def State.writeManyBlank (s : State) : State := { s.writeOneBlank with done := 0 }

/-- What `disk_write` may change before it returns, blanked. -/
def State.storeBlank (s : State) : State := { s.writeManyBlank with addr := 0 }

/-- What `disk_ioctl` may change before it returns, blanked. -/
def State.waitBlank (s : State) : State :=
  { s with cs := .deasserted, trace := [], oracle := [], draws := 0, poll := 0 }

/-- What sending a token may change, blanked: the link and `tok`. -/
def State.tokenBlank (s : State) : State := { s.linkBlank with tok := 0 }

/-- What CMD8 may change, blanked. -/
def State.echoBlank (s : State) : State := { s.sendBlank with trail := ⟨0, 0, 0, 0⟩ }

/-- What CMD16 may change, blanked. -/
def State.lengthBlank (s : State) : State := { s.sendBlank with ty := .none }

/-- What CMD58 may change, blanked. -/
def State.ocrBlank (s : State) : State := { s.sendBlank with trail := ⟨0, 0, 0, 0⟩, ty := .none }

/-- The record an instruction run as a row leaves, put back. -/
def State.unrecorded (s t : State) : State := { t with microResult := s.microResult }

/-- What a link fault writes (R186), put back as well. -/
def State.unfaulted (s t : State) : State :=
  { t with microResult := s.microResult, cardType := s.cardType, cs := s.cs, result := s.result, seq := s.seq }

/-- What a host operation latches and returns (R14), put back. -/
def State.unlatched (s t : State) : State :=
  { t with
    op := s.op, drive := s.drive, sector := s.sector, count := s.count, ioctlCmd := s.ioctlCmd, result := s.result }

/-! How instructions end. -/

/-- A row ran to its end: the link saw `ev`, it returned `m`, and only what `blank` blanks has changed. -/
structure RowDone (blank : State → State) (s t : State) (ev : List Event) (m : MicroResult) : Prop where
  ran : Ran s t ev
  result : t.microResult = m
  frame : blank (s.unrecorded t) = blank s

/-- A link fault was taken after the events `ev` (R186): it was drawn, no exchange followed it, Deselect is the last
event, the result is `LINK_FAULT(code)`, `CardType` is lost only by disk_initialize, the controller is Idle. -/
structure FaultTaken (s t : State) (ev : List Event) (code : Nat) : Prop where
  enabled : s.params.linkFaults = true
  answers : s.WillAnswer (received ev)
  failed : (s.after ev).nextAnswer = .fault code
  trace : t.trace = s.trace ++ (ev ++ [.des])
  cs : t.cs = .deasserted
  oracle : t.oracle = s.oracle.drop (exchanges ev + 1)
  draws : t.draws = s.draws + exchanges ev + 1
  result : t.result = .linkFault code
  seq : t.seq = .idle

/-- A row run by itself ends (log 2, log 13, log 17): with a trace and a value that `P` admits, or by a link fault. -/
def RowEnds (blank : State → State) (s t : State) (P : List Event → MicroResult → Prop) : Prop :=
  (∃ ev m, P ev m ∧ RowDone blank s t ev m) ∨
    ∃ ev code, FaultTaken s t ev code ∧ t.microResult = .linkFault code ∧
      t.cardType = (if s.seq.initializing then .none else s.cardType) ∧ blank (s.unfaulted t) = blank s

/-- A host operation ends: its trace, closed by Deselect, and its result are ones that `P` admits, or a link fault was
taken. Either way `seq` is Idle and chip-select deasserted (R185, R186). -/
def HostEnds (s t : State) (P : List Event → Result → Prop) : Prop :=
  t.seq = .idle ∧ t.cs = .deasserted ∧
    ((∃ ev r, P ev r ∧ Ran s t (ev ++ [.des]) ∧ t.result = r) ∨ ∃ ev code, FaultTaken s t ev code)

/-- Row `i` is `send_command(cmd, arg)` and nothing more. -/
def SendsOnly (i : Instr) (cmd : Command) (arg : Word) : Prop :=
  ∀ s : State, ∃ t, exec i s = .next t ∧
    RowEnds State.sendBlank s t fun ev m => ∃ r, m = .byte r ∧ CommandTrace cmd arg ev r

/-- The blocks stand in the buffer of `t` from its start on (R32, R33). -/
def Stored (t : State) (blocks : List (List Byte)) : Prop :=
  ∀ (k : Nat) (h : k < blocks.length), t.block k = blocks[k]

/-- A received byte row: the card answers `b` to the next exchange and the recognizer reads it (log 9). -/
def State.answered (s : State) (b : Byte) : State :=
  { s with draws := s.draws + 1, trace := s.trace ++ [.xfer 0xFF b] }

/-- Four trailing bytes read (log 9). -/
def State.trailed (s : State) (t0 t1 t2 t3 : Byte) : State :=
  { s with
    draws := s.draws + 4
    trace := s.trace ++ [.xfer 0xFF t0, .xfer 0xFF t1, .xfer 0xFF t2, .xfer 0xFF t3]
    trail := ⟨t0, t1, t2, t3⟩ }

/-! Bounds (R211). -/

/-- The most exchanges a host operation performs (R211). -/
def maxExchanges : HostOp → Word → Nat
  | .diskInitialize, _ => 1034590
  | .diskStatus, _ => 0
  | .diskRead, count => if count = 1 then 1285 else 532 + 769 * count.toNat
  | .diskWrite, count => if count = 1 then 2532 else 3049 + 2016 * count.toNat
  | .diskIoctl, _ => 500
  | .reserved5, _ | .reserved6, _ | .reserved7, _ => 0

/-! The host operations among the instructions. -/

/-- The host operation an instruction is (R68, R69). -/
def hostOpOf : Instr → Option HostOp
  | .diskInitialize _ => some .diskInitialize
  | .diskStatus _ => some .diskStatus
  | .diskRead _ => some .diskRead
  | .diskWrite _ => some .diskWrite
  | .diskIoctl _ | .ctrlSync => some .diskIoctl
  | .hostReserved5 _ => some .reserved5
  | .hostReserved6 _ => some .reserved6
  | .hostReserved7 _ => some .reserved7
  | .cmd0 | .cmd1 | .cmd8 | .cmd12 | .cmd16 | .cmd17 _ | .cmd18 _ | .acmd23 _ | .cmd24 _ | .cmd25 _ | .acmd41 _
  | .cmd55 | .cmd58 | .frameGeneric _ _ | .tokenStartBlock _ | .tokenStartMultiWrite | .tokenStopTran | .r1Valid _
  | .r1Pending _ | .idleReady | .drespAccepted _ | .trailCmd8Echo _ | .trailOcrCcsSet _ _ | .trailOcrCcsClear _ _
  | .select | .deselect | .xfer _ | .readByte | .writeByte _ | .waitReady _ | .sendCommand _ _
  | .receiveDatablock _ _ | .transmitDatablock _ _ => none

/-! Invariants. -/

/-- The buffers of State and of its requests are in canonical form. -/
def State.BuffersCanonical (s : State) : Prop :=
  s.buf.cells.wf ∧ ∀ word buf, Request.run word buf ∈ s.pending → buf.cells.wf

/-- What holds between any two steps: no host operation is running (R19 b), `cs` is what the trace says (R12), and the
buffers are canonical. -/
def State.Inv (s : State) : Prop :=
  s.seq = .idle ∧ s.cs = csAfter .deasserted s.trace ∧ s.BuffersCanonical

/-- A request the host can make: a host operation, or a power cycle. -/
def Request.isHosts : Request → Bool
  | .run word _ => word.fmt == .hostOp || word.fmt == .ioctl
  | .powerCycle => true

/-- What holds between the host operations of a run of host operations (R19 a, b; R87): chip-select is deasserted, no
operation is running, and every exchange so far happened while the card was selected. -/
def State.Quiescent (s : State) : Prop :=
  s.seq = .idle ∧ s.cs = .deasserted ∧ selectedThroughout .deasserted s.trace = true ∧
    csAfter .deasserted s.trace = .deasserted ∧ ∀ r ∈ s.pending, r.isHosts = true

/-! The initializer in one piece. -/

/-- `disk_initialize` as R131 writes it, in one block, without the phases of R120. -/
def initializeFlat : Link Result :=
  Link.andThen (setTy .none) (Link.andThen select
    (Link.andThen (writeBytes (List.replicate 10 0xFF))
      (Link.bind (sendCommand cmd0Value 0) fun r0 =>
        Link.andThen
          (if r0 = 1 then
            Link.bind (sendCommand cmd8Value 0x000001AA) fun r8 =>
              if r8 = 1 then
                Link.andThen readTrail (Link.reading State.trail fun t =>
                  if t.t2 = 0x01 ∧ t.t3 = 0xAA then
                    Link.bind (retryCommand (sendCommand acmd41Value 0x40000000)) fun ok =>
                      if ok then
                        Link.bind (sendCommand cmd58Value 0) fun r58 =>
                          if r58 = 0 then
                            Link.andThen readTrail (Link.reading State.trail fun o =>
                              Link.andThen (setTy (if o.t0.getLsbD 6 then .sdc else .sd2))
                                (Link.bind (sendCommand cmd16Value 512) fun r16 =>
                                  if r16 ≠ 0 then setTy .none else Link.pure ()))
                          else Link.pure ()
                      else Link.pure ()
                  else Link.pure ())
              else
                Link.bind (sendCommand acmd41Value 0) fun probe =>
                  Link.andThen
                    (if probe.toNat ≤ 1 then Link.andThen (setTy .sd1) (setRc acmd41Value)
                    else Link.andThen (setTy .mmc) (setRc cmd1Value))
                    (Link.reading State.rc fun rc =>
                      Link.bind (retryCommand (sendCommand rc 0)) fun ok =>
                        if ok then
                          Link.bind (sendCommand cmd16Value 512) fun r16 =>
                            if r16 ≠ 0 then setTy .none else Link.pure ()
                        else setTy .none)
          else Link.pure ())
          (Link.reading State.ty fun ct =>
            Link.andThen (Link.modify fun s => { s with cardType := ct })
              (Link.andThen deselect (Link.pure (if ct ≠ .none then .ok else .notReady)))))))

end Sys2Proof.Machine
end

