-- ==== Sys2Proof/Certificates/Slice0/Obligations.lean ====
section
/-! DEFINITION. The statements for the provers. Each docstring names the rule of spec/ it formalises, or the log entry of
the convention it rests on. -/

section

open Sys2Proof Sys2Proof.Machine

/-! Encoding. -/

/-- Words written out from 30_encoding (R50, R51, R54 to R62, R68, R69) decode to the instructions they stand for. The
bytes of the operand tuple are the model's layout (log 12). -/
def Obligations.SpecWordsDecode : Prop :=
  decode ⟨.frame, [0x40, 0x00, 0x00, 0x00, 0x00, 0x95]⟩ = .ok .cmd0 ∧
  decode ⟨.frame, [0x48, 0x00, 0x00, 0x01, 0xAA, 0x87]⟩ = .ok .cmd8 ∧
  decode ⟨.frame, [0x50, 0x00, 0x00, 0x02, 0x00, 0x01]⟩ = .ok .cmd16 ∧
  decode ⟨.frame, [0x52, 0x00, 0x00, 0xC8, 0x00, 0x01]⟩ = .ok (.cmd18 51200) ∧
  decode ⟨.frame, [0x57, 0x00, 0x00, 0x00, 0x03, 0x01]⟩ = .ok (.acmd23 3) ∧
  decode ⟨.frame, [0x69, 0x40, 0x00, 0x00, 0x00, 0x01]⟩ = .ok (.acmd41 true) ∧
  decode ⟨.token .toController, [0xFE]⟩ = .ok (.tokenStartBlock .toController) ∧
  decode ⟨.token .toCard, [0xFC]⟩ = .ok .tokenStartMultiWrite ∧
  decode ⟨.stopPkt, [0xFD]⟩ = .ok .tokenStopTran ∧
  decode ⟨.r1, [0x05]⟩ = .ok (.r1Valid 5) ∧
  decode ⟨.r1, [0xFF]⟩ = .ok (.r1Pending 0x7F) ∧
  decode ⟨.idle, [0xFF]⟩ = .ok .idleReady ∧
  decode ⟨.dresp, [0xE5]⟩ = .ok (.drespAccepted 7) ∧
  decode ⟨.dresp, [0x0D]⟩ = .error .notAccepted ∧
  decode ⟨.trailCmd8, [0x00, 0x00, 0x01, 0xAA]⟩ = .ok (.trailCmd8Echo 0) ∧
  decode ⟨.trailCmd58, [0xC0, 0xFF, 0x80, 0x00]⟩ = .ok (.trailOcrCcsSet 1 0x00FF8000) ∧
  decode ⟨.trailCmd58, [0x80, 0xFF, 0x80, 0x00]⟩ = .ok (.trailOcrCcsClear 1 0x00FF8000) ∧
  decode ⟨.ioctl, [0x00]⟩ = .ok .ctrlSync ∧
  decode ⟨.hostOp, [2, 0, 0, 0, 0, 100, 0, 0, 0, 3, 0]⟩ = .ok (.diskRead ⟨0, 100, 3, 0⟩)

/-- Decoding the encoding of a well-formed instruction gives it back: every operand at every value (R49 to R69). The
bytes of operand tuples are the model's layout (log 12). -/
def Obligations.DecodeOfEncode : Prop :=
  ∀ i : Instr, WellFormed i = true → decode (encode i) = .ok i

/-- Each word has one meaning: what the decoder accepts is well-formed and is the encoding of what it reads (R49 to
R69). That a frame is accepted with the sixth byte R51 gives its index only is log 10, that wait_ready is a row with the
bounds of R85 only is log 26; the bytes of operand tuples are the model's layout (log 12). -/
def Obligations.EncodeOfDecode : Prop :=
  ∀ (w : InstrWord) (i : Instr), decode w = .ok i → WellFormed i = true ∧ encode i = w

/-! The step. -/

/-- When the request presented next is a word that decodes to `i`, a step is `exec i` at the state with the request
taken and its buffer latched (R14, R170; log 2). -/
def Obligations.StepRunsDecoded : Prop :=
  ∀ (s : State) (word : InstrWord) (buf : HostBuffer) (rest : List Request) (i : Instr),
    s.pending = .run word buf :: rest → decode word = .ok i →
      step s = exec i { s with pending := rest, buf := buf }

/-- The other steps. With nothing presented the controller waits (R18, R201; log 24). A power cycle between operations
sets `CardType`, `cs` and `seq` to their reset values and empties the trace, with no link event (R200, R18), and during
one it is refused (U18). R200 leaves everything else unspecified: that each latch, transient register and `microResult`
takes the value State.reset names is the model's choice (log 5, log 13), and that the parameters, the card's answers
with their counter and the queue stay is too (log 2, log 4). A word that is no row of the table: a received byte takes its turn
of its recognizer, which does not accept it, so the token poll, wait_ready, the data response and the echo test go as
R64 says (R55, R57, R58, R60; that a received byte is a step is log 9, that its value is in `microResult` log 13); an
ioctl code alone is disk_ioctl with it (R69; log 20); the stop token may stand under TOKEN (R58) and wait_ready may be
given another bound (log 26); every other word is refused, since no rule gives it an effect (R63; log 10, log 12). -/
def Obligations.StepOtherwise : Prop :=
  (∀ s : State, s.pending = [] → step s = .next s) ∧
  (∀ (s : State) (rest : List Request), s.pending = .powerCycle :: rest → s.seq = .idle →
    step s = .next
      { State.reset with params := s.params, oracle := s.oracle, draws := s.draws, pending := rest }) ∧
  (∀ (s : State) (rest : List Request), s.pending = .powerCycle :: rest → s.seq ≠ .idle →
    step s = .refused .resetDuringOperation) ∧
  (∀ (s u : State) (word : InstrWord) (buf : HostBuffer) (rest : List Request) (e : DecodeError),
    s.pending = .run word buf :: rest → u = { s with pending := rest, buf := buf } → decode word = .error e →
    (∀ b : Byte, word = ⟨.token .toController, [b]⟩ → step s = .next { State.answered u b with
      poll := s.poll + 1, tok := b, microResult := .bool false }) ∧
    (∀ b : Byte, word = ⟨.idle, [b]⟩ → step s = .next { State.answered u b with
      poll := s.poll + 1, microResult := .bool false }) ∧
    (∀ b : Byte, word = ⟨.dresp, [b]⟩ → step s = .next { State.answered u b with
      dresp := b, microResult := .bool false }) ∧
    (∀ b0 b1 b2 b3 : Byte, word = ⟨.trailCmd8, [b0, b1, b2, b3]⟩ → step s = .next { State.trailed u b0 b1 b2 b3 with
      microResult := .bool false }) ∧
    (∀ code : Byte, word = ⟨.ioctl, [code]⟩ → step s = exec (.diskIoctl ⟨s.drive, s.sector, s.count, code⟩) u) ∧
    (word = ⟨.token .toCard, [0xFD]⟩ → step s = exec .tokenStopTran u) ∧
    (∀ n1 n0 : Byte, word = ⟨.micro .waitReady, [0xFF, n1, n0]⟩ → step s = exec (.waitReady (n1 ++ n0)) u) ∧
    (e ∉ [.notStart, .notIdle, .notAccepted, .noEcho, .reservedIoctl, .stopToken, .otherBound] →
      step s = .refused (.notAnInstruction e)))

/-- The reset values R18 gives: `CardType` None, `cs` Deasserted, `seq` Idle, the link trace empty. After reset the
controller waits in Idle for a host operation: the step is the state itself (log 24), since nothing is presented yet
(log 2) and State.reset holds the model's values elsewhere (log 5). -/
def Obligations.ResetValues : Prop :=
  State.reset.cardType = .none ∧ State.reset.cs = .deasserted ∧ State.reset.seq = .idle ∧ State.reset.trace = [] ∧
    step State.reset = .next State.reset

/-! The environment and the link primitives. -/

/-- Every received byte is the environment's (R7, R82, R88): the script's next answer; a fault only where LINK_FAULTS is
true; without LINK_FAULTS every exchange returns a byte, whatever the free values of log 3 are. -/
def Obligations.AnswersAreTheEnvironments : Prop :=
  (∀ (s : State) (b : Byte) (rest : List Answer), s.oracle = .byte b :: rest → s.nextAnswer = .byte b) ∧
  (∀ (s : State) (code : Nat) (rest : List Answer), s.oracle = .fault code :: rest → s.params.linkFaults = true →
    s.nextAnswer = .fault code) ∧
  (∀ s : State, s.params.linkFaults = false → ∃ b, s.nextAnswer = .byte b)

/-- Select and Deselect (R80, R81): `cs` and one event, from either chip-select state; no exchange. -/
def Obligations.SelectDeselectRows : Prop :=
  ∀ s : State,
    (∃ m, exec .select s = .next { s with cs := .asserted, trace := s.trace ++ [.sel], microResult := m }) ∧
    ∃ m, exec .deselect s = .next { s with cs := .deasserted, trace := s.trace ++ [.des], microResult := m }

/-- Xfer, ReadByte and WriteByte (R82, R83, R84) where the environment answers a byte: one draw, one event, the received
byte returned, or dropped by WriteByte. The returned byte is in `microResult` (the model's record, log 13). -/
def Obligations.ExchangeRows : Prop :=
  ∀ (s : State) (rx : Byte), s.nextAnswer = .byte rx →
    (∀ tx : Byte, exec (.xfer tx) s = .next { s with
      oracle := s.oracle.tail, draws := s.draws + 1, trace := s.trace ++ [.xfer tx rx], microResult := .byte rx }) ∧
    exec .readByte s = .next { s with
      oracle := s.oracle.tail, draws := s.draws + 1, trace := s.trace ++ [.xfer 0xFF rx], microResult := .byte rx } ∧
    (∀ b : Byte, exec (.writeByte b) s = .next { s with
      oracle := s.oracle.tail, draws := s.draws + 1, trace := s.trace ++ [.xfer b rx], microResult := .unit })

/-- The same rows where the environment answers a link fault (R82, R88, R186; for a row run by itself, log 17): no event
for the exchange, Deselect, the code in the result. -/
def Obligations.ExchangeFaultRows : Prop :=
  ∀ (s : State) (code : Nat), s.nextAnswer = .fault code →
    ∀ i, (i = .readByte ∨ (∃ tx, i = .xfer tx) ∨ ∃ b, i = .writeByte b) →
      exec i s = .next { s with
        oracle := s.oracle.tail
        draws := s.draws + 1
        cs := .deasserted
        trace := s.trace ++ [.des]
        cardType := if s.seq.initializing then .none else s.cardType
        result := .linkFault code
        seq := .idle
        microResult := .linkFault code }

/-- wait_ready (R85): at most `n` reads, up to the first 0xFF, counted in `poll`; only the link and `poll` change. Run
by itself it is the model's row (log 2): its value is in `microResult` (log 13), a link fault ends it (log 17). -/
def Obligations.WaitReadyRow : Prop :=
  ∀ (s : State) (n : BitVec 16), ∃ t, exec (.waitReady n) s = .next t ∧
    RowEnds State.linkBlank s t fun ev m => ∃ ok, m = .bool ok ∧ WaitTrace n.toNat ev ok ∧
      t.poll = BitVec.ofNat 10 (exchanges ev)

/-! send_command and the wire commands. -/

/-- send_command (R96, R97, R98): the trace and the value of its four steps, CMD55 first for an application command;
only the link, chip-select, `frame`, `resp` and `poll` change. Run by itself it is the model's row (log 2): its value is
in `microResult` (log 13), a link fault ends it (log 17). -/
def Obligations.SendCommandRow : Prop :=
  ∀ (s : State) (cmd : Command) (arg : Word), ∃ t, exec (.sendCommand cmd arg) s = .next t ∧
    RowEnds State.sendBlank s t fun ev m => ∃ r, m = .byte r ∧ CommandTrace cmd arg ev r

/-- The exact bounds of send_command and its use of chip-select where no link fault ends it (R99): for a standard
command other than CMD12 one frame is attempted, with one DES and one SEL; CMD12 performs 7 to 16 exchanges and neither;
an application command attempts CMD55's frame, and its own frame only where CMD55 was not fatal, 8 to 1032 exchanges in
all. The card is left selected and every exchange but CMD12's is made on a selected card. The value is in `microResult`
(log 13). -/
def Obligations.SendCommandBounds : Prop :=
  ∀ (s t : State) (cmd : Command) (arg : Word), exec (.sendCommand cmd arg) s = .next t →
    (∀ code, t.microResult ≠ .linkFault code) → ∃ ev, t.trace = s.trace ++ ev ∧
      (cmd.app = false → cmd.index ≠ 12 → FrameAttempt cmd.index arg ev) ∧
      (cmd.app = false → cmd.index = 12 → StopAttempt ev ∧ t.cs = s.cs) ∧
      (cmd.app = true → 8 ≤ exchanges ev ∧ exchanges ev ≤ 1032 ∧
        ((∃ r, t.microResult = .byte r ∧ 1 < r.toNat ∧ FrameAttempt 55 0 ev) ∨
          ∃ first second, ev = first ++ second ∧ FrameAttempt 55 0 first ∧
            (∃ r55 : Byte, r55.toNat ≤ 1 ∧ CommandTrace ⟨false, 55⟩ 0 first r55) ∧
            (cmd.index ≠ 12 → FrameAttempt cmd.index arg second) ∧ (cmd.index = 12 → StopAttempt second))) ∧
      (cmd.app = true ∨ cmd.index ≠ 12 → t.cs = .asserted ∧ selectedThroughout s.cs ev = true)

/-- CMD0, CMD1, CMD12, ACMD23, ACMD41 and CMD55 (R100, R101, R103, R107, R110, R111): each is its frame with the
argument R52 gives it, and the value send_command returns. Run by itself it is the model's row (log 2): its value is in
`microResult` (log 13), a link fault ends it (log 17). -/
def Obligations.PlainCommandRows : Prop :=
  SendsOnly .cmd0 ⟨false, 0⟩ 0 ∧ SendsOnly .cmd1 ⟨false, 1⟩ 0 ∧
  SendsOnly .cmd12 ⟨false, 12⟩ 0 ∧ SendsOnly .cmd55 ⟨false, 55⟩ 0 ∧
  (∀ count : Word, SendsOnly (.acmd23 count) ⟨true, 23⟩ count) ∧
  SendsOnly (.acmd41 true) ⟨true, 41⟩ 0x40000000 ∧ SendsOnly (.acmd41 false) ⟨true, 41⟩ 0

/-- CMD8 (R102): the four trailing bytes are read, into `trail`, where R1 is 1, and only there. Run by itself it is the
model's row (log 2): its value is in `microResult` (log 13), a link fault ends it (log 17). -/
def Obligations.Cmd8Row : Prop :=
  ∀ s : State, ∃ t, exec .cmd8 s = .next t ∧
    RowEnds State.echoBlank s t fun ev m => ∃ r, m = .byte r ∧
      ((r ≠ 1 ∧ CommandTrace ⟨false, 8⟩ 0x1AA ev r ∧ t.trail = s.trail) ∨
        ∃ sent t0 t1 t2 t3, r = 1 ∧ CommandTrace ⟨false, 8⟩ 0x1AA sent 1 ∧ ev = sent ++ reads [t0, t1, t2, t3] ∧
          t.trail = ⟨t0, t1, t2, t3⟩)

/-- CMD16 (R104): argument 512; R1 = 0 keeps the classification, any other value makes it None. Run by itself it is the
model's row (log 2): its value is in `microResult` (log 13), a link fault ends it (log 17). -/
def Obligations.Cmd16Row : Prop :=
  ∀ s : State, ∃ t, exec .cmd16 s = .next t ∧
    RowEnds State.lengthBlank s t fun ev m => ∃ r, m = .byte r ∧ CommandTrace ⟨false, 16⟩ 512 ev r ∧
      t.ty = if r = 0 then s.ty else .none

/-- CMD58 (R112): on R1 = 0 the four OCR bytes are read and the card is SDC or SD2 by bit 6 of the first; on any other
value no byte is read and no type assigned. Run by itself it is the model's row (log 2): its value is in `microResult`
(log 13), a link fault ends it (log 17). -/
def Obligations.Cmd58Row : Prop :=
  ∀ s : State, ∃ t, exec .cmd58 s = .next t ∧
    RowEnds State.ocrBlank s t fun ev m => ∃ r, m = .byte r ∧
      ((r ≠ 0 ∧ CommandTrace ⟨false, 58⟩ 0 ev r ∧ t.trail = s.trail ∧ t.ty = s.ty) ∨
        ∃ sent t0 t1 t2 t3, r = 0 ∧ CommandTrace ⟨false, 58⟩ 0 sent 0 ∧ ev = sent ++ reads [t0, t1, t2, t3] ∧
          t.trail = ⟨t0, t1, t2, t3⟩ ∧ t.ty = if t0.getLsbD 6 then .sdc else .sd2)

/-- CMD17 (R105) with its data phase, on a buffer of at least one block: the block received stands at the buffer's
start, every other byte is as before; without a whole block, a link fault included, the buffer does not change (R35). On
a shorter buffer the row faults (R30; log 7), a longer one is log 29. Run by itself it is the model's row (log 2): its
value is in `microResult` (log 13), a link fault ends it (log 17). -/
def Obligations.Cmd17Row : Prop :=
  (∀ (s : State) (arg : Word), 512 ≤ s.buf.size → ∃ t, exec (.cmd17 arg) s = .next t ∧
    (RowEnds State.readOneBlank s t fun ev m => ∃ ok blocks, m = .bool ok ∧ SingleReadTrace arg ev blocks ok ∧
      (s.buf.cells.wf → Stored t blocks) ∧
      (blocks = [] → t.buf = s.buf)) ∧
    (∀ code, t.microResult = .linkFault code → t.buf = s.buf) ∧
    ∀ a, 512 ≤ a → t.bufByte a = s.bufByte a) ∧
  (∀ (s : State) (arg : Word), s.buf.size < 512 → exec (.cmd17 arg) s = .fault .bufferRange)

/-- CMD18 (R106) with its data phase of `count` blocks and the closing CMD12: the blocks received stand in the buffer in
order, the value is `done == count`. However it ends, a link fault included, every byte from block `done` on is as
before (R35). The number of blocks is the `count` latch (log 16); on a shorter buffer the row faults (R30; log 7), a
longer one is log 29. Run by itself it is the model's row (log 2): its value is in `microResult` (log 13), a link fault
ends it (log 17). -/
def Obligations.Cmd18Row : Prop :=
  (∀ (s : State) (arg : Word), s.count.toNat * 512 ≤ s.buf.size → ∃ t, exec (.cmd18 arg) s = .next t ∧
    (RowEnds State.readManyBlank s t fun ev m => ∃ ok blocks, m = .bool ok ∧
      MultiReadTrace arg s.count.toNat ev blocks ok ∧ t.done.toNat = blocks.length ∧
      (s.buf.cells.wf → Stored t blocks)) ∧
    t.done.toNat ≤ s.count.toNat ∧ ∀ a, t.done.toNat * 512 ≤ a → t.bufByte a = s.bufByte a) ∧
  (∀ (s : State) (arg : Word), s.buf.size < s.count.toNat * 512 → exec (.cmd18 arg) s = .fault .bufferRange)

/-- CMD24 (R108) with its data phase: the packet's payload is the buffer's first block, with token 0xFE; the buffer does
not change. On a shorter buffer the row faults (R30; log 7), a longer one is log 29. Run by itself it is the model's row
(log 2): its value is in `microResult` (log 13), a link fault ends it (log 17). -/
def Obligations.Cmd24Row : Prop :=
  (∀ (s : State) (arg : Word), 512 ≤ s.buf.size → ∃ t, exec (.cmd24 arg) s = .next t ∧
    RowEnds State.writeOneBlank s t fun ev m => ∃ ok, m = .bool ok ∧ SingleWriteTrace arg (s.block 0) ev ok) ∧
  (∀ (s : State) (arg : Word), s.buf.size < 512 → exec (.cmd24 arg) s = .fault .bufferRange)

/-- CMD25 (R109) with its data phase: the buffer's `count` blocks in order, each with token 0xFC, closed by the stop
packet; the buffer does not change. The number of blocks is the `count` latch (log 16); on a shorter buffer the row
faults (R30; log 7), a longer one is log 29. Run by itself it is the model's row (log 2): its value is in `microResult`
(log 13), a link fault ends it (log 17). -/
def Obligations.Cmd25Row : Prop :=
  (∀ (s : State) (arg : Word), s.count.toNat * 512 ≤ s.buf.size → ∃ t, exec (.cmd25 arg) s = .next t ∧
    RowEnds State.writeManyBlank s t fun ev m => ∃ ok, m = .bool ok ∧
      MultiWriteTrace arg (s.blocks s.count.toNat) ev ok) ∧
  (∀ (s : State) (arg : Word), s.buf.size < s.count.toNat * 512 → exec (.cmd25 arg) s = .fault .bufferRange)

/-- The composer (R92, R50, R51): FRAME.generic writes `frame`, whose 48 bits are the start bits, the index, the
argument and a sixth byte chosen by the index alone. -/
def Obligations.ComposeFrame : Prop :=
  ∀ (s : State) (index : BitVec 6) (arg : Word), ∃ t, exec (.frameGeneric index arg) s = .next t ∧
    t = { s with frame := t.frame, microResult := t.microResult } ∧
    t.frame.bits = (1#2 ++ index ++ arg ++ (if index = 0 then 0x95#8 else if index = 8 then 0x87#8 else 0x01#8) : BitVec 48)

/-- The CRC-7 validator (R90, R91, R93): the two literals are the CRC-7 of their frames; every composed frame is
well-formed; CMD55 and CMD16 carry a byte that is not their CRC-7. -/
def Obligations.CrcValidator : Prop :=
  crc7 [0x40, 0x00, 0x00, 0x00, 0x00] = 0x4A ∧ crc7 [0x48, 0x00, 0x00, 0x01, 0xAA] = 0x43 ∧
  (∀ (index : BitVec 6) (arg : Word), frameWellFormed (composeFrame index arg) = true) ∧
  frameCrcOk (composeFrame 0 0) = true ∧ frameCrcOk (composeFrame 8 0x1AA) = true ∧
  frameCrcOk (composeFrame 55 0) = false ∧ frameCrcOk (composeFrame 16 512) = false

/-! Tokens, received bytes and packets. -/

/-- What the recognizers do with the answers that have a row (R54, R57, R58, R60, R64): R1 ends or continues its poll
and stands in `resp`; an idle byte ends wait_ready; a start token is recognized and stands in `tok`; an accepted data
response stands in `dresp`. That a received byte is a step is the model's choice (log 9), its value is in `microResult`
(log 13). -/
def Obligations.ReceivedByteRows : Prop :=
  ∀ s : State,
    (∀ status : BitVec 7, exec (.r1Valid status) s = .next { State.answered s (0#1 ++ status) with
      poll := s.poll + 1, resp := 0#1 ++ status, microResult := .bool true }) ∧
    (∀ ignored : BitVec 7, exec (.r1Pending ignored) s = .next { State.answered s (1#1 ++ ignored) with
      poll := s.poll + 1, resp := 1#1 ++ ignored, microResult := .bool false }) ∧
    exec .idleReady s = .next { State.answered s 0xFF with
      poll := s.poll + 1, microResult := .bool true } ∧
    exec (.tokenStartBlock .toController) s = .next { State.answered s 0xFE with
      poll := s.poll + 1, tok := 0xFE, microResult := .bool true } ∧
    (∀ ignored : BitVec 3, exec (.drespAccepted ignored) s = .next { State.answered s (ignored ++ 5#5) with
      dresp := ignored ++ 5#5, microResult := .bool true })

/-- The trailing bytes that have a row (R55, R56): the echo is found whatever the first two bytes are; the OCR's bit 30
classifies the card in `ty`. That received bytes are a step is the model's choice (log 9), the condition is in
`microResult` (log 13). -/
def Obligations.TrailRows : Prop :=
  ∀ s : State,
    (∀ b0 b1 : Byte, exec (.trailCmd8Echo (b0 ++ b1)) s =
      .next { State.trailed s b0 b1 0x01 0xAA with microResult := .bool true }) ∧
    (∀ (high : BitVec 1) (low : BitVec 30) (t0 t1 t2 t3 : Byte), t0 ++ t1 ++ t2 ++ t3 = high ++ 1#1 ++ low →
      exec (.trailOcrCcsSet high low) s =
        .next { State.trailed s t0 t1 t2 t3 with ty := .sdc, microResult := .bool true }) ∧
    (∀ (high : BitVec 1) (low : BitVec 30) (t0 t1 t2 t3 : Byte), t0 ++ t1 ++ t2 ++ t3 = high ++ 0#1 ++ low →
      exec (.trailOcrCcsClear high low) s =
        .next { State.trailed s t0 t1 t2 t3 with ty := .sd2, microResult := .bool false })

/-- The tokens the controller sends (R58, R61, R143): one exchange each and nothing after it. That `tok` holds the token
sent is R15 of 10_state, which R146's list of writes does not name (log 23). Run by itself it is the model's row (log
2): its value is in `microResult` (log 13), a link fault ends it (log 17). -/
def Obligations.SentTokenRows : Prop :=
  ∀ (s : State) (i : Instr) (b : Byte),
    ((i = .tokenStartBlock .toCard ∧ b = 0xFE) ∨ (i = .tokenStartMultiWrite ∧ b = 0xFC) ∨
      (i = .tokenStopTran ∧ b = 0xFD)) →
    ∃ t, exec i s = .next t ∧
      RowEnds State.tokenBlank s t fun ev m => m = .unit ∧ t.tok = b ∧ ∃ rx, ev = [.xfer b rx]

/-- receive_datablock (R140, R141), on a buffer that holds the block: the trace and the value of its pseudocode; the
data bytes stand from `off` on, a failed block stores nothing, nor does one that a link fault cuts short (R35), every
other byte is as before. Past the buffer's end it faults (R30; log 7). Run by itself it is the model's row (log 2): its
value is in `microResult` (log 13), a link fault ends it (log 17). -/
def Obligations.ReceiveDatablockRow : Prop :=
  (∀ (s : State) (off : BitVec 48) (length : BitVec 10), off.toNat + length.toNat ≤ s.buf.size →
    ∃ t, exec (.receiveDatablock off length) s = .next t ∧
      (RowEnds State.blockInBlank s t fun ev m => ∃ data, m = .bool data.isSome ∧
        BlockInTrace length.toNat ev data ∧ (data = none → t.buf = s.buf) ∧
        ∀ bytes, data = some bytes → s.buf.cells.wf →
          ∀ (j : Nat) (h : j < bytes.length), t.bufByte (off.toNat + j) = bytes[j]) ∧
      (∀ code, t.microResult = .linkFault code → t.buf = s.buf) ∧
      ∀ a, (a < off.toNat ∨ off.toNat + length.toNat ≤ a) → t.bufByte a = s.bufByte a) ∧
  (∀ (s : State) (off : BitVec 48) (length : BitVec 10), s.buf.size < off.toNat + length.toNat →
    exec (.receiveDatablock off length) s = .fault .bufferRange)

/-- transmit_datablock (R142 to R146): the trace and the value of its pseudocode, the payload being the buffer's 512
bytes from `off` on; the buffer does not change. The stop packet needs no buffer; a data packet past the buffer's end
faults (R30; log 7). Run by itself it is the model's row (log 2): its value is in `microResult` (log 13), a link fault
ends it (log 17). -/
def Obligations.TransmitDatablockRow : Prop :=
  (∀ (s : State) (off : BitVec 48) (token : Token), (token = .stopTran ∨ off.toNat + 512 ≤ s.buf.size) →
    ∃ t, exec (.transmitDatablock off token) s = .next t ∧
      RowEnds State.blockOutBlank s t fun ev m => ∃ ok, m = .bool ok ∧
        BlockOutTrace ((List.range 512).map fun j => s.bufByte (off.toNat + j)) token ev ok) ∧
  (∀ (s : State) (off : BitVec 48) (token : Token), token ≠ .stopTran → s.buf.size < off.toNat + 512 →
    exec (.transmitDatablock off token) s = .fault .bufferRange)

/-- The bounds of the packets run as rows of their own, where no link fault ends them (R141, R146, R211): 1 to 255
exchanges for a block that failed, `length + 3` to `length + 257` for one received, which is 515 to 769 for 512 bytes;
for a data packet 500 where the card stays busy and 518 to 2016 otherwise; for a stop packet 500 and not sent, or 3 to
1501 and sent. Chip-select is not touched. The value is in `microResult` (log 13). -/
def Obligations.PacketBounds : Prop :=
  (∀ (s t : State) (off : BitVec 48) (length : BitVec 10), exec (.receiveDatablock off length) s = .next t →
    (∀ code, t.microResult ≠ .linkFault code) → ∃ ev got, t.trace = s.trace ++ ev ∧ t.cs = s.cs ∧
      t.microResult = .bool got ∧ (got = false → 1 ≤ exchanges ev ∧ exchanges ev ≤ 255) ∧
      (got = true → length.toNat + 3 ≤ exchanges ev ∧ exchanges ev ≤ length.toNat + 257)) ∧
  (∀ (s t : State) (off : BitVec 48) (token : Token), exec (.transmitDatablock off token) s = .next t →
    (∀ code, t.microResult ≠ .linkFault code) → ∃ ev ok, t.trace = s.trace ++ ev ∧ t.cs = s.cs ∧
      t.microResult = .bool ok ∧
      (token ≠ .stopTran → (exchanges ev = 500 ∧ ok = false) ∨ (518 ≤ exchanges ev ∧ exchanges ev ≤ 2016)) ∧
      (token = .stopTran → (exchanges ev = 500 ∧ ok = false) ∨
        (3 ≤ exchanges ev ∧ exchanges ev ≤ 1501 ∧ ok = true)))

/-! The translator and the buffer. -/

/-- The sector-address translator (R36): unchanged on SDC, `sector * 512 mod 2^32` on every other type. -/
def Obligations.Translator : Prop :=
  (∀ sector : Word, Machine.translate .sdc sector = sector) ∧
  (∀ (ct : CardType) (sector : Word), ct ≠ .sdc → (Machine.translate ct sector).toNat = sector.toNat * 512 % 2 ^ 32) ∧
  Machine.translate .sd1 100 = 0x0000C800 ∧ Machine.translate .sdc 100 = 0x00000064

/-- Overflow in the translator (R37): on a byte-addressed card the address is the sector shifted left by 9 bits into 32,
so exactly the sectors that agree modulo 2^23 share an address, as `s` and `s + 2^23` do. -/
def Obligations.TranslatorWrap : Prop :=
  ∀ (ct : CardType) (s s' : Word), ct ≠ .sdc →
    Machine.translate ct s = s <<< 9 ∧ Machine.translate ct (s + 0x800000) = Machine.translate ct s ∧
      (Machine.translate ct s = Machine.translate ct s' ↔ s.toNat % 2 ^ 23 = s'.toNat % 2 ^ 23)

/-- BufRead and BufWrite (R9, R32): what is written at an offset is read there, every other offset and every other field
is as before, and the canonical form is kept. The canonical form is the model's (log 6). -/
def Obligations.BufferReadWrite : Prop :=
  ∀ (s : State) (off : Nat) (v : Byte), s.buf.cells.wf →
    (s.setBufByte off v).buf.cells.wf ∧ (s.setBufByte off v).bufByte off = v ∧
      (∀ a, a ≠ off → (s.setBufByte off v).bufByte a = s.bufByte a) ∧
      s.setBufByte off v = { s with buf := (s.setBufByte off v).buf } ∧
      (s.setBufByte off v).buf.size = s.buf.size

/-! The host operations. -/

/-- disk_status (R173): the pure read of the gate; beside the latches and the result nothing changes. That the latches
hold the operands after the return is log 28. -/
def Obligations.DiskStatusRow : Prop :=
  ∀ (s : State) (o : HostOperands), s.seq = .idle →
    exec (.diskStatus o) s = .next { s with
      op := .diskStatus, drive := o.drive, sector := o.sector, count := o.count, ioctlCmd := o.ioctlCmd
      result := if s.cardType = .none then .notReady else .ok }

/-- The card-present gate (R172, R175): with `CardType` None, disk_read, disk_write and disk_ioctl return NOT_READY
whatever their operands and their buffer are, with no event; the buffer and `CardType` are untouched. The latches are
loaded all the same (log 19) and keep the operands (log 28). The row of the code CTRL_SYNC is disk_ioctl with that code
(log 20). -/
def Obligations.GateRefuses : Prop :=
  ∀ (s : State) (o : HostOperands), s.seq = .idle → s.cardType = .none →
    exec (.diskRead o) s = .next { s with
      op := .diskRead, drive := o.drive, sector := o.sector, count := o.count, ioctlCmd := o.ioctlCmd
      result := .notReady } ∧
    exec (.diskWrite o) s = .next { s with
      op := .diskWrite, drive := o.drive, sector := o.sector, count := o.count, ioctlCmd := o.ioctlCmd
      result := .notReady } ∧
    exec (.diskIoctl o) s = .next { s with
      op := .diskIoctl, drive := o.drive, sector := o.sector, count := o.count, ioctlCmd := o.ioctlCmd
      result := .notReady } ∧
    exec .ctrlSync s = .next { s with op := .diskIoctl, ioctlCmd := 0, result := .notReady }

/-- The operand checks (R175, R150, R153, R160, R69): a transfer of 0 blocks and an ioctl code other than CTRL_SYNC
return PARAM_ERROR on a present card, with no event. The latches are loaded all the same (R14 of 10_state; log 19) and
keep the operands (log 28). -/
def Obligations.OperandsRefused : Prop :=
  ∀ (s : State) (o : HostOperands), s.seq = .idle → s.cardType ≠ .none →
    (o.count = 0 → exec (.diskRead o) s = .next { s with
      op := .diskRead, drive := o.drive, sector := o.sector, count := o.count, ioctlCmd := o.ioctlCmd
      result := .paramError }) ∧
    (o.count = 0 → exec (.diskWrite o) s = .next { s with
      op := .diskWrite, drive := o.drive, sector := o.sector, count := o.count, ioctlCmd := o.ioctlCmd
      result := .paramError }) ∧
    (o.ioctlCmd ≠ 0 → exec (.diskIoctl o) s = .next { s with
      op := .diskIoctl, drive := o.drive, sector := o.sector, count := o.count, ioctlCmd := o.ioctlCmd
      result := .paramError })

/-- The reserved operation codes (R68, R170): PARAM_ERROR and no link activity, on any card; beside the latches (log 19,
log 28) and the result nothing changes. -/
def Obligations.ReservedCodes : Prop :=
  ∀ (s : State) (o : HostOperands), s.seq = .idle →
    exec (.hostReserved5 o) s = .next { s with
      op := .reserved5, drive := o.drive, sector := o.sector, count := o.count, ioctlCmd := o.ioctlCmd
      result := .paramError } ∧
    exec (.hostReserved6 o) s = .next { s with
      op := .reserved6, drive := o.drive, sector := o.sector, count := o.count, ioctlCmd := o.ioctlCmd
      result := .paramError } ∧
    exec (.hostReserved7 o) s = .next { s with
      op := .reserved7, drive := o.drive, sector := o.sector, count := o.count, ioctlCmd := o.ioctlCmd
      result := .paramError }

/-- disk_ioctl(CTRL_SYNC) on a present card (R160), by its operands or by the code's own row (log 20): Select,
wait_ready(500), Deselect; OK if the card answered 0xFF, ERROR otherwise; beside the latches, the result, the link and
`poll` nothing changes. What the latches and transient registers hold after the return is log 28. -/
def Obligations.CtrlSyncRow : Prop :=
  ∀ (s : State) (o : HostOperands) (i : Instr), s.seq = .idle → s.cardType ≠ .none →
    ((i = .diskIoctl o ∧ o.ioctlCmd = 0) ∨ (i = .ctrlSync ∧ o = ⟨s.drive, s.sector, s.count, 0⟩)) →
    ∃ t, exec i s = .next t ∧
      (HostEnds s t fun ev r => ∃ wait ok, ev = .sel :: wait ∧ WaitTrace 500 wait ok ∧
        r = if ok then .ok else .error) ∧
      t.op = .diskIoctl ∧ t.drive = o.drive ∧ t.sector = o.sector ∧ t.count = o.count ∧ t.ioctlCmd = o.ioctlCmd ∧
      (s.unlatched t).waitBlank = s.waitBlank

/-- disk_read of one or more blocks into a buffer that holds them, on a present card (R150): its trace is the one its
pseudocode gives for the translated address, closed by Deselect; it is OK exactly where every block arrived; the blocks
received stand in the buffer in order, the bytes after them are as before; `CardType` and all but the latches, the
result and the transient registers it uses are unchanged. What latches and transient registers hold after the return is
log 28; a buffer longer than the transfer is log 29. -/
def Obligations.DiskReadRow : Prop :=
  ∀ (s : State) (o : HostOperands), s.seq = .idle → s.cardType ≠ .none → o.count ≠ 0 →
    o.count.toNat * 512 ≤ s.buf.size → s.buf.cells.wf →
    ∃ t, exec (.diskRead o) s = .next t ∧
      (HostEnds s t fun ev r => ∃ ok blocks, r = (if ok then .ok else .error) ∧
        ReadTrace (Machine.translate s.cardType o.sector) o.count ev blocks ok ∧ Stored t blocks ∧
        (∀ a, blocks.length * 512 ≤ a → t.bufByte a = s.bufByte a) ∧
        (ok = true ↔ blocks.length = o.count.toNat)) ∧
      t.op = .diskRead ∧ t.drive = o.drive ∧ t.sector = o.sector ∧ t.count = o.count ∧ t.ioctlCmd = o.ioctlCmd ∧
      (s.unlatched t).fetchBlank = s.fetchBlank ∧
      ∀ a, o.count.toNat * 512 ≤ a → t.bufByte a = s.bufByte a

/-- disk_write of one or more blocks from a buffer that holds them, on a present card (R153): its trace is the one its
pseudocode gives for the translated address and the buffer's blocks, ACMD23 first for more than one block on SD1, SD2
and SDC, and on MMC only with ACMD23_ON_MMC; it is closed by Deselect; neither the buffer nor `CardType` changes. What
latches and transient registers hold after the return is log 28; a buffer longer than the transfer is log 29. -/
def Obligations.DiskWriteRow : Prop :=
  ∀ (s : State) (o : HostOperands), s.seq = .idle → s.cardType ≠ .none → o.count ≠ 0 →
    o.count.toNat * 512 ≤ s.buf.size →
    ∃ t, exec (.diskWrite o) s = .next t ∧
      (HostEnds s t fun ev r => ∃ ok, r = (if ok then .ok else .error) ∧
        WriteTrace (Machine.translate s.cardType o.sector) o.count (s.cardType != .mmc || s.params.acmd23OnMmc)
          (s.blocks o.count.toNat) ev ok) ∧
      t.op = .diskWrite ∧ t.drive = o.drive ∧ t.sector = o.sector ∧ t.count = o.count ∧ t.ioctlCmd = o.ioctlCmd ∧
      (s.unlatched t).storeBlank = s.storeBlank

/-- disk_initialize, with `CardType` of any value (R131, R130): its trace is one of the decision table's (R132), closed
by Deselect; `CardType` becomes the type the trace gives, and the result is OK iff that is not None; a link fault leaves
None (R186). All but the latches, the result and the transient registers it uses is unchanged; what those hold after the
return is log 28. -/
def Obligations.DiskInitializeRow : Prop :=
  ∀ (s : State) (o : HostOperands), s.seq = .idle →
    ∃ t, exec (.diskInitialize o) s = .next t ∧
      (HostEnds s t fun ev r => ∃ ct, InitializeTrace ev ct ∧ t.cardType = ct ∧
        r = if ct = .none then .notReady else .ok) ∧
      (∀ code, t.result = .linkFault code → t.cardType = .none) ∧
      t.op = .diskInitialize ∧ t.drive = o.drive ∧ t.sector = o.sector ∧ t.count = o.count ∧
      t.ioctlCmd = o.ioctlCmd ∧ (s.unlatched t).initBlank = s.initBlank

/-- The two refused calls. A host operation presented while another is running is refused, the transfers whatever their
buffer is (R206, U1). A transfer on a present card with a buffer shorter than `count * 512` bytes is refused (R32, U6;
log 7). -/
def Obligations.CallsRefused : Prop :=
  (∀ (s : State) (i : Instr), s.seq ≠ .idle → hostOpOf i ≠ none →
    exec i s = .refused .operationRunning ∨
      (exec i s = .refused .bufferTooShort ∧ ∃ o, i = .diskRead o ∨ i = .diskWrite o)) ∧
  (∀ (s : State) (o : HostOperands), s.cardType ≠ .none → o.count ≠ 0 → s.buf.size < o.count.toNat * 512 →
    exec (.diskRead o) s = .refused .bufferTooShort ∧ exec (.diskWrite o) s = .refused .bufferTooShort)

/-! Rules of the whole machine. -/

/-- "`drive` is ignored" (R171): no value of it changes anything a host operation does but the latch that holds it. -/
def Obligations.DriveIgnored : Prop :=
  ∀ (f : HostOperands → Instr),
    (f = .diskInitialize ∨ f = .diskStatus ∨ f = .diskRead ∨ f = .diskWrite ∨ f = .diskIoctl ∨ f = .hostReserved5 ∨
      f = .hostReserved6 ∨ f = .hostReserved7) →
    ∀ (o : HostOperands) (d : Byte) (s t : State), exec (f o) s = .next t →
      exec (f { o with drive := d }) s = .next { t with drive := d }

/-- The chain of phases of R120 and the one block of R131 are the same operation, link faults included. -/
def Obligations.PhasesAreTheOperation : Prop :=
  ∀ (s : State) (o : HostOperands), s.seq = .idle →
    exec (.diskInitialize o) s =
      .next (initializeFlat { s with
        op := .diskInitialize, drive := o.drive, sector := o.sector, count := o.count, ioctlCmd := o.ioctlCmd
        seq := .reset }).settle

/-- disk_initialize "does not look at the old `CardType`" (R131, R133): it does the same from every value of it. -/
def Obligations.OldCardTypeIgnored : Prop :=
  ∀ (s : State) (o : HostOperands) (ct : CardType),
    exec (.diskInitialize o) { s with cardType := ct } = exec (.diskInitialize o) s

/-- Every host operation terminates within the bound R211 gives it, whatever the environment answers, link faults
included. -/
def Obligations.HostOperationBounds : Prop :=
  ∀ (i : Instr) (op : HostOp) (s t : State), hostOpOf i = some op → exec i s = .next t →
    ∃ ev, t.trace = s.trace ++ ev ∧ exchanges ev ≤ maxExchanges op t.count ∧
      t.draws ≤ s.draws + exchanges ev + 1

/-- The bounds of disk_initialize where no link fault ends it (R134): 18 to 1 034 590 exchanges, at most 1 034 082 where
it finds a v2 card, and 27 for an empty slot, where every byte received is 0xFF. -/
def Obligations.InitializeBounds : Prop :=
  ∀ (s t : State) (o : HostOperands), exec (.diskInitialize o) s = .next t → (∀ code, t.result ≠ .linkFault code) →
    ∃ ev, t.trace = s.trace ++ ev ∧ 18 ≤ exchanges ev ∧ exchanges ev ≤ 1034590 ∧
      (t.cardType = .sd2 ∨ t.cardType = .sdc → exchanges ev ≤ 1034082) ∧
      ((∀ b ∈ received ev, b = 0xFF) → exchanges ev = 27)

/-- Every exchange of a host operation happens while chip-select is asserted, and chip-select is deasserted when it
returns (R87, R12, R210), link faults included. -/
def Obligations.SelectedThroughout : Prop :=
  ∀ (i : Instr) (s t : State), hostOpOf i ≠ none → s.cs = .deasserted → exec i s = .next t →
    t.cs = .deasserted ∧ ∃ ev, t.trace = s.trace ++ ev ∧ selectedThroughout .deasserted ev = true ∧
      csAfter .deasserted ev = .deasserted

/-- Among instructions only disk_initialize writes `CardType` (R11): no other one, successful or failed, changes it
between two steps. The power cycle, a step and no instruction, sets it to None: StepOtherwise says so. -/
def Obligations.CardTypeWrittenByInitialize : Prop :=
  ∀ (i : Instr) (s t : State), s.seq = .idle → exec i s = .next t → (∀ o, i ≠ .diskInitialize o) →
    t.cardType = s.cardType

/-- The two operating modes (R190, R19 d, e), among instructions: the uninitialized mode is left only by a
disk_initialize that returns OK, the ready mode only by one that does not; disk_initialize returns OK iff it leaves a
card type. R190 has the ready mode left by the power cycle too, which is a step and no instruction: StepOtherwise says
what it does. -/
def Obligations.ModeChanges : Prop :=
  ∀ (i : Instr) (s t : State), s.seq = .idle → exec i s = .next t →
    ((s.cardType = .none ∧ t.cardType ≠ .none) → (∃ o, i = .diskInitialize o) ∧ t.result = .ok) ∧
    ((s.cardType ≠ .none ∧ t.cardType = .none) → (∃ o, i = .diskInitialize o) ∧ t.result ≠ .ok) ∧
    ((∃ o, i = .diskInitialize o) → (t.result = .ok ↔ t.cardType ≠ .none))

/-- Link faults (R186): a host operation either drew only bytes and returns no LINK_FAULT, or it took a link fault the
environment gave (only where LINK_FAULTS is true): no exchange after it, Deselect, the result LINK_FAULT with the code
unchanged, Idle for the next operation, `CardType` None if it is disk_initialize and unchanged otherwise. -/
def Obligations.LinkFaultAborts : Prop :=
  ∀ (i : Instr) (s t : State), hostOpOf i ≠ none → exec i s = .next t →
    ((∃ ev, Ran s t ev) ∧ ∀ code, t.result ≠ .linkFault code) ∨
      ∃ ev code, FaultTaken s t ev code ∧ ((∃ o, i = .diskInitialize o) → t.cardType = .none) ∧
        ((∀ o, i ≠ .diskInitialize o) → t.cardType = s.cardType)

/-- The events before a link fault (R185, R186): "every event before the failing one has happened exactly as on the
success path". Whatever instruction took a link fault after the events `ev`, the same instruction with LINK_FAULTS
false, from the same state and with the same card, does `ev` and goes on: `ev` begins a trace that instruction admits. -/
def Obligations.FaultsArePrefixes : Prop :=
  ∀ (i : Instr) (s t : State) (ev : List Event) (code : Nat), exec i s = .next t → FaultTaken s t ev code →
    ∃ u rest, exec i s.faultless = .next u ∧ u.trace = s.trace ++ (ev ++ rest)

/-- "With `LINK_FAULTS` false none of this exists" (R186, R88): a host operation then returns one of the four codes. -/
def Obligations.FourResultCodes : Prop :=
  ∀ (i : Instr) (s t : State), hostOpOf i ≠ none → s.params.linkFaults = false → exec i s = .next t →
    t.result = .ok ∨ t.result = .error ∨ t.result = .notReady ∨ t.result = .paramError

/-- The four accepted sequences (R132 rows 6, 8, 11, 14; R129): where disk_initialize returns OK, its trace is one of
them, with CMD16 answered 0 last, and `CardType` is the type that sequence gives: SDC or SD2 on the v2 path by the OCR,
SD1 or MMC on the legacy path, never SDC there. -/
def Obligations.AcceptedSequences : Prop :=
  ∀ (s t : State) (o : HostOperands), exec (.diskInitialize o) s = .next t → t.result = .ok →
    ∃ ev, t.trace = s.trace ++ (ev ++ [.des]) ∧ AcceptedTrace ev t.cardType

/-- A multi-block write by disk_write on a present card, where no link fault ends it (R153, R209 b): ACMD23 where it is
sent, then CMD25. A rejected CMD25 is the end, with ERROR. An accepted one is followed by the blocks of the buffer, each
accepted but for the last one sent, and always by the stop packet; the result is OK iff all blocks were accepted and the
stop packet went out. -/
def Obligations.StopPacketAlways : Prop :=
  ∀ (s t : State) (o : HostOperands), s.cardType ≠ .none → 1 < o.count.toNat → exec (.diskWrite o) s = .next t →
    (∀ code, t.result ≠ .linkFault code) →
    ∃ erase sent rest r, t.trace = s.trace ++ (erase ++ (sent ++ (rest ++ [.des]))) ∧
      PreEraseTrace o.count (s.cardType != .mmc || s.params.acmd23OnMmc) erase ∧
      CommandTrace ⟨false, 25⟩ (Machine.translate s.cardType o.sector) sent r ∧
      (r ≠ 0 → rest = [] ∧ t.result = .error) ∧
      (r = 0 → ∃ loop stop accepted stopped, rest = loop ++ stop ∧
        BlocksOutTrace (s.blocks o.count.toNat) loop accepted ∧ BlockOutTrace [] .stopTran stop stopped ∧
        t.result = if accepted = o.count.toNat ∧ stopped = true then .ok else .error)

/-- disk_read never leaves partial data (R176, R35). OK: every block of the buffer is one that arrived whole after an
accepted CMD17, or an accepted CMD18 whose transfer CMD12 closed. Any result, link faults included: the first `k` blocks
of the buffer are blocks that arrived whole, in order, after an accepted command, and every byte after them is as
before; `k` is `done` for a multi-block read, and 0 for a single-block read that is not OK.That `done` stands after the
return is log 28; a buffer longer than the transfer is log 29. -/
def Obligations.ReadStoresWholeBlocks : Prop :=
  ∀ (s t : State) (o : HostOperands), s.seq = .idle → s.buf.cells.wf → o.count.toNat * 512 ≤ s.buf.size →
    exec (.diskRead o) s = .next t →
      (t.result = .ok → s.cardType ≠ .none ∧ o.count ≠ 0 ∧
        ∃ sent loop stop, t.trace = s.trace ++ (sent ++ (loop ++ (stop ++ [.des]))) ∧
          BlocksInTrace o.count.toNat loop (t.blocks o.count.toNat) ∧
          (o.count = 1 → stop = [] ∧ CommandTrace ⟨false, 17⟩ (Machine.translate s.cardType o.sector) sent 0) ∧
          (o.count ≠ 1 → CommandTrace ⟨false, 18⟩ (Machine.translate s.cardType o.sector) sent 0 ∧
            ∃ r, CommandTrace ⟨false, 12⟩ 0 stop r)) ∧
      ∃ k sent loop rest, t.trace = s.trace ++ (sent ++ (loop ++ rest)) ∧ k ≤ o.count.toNat ∧
        BlocksInTrace k loop (t.blocks k) ∧ (∀ a, k * 512 ≤ a → t.bufByte a = s.bufByte a) ∧
        (k ≠ 0 → CommandTrace ⟨false, if o.count = 1 then 17 else 18⟩ (Machine.translate s.cardType o.sector) sent 0) ∧
        (o.count = 1 → t.result ≠ .ok → k = 0) ∧
        (o.count ≠ 1 → o.count ≠ 0 → s.cardType ≠ .none → k = t.done.toNat)

/-! Frames and invariants. -/

/-- What no instruction changes: the OPEN parameters, what the outside presents next, the size of the host buffer; and
the trace only grows, as one answer is drawn for each exchange in it, or one more for a link fault (R4, R7, R8, R41; log
4, log 9). -/
def Obligations.NothingElseMoves : Prop :=
  ∀ (i : Instr) (s t : State), exec i s = .next t →
    t.params = s.params ∧ t.pending = s.pending ∧ t.buf.size = s.buf.size ∧
      ∃ ev, t.trace = s.trace ++ ev ∧ t.cs = csAfter s.cs ev ∧
        (t.draws = s.draws + exchanges ev ∨ t.draws = s.draws + exchanges ev + 1)

/-- Only the rows that read the card store to the host buffer (R30, R153, R185): every other instruction leaves all of
it. -/
def Obligations.BufferWrittenByReads : Prop :=
  ∀ (i : Instr) (s t : State), exec i s = .next t → (∀ o, i ≠ .diskRead o) → (∀ a, i ≠ .cmd17 a) →
    (∀ a, i ≠ .cmd18 a) → (∀ off n, i ≠ .receiveDatablock off n) → t.buf = s.buf

/-- The two invariants hold at reset (R18, R19 a, b): no host operation is running, chip-select is deasserted, the trace
is empty, the buffers are in the model's canonical form (log 6). -/
def Obligations.InvariantsAtReset : Prop :=
  State.reset.Inv ∧ State.reset.Quiescent ∧ State.reset.trace = []

/-- Every step keeps the invariant (R19 b, R12; log 6): no operation is running between two steps, `cs` is what the last
SEL or DES of the trace says, the buffers keep their canonical form. -/
def Obligations.InvKept : Prop :=
  ∀ s t : State, s.Inv → step s = .next t → t.Inv

/-- Every step of a run of host operations and power cycles keeps it quiescent (R19 a, b; R87; R12): chip-select is
deasserted between them and every exchange so far was made while the card was selected. -/
def Obligations.QuiescentKept : Prop :=
  ∀ s t : State, s.Quiescent → step s = .next t → t.Quiescent

end
end

