-- ==== Sys2Proof/Laws/State.lean ====
section
/-! SUPPORT. One lemma per field of State per named update, true by rfl, so that no proof unfolds a record update. -/

namespace Sys2Proof.Machine

/-! `State.deselected` -/

@[simp] theorem State.deselected_cardType (s : State) : s.deselected.cardType = s.cardType := rfl
@[simp] theorem State.deselected_cs (s : State) : s.deselected.cs = .deasserted := rfl
@[simp] theorem State.deselected_seq (s : State) : s.deselected.seq = s.seq := rfl
@[simp] theorem State.deselected_op (s : State) : s.deselected.op = s.op := rfl
@[simp] theorem State.deselected_drive (s : State) : s.deselected.drive = s.drive := rfl
@[simp] theorem State.deselected_sector (s : State) : s.deselected.sector = s.sector := rfl
@[simp] theorem State.deselected_count (s : State) : s.deselected.count = s.count := rfl
@[simp] theorem State.deselected_ioctlCmd (s : State) : s.deselected.ioctlCmd = s.ioctlCmd := rfl
@[simp] theorem State.deselected_buf (s : State) : s.deselected.buf = s.buf := rfl
@[simp] theorem State.deselected_result (s : State) : s.deselected.result = s.result := rfl
@[simp] theorem State.deselected_frame (s : State) : s.deselected.frame = s.frame := rfl
@[simp] theorem State.deselected_resp (s : State) : s.deselected.resp = s.resp := rfl
@[simp] theorem State.deselected_trail (s : State) : s.deselected.trail = s.trail := rfl
@[simp] theorem State.deselected_ty (s : State) : s.deselected.ty = s.ty := rfl
@[simp] theorem State.deselected_rc (s : State) : s.deselected.rc = s.rc := rfl
@[simp] theorem State.deselected_addr (s : State) : s.deselected.addr = s.addr := rfl
@[simp] theorem State.deselected_poll (s : State) : s.deselected.poll = s.poll := rfl
@[simp] theorem State.deselected_iter (s : State) : s.deselected.iter = s.iter := rfl
@[simp] theorem State.deselected_done (s : State) : s.deselected.done = s.done := rfl
@[simp] theorem State.deselected_byte (s : State) : s.deselected.byte = s.byte := rfl
@[simp] theorem State.deselected_tok (s : State) : s.deselected.tok = s.tok := rfl
@[simp] theorem State.deselected_dresp (s : State) : s.deselected.dresp = s.dresp := rfl
@[simp] theorem State.deselected_trace (s : State) : s.deselected.trace = s.trace ++ [.des] := rfl
@[simp] theorem State.deselected_params (s : State) : s.deselected.params = s.params := rfl
@[simp] theorem State.deselected_oracle (s : State) : s.deselected.oracle = s.oracle := rfl
@[simp] theorem State.deselected_draws (s : State) : s.deselected.draws = s.draws := rfl
@[simp] theorem State.deselected_pending (s : State) : s.deselected.pending = s.pending := rfl
@[simp] theorem State.deselected_microResult (s : State) : s.deselected.microResult = s.microResult := rfl

/-! `State.drawn` -/

@[simp] theorem State.drawn_cardType (s : State) : s.drawn.cardType = s.cardType := rfl
@[simp] theorem State.drawn_cs (s : State) : s.drawn.cs = s.cs := rfl
@[simp] theorem State.drawn_seq (s : State) : s.drawn.seq = s.seq := rfl
@[simp] theorem State.drawn_op (s : State) : s.drawn.op = s.op := rfl
@[simp] theorem State.drawn_drive (s : State) : s.drawn.drive = s.drive := rfl
@[simp] theorem State.drawn_sector (s : State) : s.drawn.sector = s.sector := rfl
@[simp] theorem State.drawn_count (s : State) : s.drawn.count = s.count := rfl
@[simp] theorem State.drawn_ioctlCmd (s : State) : s.drawn.ioctlCmd = s.ioctlCmd := rfl
@[simp] theorem State.drawn_buf (s : State) : s.drawn.buf = s.buf := rfl
@[simp] theorem State.drawn_result (s : State) : s.drawn.result = s.result := rfl
@[simp] theorem State.drawn_frame (s : State) : s.drawn.frame = s.frame := rfl
@[simp] theorem State.drawn_resp (s : State) : s.drawn.resp = s.resp := rfl
@[simp] theorem State.drawn_trail (s : State) : s.drawn.trail = s.trail := rfl
@[simp] theorem State.drawn_ty (s : State) : s.drawn.ty = s.ty := rfl
@[simp] theorem State.drawn_rc (s : State) : s.drawn.rc = s.rc := rfl
@[simp] theorem State.drawn_addr (s : State) : s.drawn.addr = s.addr := rfl
@[simp] theorem State.drawn_poll (s : State) : s.drawn.poll = s.poll := rfl
@[simp] theorem State.drawn_iter (s : State) : s.drawn.iter = s.iter := rfl
@[simp] theorem State.drawn_done (s : State) : s.drawn.done = s.done := rfl
@[simp] theorem State.drawn_byte (s : State) : s.drawn.byte = s.byte := rfl
@[simp] theorem State.drawn_tok (s : State) : s.drawn.tok = s.tok := rfl
@[simp] theorem State.drawn_dresp (s : State) : s.drawn.dresp = s.dresp := rfl
@[simp] theorem State.drawn_trace (s : State) : s.drawn.trace = s.trace := rfl
@[simp] theorem State.drawn_params (s : State) : s.drawn.params = s.params := rfl
@[simp] theorem State.drawn_oracle (s : State) : s.drawn.oracle = s.oracle.tail := rfl
@[simp] theorem State.drawn_draws (s : State) : s.drawn.draws = s.draws + 1 := rfl
@[simp] theorem State.drawn_pending (s : State) : s.drawn.pending = s.pending := rfl
@[simp] theorem State.drawn_microResult (s : State) : s.drawn.microResult = s.microResult := rfl

/-! `State.setBufByte` -/

@[simp] theorem State.setBufByte_cardType (s : State) (off : Nat) (v : Byte) : (s.setBufByte off v).cardType = s.cardType := rfl
@[simp] theorem State.setBufByte_cs (s : State) (off : Nat) (v : Byte) : (s.setBufByte off v).cs = s.cs := rfl
@[simp] theorem State.setBufByte_seq (s : State) (off : Nat) (v : Byte) : (s.setBufByte off v).seq = s.seq := rfl
@[simp] theorem State.setBufByte_op (s : State) (off : Nat) (v : Byte) : (s.setBufByte off v).op = s.op := rfl
@[simp] theorem State.setBufByte_drive (s : State) (off : Nat) (v : Byte) : (s.setBufByte off v).drive = s.drive := rfl
@[simp] theorem State.setBufByte_sector (s : State) (off : Nat) (v : Byte) : (s.setBufByte off v).sector = s.sector := rfl
@[simp] theorem State.setBufByte_count (s : State) (off : Nat) (v : Byte) : (s.setBufByte off v).count = s.count := rfl
@[simp] theorem State.setBufByte_ioctlCmd (s : State) (off : Nat) (v : Byte) : (s.setBufByte off v).ioctlCmd = s.ioctlCmd := rfl
@[simp] theorem State.setBufByte_buf (s : State) (off : Nat) (v : Byte) : (s.setBufByte off v).buf = ⟨s.buf.size, Memory.write s.buf.cells off v⟩ := rfl
@[simp] theorem State.setBufByte_result (s : State) (off : Nat) (v : Byte) : (s.setBufByte off v).result = s.result := rfl
@[simp] theorem State.setBufByte_frame (s : State) (off : Nat) (v : Byte) : (s.setBufByte off v).frame = s.frame := rfl
@[simp] theorem State.setBufByte_resp (s : State) (off : Nat) (v : Byte) : (s.setBufByte off v).resp = s.resp := rfl
@[simp] theorem State.setBufByte_trail (s : State) (off : Nat) (v : Byte) : (s.setBufByte off v).trail = s.trail := rfl
@[simp] theorem State.setBufByte_ty (s : State) (off : Nat) (v : Byte) : (s.setBufByte off v).ty = s.ty := rfl
@[simp] theorem State.setBufByte_rc (s : State) (off : Nat) (v : Byte) : (s.setBufByte off v).rc = s.rc := rfl
@[simp] theorem State.setBufByte_addr (s : State) (off : Nat) (v : Byte) : (s.setBufByte off v).addr = s.addr := rfl
@[simp] theorem State.setBufByte_poll (s : State) (off : Nat) (v : Byte) : (s.setBufByte off v).poll = s.poll := rfl
@[simp] theorem State.setBufByte_iter (s : State) (off : Nat) (v : Byte) : (s.setBufByte off v).iter = s.iter := rfl
@[simp] theorem State.setBufByte_done (s : State) (off : Nat) (v : Byte) : (s.setBufByte off v).done = s.done := rfl
@[simp] theorem State.setBufByte_byte (s : State) (off : Nat) (v : Byte) : (s.setBufByte off v).byte = s.byte := rfl
@[simp] theorem State.setBufByte_tok (s : State) (off : Nat) (v : Byte) : (s.setBufByte off v).tok = s.tok := rfl
@[simp] theorem State.setBufByte_dresp (s : State) (off : Nat) (v : Byte) : (s.setBufByte off v).dresp = s.dresp := rfl
@[simp] theorem State.setBufByte_trace (s : State) (off : Nat) (v : Byte) : (s.setBufByte off v).trace = s.trace := rfl
@[simp] theorem State.setBufByte_params (s : State) (off : Nat) (v : Byte) : (s.setBufByte off v).params = s.params := rfl
@[simp] theorem State.setBufByte_oracle (s : State) (off : Nat) (v : Byte) : (s.setBufByte off v).oracle = s.oracle := rfl
@[simp] theorem State.setBufByte_draws (s : State) (off : Nat) (v : Byte) : (s.setBufByte off v).draws = s.draws := rfl
@[simp] theorem State.setBufByte_pending (s : State) (off : Nat) (v : Byte) : (s.setBufByte off v).pending = s.pending := rfl
@[simp] theorem State.setBufByte_microResult (s : State) (off : Nat) (v : Byte) : (s.setBufByte off v).microResult = s.microResult := rfl

/-! `State.loadOperands` -/

@[simp] theorem State.loadOperands_cardType (s : State) (op : HostOp) (o : HostOperands) : (s.loadOperands op o).cardType = s.cardType := rfl
@[simp] theorem State.loadOperands_cs (s : State) (op : HostOp) (o : HostOperands) : (s.loadOperands op o).cs = s.cs := rfl
@[simp] theorem State.loadOperands_seq (s : State) (op : HostOp) (o : HostOperands) : (s.loadOperands op o).seq = s.seq := rfl
@[simp] theorem State.loadOperands_op (s : State) (op : HostOp) (o : HostOperands) : (s.loadOperands op o).op = op := rfl
@[simp] theorem State.loadOperands_drive (s : State) (op : HostOp) (o : HostOperands) : (s.loadOperands op o).drive = o.drive := rfl
@[simp] theorem State.loadOperands_sector (s : State) (op : HostOp) (o : HostOperands) : (s.loadOperands op o).sector = o.sector := rfl
@[simp] theorem State.loadOperands_count (s : State) (op : HostOp) (o : HostOperands) : (s.loadOperands op o).count = o.count := rfl
@[simp] theorem State.loadOperands_ioctlCmd (s : State) (op : HostOp) (o : HostOperands) : (s.loadOperands op o).ioctlCmd = o.ioctlCmd := rfl
@[simp] theorem State.loadOperands_buf (s : State) (op : HostOp) (o : HostOperands) : (s.loadOperands op o).buf = s.buf := rfl
@[simp] theorem State.loadOperands_result (s : State) (op : HostOp) (o : HostOperands) : (s.loadOperands op o).result = s.result := rfl
@[simp] theorem State.loadOperands_frame (s : State) (op : HostOp) (o : HostOperands) : (s.loadOperands op o).frame = s.frame := rfl
@[simp] theorem State.loadOperands_resp (s : State) (op : HostOp) (o : HostOperands) : (s.loadOperands op o).resp = s.resp := rfl
@[simp] theorem State.loadOperands_trail (s : State) (op : HostOp) (o : HostOperands) : (s.loadOperands op o).trail = s.trail := rfl
@[simp] theorem State.loadOperands_ty (s : State) (op : HostOp) (o : HostOperands) : (s.loadOperands op o).ty = s.ty := rfl
@[simp] theorem State.loadOperands_rc (s : State) (op : HostOp) (o : HostOperands) : (s.loadOperands op o).rc = s.rc := rfl
@[simp] theorem State.loadOperands_addr (s : State) (op : HostOp) (o : HostOperands) : (s.loadOperands op o).addr = s.addr := rfl
@[simp] theorem State.loadOperands_poll (s : State) (op : HostOp) (o : HostOperands) : (s.loadOperands op o).poll = s.poll := rfl
@[simp] theorem State.loadOperands_iter (s : State) (op : HostOp) (o : HostOperands) : (s.loadOperands op o).iter = s.iter := rfl
@[simp] theorem State.loadOperands_done (s : State) (op : HostOp) (o : HostOperands) : (s.loadOperands op o).done = s.done := rfl
@[simp] theorem State.loadOperands_byte (s : State) (op : HostOp) (o : HostOperands) : (s.loadOperands op o).byte = s.byte := rfl
@[simp] theorem State.loadOperands_tok (s : State) (op : HostOp) (o : HostOperands) : (s.loadOperands op o).tok = s.tok := rfl
@[simp] theorem State.loadOperands_dresp (s : State) (op : HostOp) (o : HostOperands) : (s.loadOperands op o).dresp = s.dresp := rfl
@[simp] theorem State.loadOperands_trace (s : State) (op : HostOp) (o : HostOperands) : (s.loadOperands op o).trace = s.trace := rfl
@[simp] theorem State.loadOperands_params (s : State) (op : HostOp) (o : HostOperands) : (s.loadOperands op o).params = s.params := rfl
@[simp] theorem State.loadOperands_oracle (s : State) (op : HostOp) (o : HostOperands) : (s.loadOperands op o).oracle = s.oracle := rfl
@[simp] theorem State.loadOperands_draws (s : State) (op : HostOp) (o : HostOperands) : (s.loadOperands op o).draws = s.draws := rfl
@[simp] theorem State.loadOperands_pending (s : State) (op : HostOp) (o : HostOperands) : (s.loadOperands op o).pending = s.pending := rfl
@[simp] theorem State.loadOperands_microResult (s : State) (op : HostOp) (o : HostOperands) : (s.loadOperands op o).microResult = s.microResult := rfl

/-! `State.returned` -/

@[simp] theorem State.returned_cardType (s : State) (r : Result) : (s.returned r).cardType = s.cardType := rfl
@[simp] theorem State.returned_cs (s : State) (r : Result) : (s.returned r).cs = s.cs := rfl
@[simp] theorem State.returned_seq (s : State) (r : Result) : (s.returned r).seq = .idle := rfl
@[simp] theorem State.returned_op (s : State) (r : Result) : (s.returned r).op = s.op := rfl
@[simp] theorem State.returned_drive (s : State) (r : Result) : (s.returned r).drive = s.drive := rfl
@[simp] theorem State.returned_sector (s : State) (r : Result) : (s.returned r).sector = s.sector := rfl
@[simp] theorem State.returned_count (s : State) (r : Result) : (s.returned r).count = s.count := rfl
@[simp] theorem State.returned_ioctlCmd (s : State) (r : Result) : (s.returned r).ioctlCmd = s.ioctlCmd := rfl
@[simp] theorem State.returned_buf (s : State) (r : Result) : (s.returned r).buf = s.buf := rfl
@[simp] theorem State.returned_result (s : State) (r : Result) : (s.returned r).result = r := rfl
@[simp] theorem State.returned_frame (s : State) (r : Result) : (s.returned r).frame = s.frame := rfl
@[simp] theorem State.returned_resp (s : State) (r : Result) : (s.returned r).resp = s.resp := rfl
@[simp] theorem State.returned_trail (s : State) (r : Result) : (s.returned r).trail = s.trail := rfl
@[simp] theorem State.returned_ty (s : State) (r : Result) : (s.returned r).ty = s.ty := rfl
@[simp] theorem State.returned_rc (s : State) (r : Result) : (s.returned r).rc = s.rc := rfl
@[simp] theorem State.returned_addr (s : State) (r : Result) : (s.returned r).addr = s.addr := rfl
@[simp] theorem State.returned_poll (s : State) (r : Result) : (s.returned r).poll = s.poll := rfl
@[simp] theorem State.returned_iter (s : State) (r : Result) : (s.returned r).iter = s.iter := rfl
@[simp] theorem State.returned_done (s : State) (r : Result) : (s.returned r).done = s.done := rfl
@[simp] theorem State.returned_byte (s : State) (r : Result) : (s.returned r).byte = s.byte := rfl
@[simp] theorem State.returned_tok (s : State) (r : Result) : (s.returned r).tok = s.tok := rfl
@[simp] theorem State.returned_dresp (s : State) (r : Result) : (s.returned r).dresp = s.dresp := rfl
@[simp] theorem State.returned_trace (s : State) (r : Result) : (s.returned r).trace = s.trace := rfl
@[simp] theorem State.returned_params (s : State) (r : Result) : (s.returned r).params = s.params := rfl
@[simp] theorem State.returned_oracle (s : State) (r : Result) : (s.returned r).oracle = s.oracle := rfl
@[simp] theorem State.returned_draws (s : State) (r : Result) : (s.returned r).draws = s.draws := rfl
@[simp] theorem State.returned_pending (s : State) (r : Result) : (s.returned r).pending = s.pending := rfl
@[simp] theorem State.returned_microResult (s : State) (r : Result) : (s.returned r).microResult = s.microResult := rfl

/-! `State.takeLinkFault` -/

@[simp] theorem State.takeLinkFault_cardType (s : State) (code : Nat) : (s.takeLinkFault code).cardType = if s.seq.initializing then .none else s.cardType := rfl
@[simp] theorem State.takeLinkFault_cs (s : State) (code : Nat) : (s.takeLinkFault code).cs = .deasserted := rfl
@[simp] theorem State.takeLinkFault_seq (s : State) (code : Nat) : (s.takeLinkFault code).seq = .idle := rfl
@[simp] theorem State.takeLinkFault_op (s : State) (code : Nat) : (s.takeLinkFault code).op = s.op := rfl
@[simp] theorem State.takeLinkFault_drive (s : State) (code : Nat) : (s.takeLinkFault code).drive = s.drive := rfl
@[simp] theorem State.takeLinkFault_sector (s : State) (code : Nat) : (s.takeLinkFault code).sector = s.sector := rfl
@[simp] theorem State.takeLinkFault_count (s : State) (code : Nat) : (s.takeLinkFault code).count = s.count := rfl
@[simp] theorem State.takeLinkFault_ioctlCmd (s : State) (code : Nat) : (s.takeLinkFault code).ioctlCmd = s.ioctlCmd := rfl
@[simp] theorem State.takeLinkFault_buf (s : State) (code : Nat) : (s.takeLinkFault code).buf = s.buf := rfl
@[simp] theorem State.takeLinkFault_result (s : State) (code : Nat) : (s.takeLinkFault code).result = .linkFault code := rfl
@[simp] theorem State.takeLinkFault_frame (s : State) (code : Nat) : (s.takeLinkFault code).frame = s.frame := rfl
@[simp] theorem State.takeLinkFault_resp (s : State) (code : Nat) : (s.takeLinkFault code).resp = s.resp := rfl
@[simp] theorem State.takeLinkFault_trail (s : State) (code : Nat) : (s.takeLinkFault code).trail = s.trail := rfl
@[simp] theorem State.takeLinkFault_ty (s : State) (code : Nat) : (s.takeLinkFault code).ty = s.ty := rfl
@[simp] theorem State.takeLinkFault_rc (s : State) (code : Nat) : (s.takeLinkFault code).rc = s.rc := rfl
@[simp] theorem State.takeLinkFault_addr (s : State) (code : Nat) : (s.takeLinkFault code).addr = s.addr := rfl
@[simp] theorem State.takeLinkFault_poll (s : State) (code : Nat) : (s.takeLinkFault code).poll = s.poll := rfl
@[simp] theorem State.takeLinkFault_iter (s : State) (code : Nat) : (s.takeLinkFault code).iter = s.iter := rfl
@[simp] theorem State.takeLinkFault_done (s : State) (code : Nat) : (s.takeLinkFault code).done = s.done := rfl
@[simp] theorem State.takeLinkFault_byte (s : State) (code : Nat) : (s.takeLinkFault code).byte = s.byte := rfl
@[simp] theorem State.takeLinkFault_tok (s : State) (code : Nat) : (s.takeLinkFault code).tok = s.tok := rfl
@[simp] theorem State.takeLinkFault_dresp (s : State) (code : Nat) : (s.takeLinkFault code).dresp = s.dresp := rfl
@[simp] theorem State.takeLinkFault_trace (s : State) (code : Nat) : (s.takeLinkFault code).trace = s.trace ++ [.des] := rfl
@[simp] theorem State.takeLinkFault_params (s : State) (code : Nat) : (s.takeLinkFault code).params = s.params := rfl
@[simp] theorem State.takeLinkFault_oracle (s : State) (code : Nat) : (s.takeLinkFault code).oracle = s.oracle := rfl
@[simp] theorem State.takeLinkFault_draws (s : State) (code : Nat) : (s.takeLinkFault code).draws = s.draws := rfl
@[simp] theorem State.takeLinkFault_pending (s : State) (code : Nat) : (s.takeLinkFault code).pending = s.pending := rfl
@[simp] theorem State.takeLinkFault_microResult (s : State) (code : Nat) : (s.takeLinkFault code).microResult = s.microResult := rfl

/-! `State.answering` -/

@[simp] theorem State.answering_cardType (s : State) (bytes : List Byte) : (s.answering bytes).cardType = s.cardType := rfl
@[simp] theorem State.answering_cs (s : State) (bytes : List Byte) : (s.answering bytes).cs = s.cs := rfl
@[simp] theorem State.answering_seq (s : State) (bytes : List Byte) : (s.answering bytes).seq = s.seq := rfl
@[simp] theorem State.answering_op (s : State) (bytes : List Byte) : (s.answering bytes).op = s.op := rfl
@[simp] theorem State.answering_drive (s : State) (bytes : List Byte) : (s.answering bytes).drive = s.drive := rfl
@[simp] theorem State.answering_sector (s : State) (bytes : List Byte) : (s.answering bytes).sector = s.sector := rfl
@[simp] theorem State.answering_count (s : State) (bytes : List Byte) : (s.answering bytes).count = s.count := rfl
@[simp] theorem State.answering_ioctlCmd (s : State) (bytes : List Byte) : (s.answering bytes).ioctlCmd = s.ioctlCmd := rfl
@[simp] theorem State.answering_buf (s : State) (bytes : List Byte) : (s.answering bytes).buf = s.buf := rfl
@[simp] theorem State.answering_result (s : State) (bytes : List Byte) : (s.answering bytes).result = s.result := rfl
@[simp] theorem State.answering_frame (s : State) (bytes : List Byte) : (s.answering bytes).frame = s.frame := rfl
@[simp] theorem State.answering_resp (s : State) (bytes : List Byte) : (s.answering bytes).resp = s.resp := rfl
@[simp] theorem State.answering_trail (s : State) (bytes : List Byte) : (s.answering bytes).trail = s.trail := rfl
@[simp] theorem State.answering_ty (s : State) (bytes : List Byte) : (s.answering bytes).ty = s.ty := rfl
@[simp] theorem State.answering_rc (s : State) (bytes : List Byte) : (s.answering bytes).rc = s.rc := rfl
@[simp] theorem State.answering_addr (s : State) (bytes : List Byte) : (s.answering bytes).addr = s.addr := rfl
@[simp] theorem State.answering_poll (s : State) (bytes : List Byte) : (s.answering bytes).poll = s.poll := rfl
@[simp] theorem State.answering_iter (s : State) (bytes : List Byte) : (s.answering bytes).iter = s.iter := rfl
@[simp] theorem State.answering_done (s : State) (bytes : List Byte) : (s.answering bytes).done = s.done := rfl
@[simp] theorem State.answering_byte (s : State) (bytes : List Byte) : (s.answering bytes).byte = s.byte := rfl
@[simp] theorem State.answering_tok (s : State) (bytes : List Byte) : (s.answering bytes).tok = s.tok := rfl
@[simp] theorem State.answering_dresp (s : State) (bytes : List Byte) : (s.answering bytes).dresp = s.dresp := rfl
@[simp] theorem State.answering_trace (s : State) (bytes : List Byte) : (s.answering bytes).trace = s.trace := rfl
@[simp] theorem State.answering_params (s : State) (bytes : List Byte) : (s.answering bytes).params = s.params := rfl
@[simp] theorem State.answering_oracle (s : State) (bytes : List Byte) : (s.answering bytes).oracle = bytes.map Answer.byte ++ s.oracle := rfl
@[simp] theorem State.answering_draws (s : State) (bytes : List Byte) : (s.answering bytes).draws = s.draws := rfl
@[simp] theorem State.answering_pending (s : State) (bytes : List Byte) : (s.answering bytes).pending = s.pending := rfl
@[simp] theorem State.answering_microResult (s : State) (bytes : List Byte) : (s.answering bytes).microResult = s.microResult := rfl

/-! `State.latched` -/

@[simp] theorem State.latched_cardType (s : State) (buf : HostBuffer) (rest : List Request) : (s.latched buf rest).cardType = s.cardType := rfl
@[simp] theorem State.latched_cs (s : State) (buf : HostBuffer) (rest : List Request) : (s.latched buf rest).cs = s.cs := rfl
@[simp] theorem State.latched_seq (s : State) (buf : HostBuffer) (rest : List Request) : (s.latched buf rest).seq = s.seq := rfl
@[simp] theorem State.latched_op (s : State) (buf : HostBuffer) (rest : List Request) : (s.latched buf rest).op = s.op := rfl
@[simp] theorem State.latched_drive (s : State) (buf : HostBuffer) (rest : List Request) : (s.latched buf rest).drive = s.drive := rfl
@[simp] theorem State.latched_sector (s : State) (buf : HostBuffer) (rest : List Request) : (s.latched buf rest).sector = s.sector := rfl
@[simp] theorem State.latched_count (s : State) (buf : HostBuffer) (rest : List Request) : (s.latched buf rest).count = s.count := rfl
@[simp] theorem State.latched_ioctlCmd (s : State) (buf : HostBuffer) (rest : List Request) : (s.latched buf rest).ioctlCmd = s.ioctlCmd := rfl
@[simp] theorem State.latched_buf (s : State) (buf : HostBuffer) (rest : List Request) : (s.latched buf rest).buf = buf := rfl
@[simp] theorem State.latched_result (s : State) (buf : HostBuffer) (rest : List Request) : (s.latched buf rest).result = s.result := rfl
@[simp] theorem State.latched_frame (s : State) (buf : HostBuffer) (rest : List Request) : (s.latched buf rest).frame = s.frame := rfl
@[simp] theorem State.latched_resp (s : State) (buf : HostBuffer) (rest : List Request) : (s.latched buf rest).resp = s.resp := rfl
@[simp] theorem State.latched_trail (s : State) (buf : HostBuffer) (rest : List Request) : (s.latched buf rest).trail = s.trail := rfl
@[simp] theorem State.latched_ty (s : State) (buf : HostBuffer) (rest : List Request) : (s.latched buf rest).ty = s.ty := rfl
@[simp] theorem State.latched_rc (s : State) (buf : HostBuffer) (rest : List Request) : (s.latched buf rest).rc = s.rc := rfl
@[simp] theorem State.latched_addr (s : State) (buf : HostBuffer) (rest : List Request) : (s.latched buf rest).addr = s.addr := rfl
@[simp] theorem State.latched_poll (s : State) (buf : HostBuffer) (rest : List Request) : (s.latched buf rest).poll = s.poll := rfl
@[simp] theorem State.latched_iter (s : State) (buf : HostBuffer) (rest : List Request) : (s.latched buf rest).iter = s.iter := rfl
@[simp] theorem State.latched_done (s : State) (buf : HostBuffer) (rest : List Request) : (s.latched buf rest).done = s.done := rfl
@[simp] theorem State.latched_byte (s : State) (buf : HostBuffer) (rest : List Request) : (s.latched buf rest).byte = s.byte := rfl
@[simp] theorem State.latched_tok (s : State) (buf : HostBuffer) (rest : List Request) : (s.latched buf rest).tok = s.tok := rfl
@[simp] theorem State.latched_dresp (s : State) (buf : HostBuffer) (rest : List Request) : (s.latched buf rest).dresp = s.dresp := rfl
@[simp] theorem State.latched_trace (s : State) (buf : HostBuffer) (rest : List Request) : (s.latched buf rest).trace = s.trace := rfl
@[simp] theorem State.latched_params (s : State) (buf : HostBuffer) (rest : List Request) : (s.latched buf rest).params = s.params := rfl
@[simp] theorem State.latched_oracle (s : State) (buf : HostBuffer) (rest : List Request) : (s.latched buf rest).oracle = s.oracle := rfl
@[simp] theorem State.latched_draws (s : State) (buf : HostBuffer) (rest : List Request) : (s.latched buf rest).draws = s.draws := rfl
@[simp] theorem State.latched_pending (s : State) (buf : HostBuffer) (rest : List Request) : (s.latched buf rest).pending = rest := rfl
@[simp] theorem State.latched_microResult (s : State) (buf : HostBuffer) (rest : List Request) : (s.latched buf rest).microResult = s.microResult := rfl

/-! `State.presenting` -/

@[simp] theorem State.presenting_cardType (s : State) (word : InstrWord) (buf : HostBuffer) : (s.presenting word buf).cardType = s.cardType := rfl
@[simp] theorem State.presenting_cs (s : State) (word : InstrWord) (buf : HostBuffer) : (s.presenting word buf).cs = s.cs := rfl
@[simp] theorem State.presenting_seq (s : State) (word : InstrWord) (buf : HostBuffer) : (s.presenting word buf).seq = s.seq := rfl
@[simp] theorem State.presenting_op (s : State) (word : InstrWord) (buf : HostBuffer) : (s.presenting word buf).op = s.op := rfl
@[simp] theorem State.presenting_drive (s : State) (word : InstrWord) (buf : HostBuffer) : (s.presenting word buf).drive = s.drive := rfl
@[simp] theorem State.presenting_sector (s : State) (word : InstrWord) (buf : HostBuffer) : (s.presenting word buf).sector = s.sector := rfl
@[simp] theorem State.presenting_count (s : State) (word : InstrWord) (buf : HostBuffer) : (s.presenting word buf).count = s.count := rfl
@[simp] theorem State.presenting_ioctlCmd (s : State) (word : InstrWord) (buf : HostBuffer) : (s.presenting word buf).ioctlCmd = s.ioctlCmd := rfl
@[simp] theorem State.presenting_buf (s : State) (word : InstrWord) (buf : HostBuffer) : (s.presenting word buf).buf = s.buf := rfl
@[simp] theorem State.presenting_result (s : State) (word : InstrWord) (buf : HostBuffer) : (s.presenting word buf).result = s.result := rfl
@[simp] theorem State.presenting_frame (s : State) (word : InstrWord) (buf : HostBuffer) : (s.presenting word buf).frame = s.frame := rfl
@[simp] theorem State.presenting_resp (s : State) (word : InstrWord) (buf : HostBuffer) : (s.presenting word buf).resp = s.resp := rfl
@[simp] theorem State.presenting_trail (s : State) (word : InstrWord) (buf : HostBuffer) : (s.presenting word buf).trail = s.trail := rfl
@[simp] theorem State.presenting_ty (s : State) (word : InstrWord) (buf : HostBuffer) : (s.presenting word buf).ty = s.ty := rfl
@[simp] theorem State.presenting_rc (s : State) (word : InstrWord) (buf : HostBuffer) : (s.presenting word buf).rc = s.rc := rfl
@[simp] theorem State.presenting_addr (s : State) (word : InstrWord) (buf : HostBuffer) : (s.presenting word buf).addr = s.addr := rfl
@[simp] theorem State.presenting_poll (s : State) (word : InstrWord) (buf : HostBuffer) : (s.presenting word buf).poll = s.poll := rfl
@[simp] theorem State.presenting_iter (s : State) (word : InstrWord) (buf : HostBuffer) : (s.presenting word buf).iter = s.iter := rfl
@[simp] theorem State.presenting_done (s : State) (word : InstrWord) (buf : HostBuffer) : (s.presenting word buf).done = s.done := rfl
@[simp] theorem State.presenting_byte (s : State) (word : InstrWord) (buf : HostBuffer) : (s.presenting word buf).byte = s.byte := rfl
@[simp] theorem State.presenting_tok (s : State) (word : InstrWord) (buf : HostBuffer) : (s.presenting word buf).tok = s.tok := rfl
@[simp] theorem State.presenting_dresp (s : State) (word : InstrWord) (buf : HostBuffer) : (s.presenting word buf).dresp = s.dresp := rfl
@[simp] theorem State.presenting_trace (s : State) (word : InstrWord) (buf : HostBuffer) : (s.presenting word buf).trace = s.trace := rfl
@[simp] theorem State.presenting_params (s : State) (word : InstrWord) (buf : HostBuffer) : (s.presenting word buf).params = s.params := rfl
@[simp] theorem State.presenting_oracle (s : State) (word : InstrWord) (buf : HostBuffer) : (s.presenting word buf).oracle = s.oracle := rfl
@[simp] theorem State.presenting_draws (s : State) (word : InstrWord) (buf : HostBuffer) : (s.presenting word buf).draws = s.draws := rfl
@[simp] theorem State.presenting_pending (s : State) (word : InstrWord) (buf : HostBuffer) : (s.presenting word buf).pending = .run word buf :: s.pending := rfl
@[simp] theorem State.presenting_microResult (s : State) (word : InstrWord) (buf : HostBuffer) : (s.presenting word buf).microResult = s.microResult := rfl

/-! `State.after` -/

@[simp] theorem State.after_cardType (s : State) (ev : List Event) : (s.after ev).cardType = s.cardType := rfl
@[simp] theorem State.after_cs (s : State) (ev : List Event) : (s.after ev).cs = csAfter s.cs ev := rfl
@[simp] theorem State.after_seq (s : State) (ev : List Event) : (s.after ev).seq = s.seq := rfl
@[simp] theorem State.after_op (s : State) (ev : List Event) : (s.after ev).op = s.op := rfl
@[simp] theorem State.after_drive (s : State) (ev : List Event) : (s.after ev).drive = s.drive := rfl
@[simp] theorem State.after_sector (s : State) (ev : List Event) : (s.after ev).sector = s.sector := rfl
@[simp] theorem State.after_count (s : State) (ev : List Event) : (s.after ev).count = s.count := rfl
@[simp] theorem State.after_ioctlCmd (s : State) (ev : List Event) : (s.after ev).ioctlCmd = s.ioctlCmd := rfl
@[simp] theorem State.after_buf (s : State) (ev : List Event) : (s.after ev).buf = s.buf := rfl
@[simp] theorem State.after_result (s : State) (ev : List Event) : (s.after ev).result = s.result := rfl
@[simp] theorem State.after_frame (s : State) (ev : List Event) : (s.after ev).frame = s.frame := rfl
@[simp] theorem State.after_resp (s : State) (ev : List Event) : (s.after ev).resp = s.resp := rfl
@[simp] theorem State.after_trail (s : State) (ev : List Event) : (s.after ev).trail = s.trail := rfl
@[simp] theorem State.after_ty (s : State) (ev : List Event) : (s.after ev).ty = s.ty := rfl
@[simp] theorem State.after_rc (s : State) (ev : List Event) : (s.after ev).rc = s.rc := rfl
@[simp] theorem State.after_addr (s : State) (ev : List Event) : (s.after ev).addr = s.addr := rfl
@[simp] theorem State.after_poll (s : State) (ev : List Event) : (s.after ev).poll = s.poll := rfl
@[simp] theorem State.after_iter (s : State) (ev : List Event) : (s.after ev).iter = s.iter := rfl
@[simp] theorem State.after_done (s : State) (ev : List Event) : (s.after ev).done = s.done := rfl
@[simp] theorem State.after_byte (s : State) (ev : List Event) : (s.after ev).byte = s.byte := rfl
@[simp] theorem State.after_tok (s : State) (ev : List Event) : (s.after ev).tok = s.tok := rfl
@[simp] theorem State.after_dresp (s : State) (ev : List Event) : (s.after ev).dresp = s.dresp := rfl
@[simp] theorem State.after_trace (s : State) (ev : List Event) : (s.after ev).trace = s.trace ++ ev := rfl
@[simp] theorem State.after_params (s : State) (ev : List Event) : (s.after ev).params = s.params := rfl
@[simp] theorem State.after_oracle (s : State) (ev : List Event) : (s.after ev).oracle = s.oracle.drop (exchanges ev) := rfl
@[simp] theorem State.after_draws (s : State) (ev : List Event) : (s.after ev).draws = s.draws + exchanges ev := rfl
@[simp] theorem State.after_pending (s : State) (ev : List Event) : (s.after ev).pending = s.pending := rfl
@[simp] theorem State.after_microResult (s : State) (ev : List Event) : (s.after ev).microResult = s.microResult := rfl

/-! `State.powerCycled` -/

@[simp] theorem State.powerCycled_cardType (s : State) : s.powerCycled.cardType = State.reset.cardType := rfl
@[simp] theorem State.powerCycled_cs (s : State) : s.powerCycled.cs = State.reset.cs := rfl
@[simp] theorem State.powerCycled_seq (s : State) : s.powerCycled.seq = State.reset.seq := rfl
@[simp] theorem State.powerCycled_op (s : State) : s.powerCycled.op = State.reset.op := rfl
@[simp] theorem State.powerCycled_drive (s : State) : s.powerCycled.drive = State.reset.drive := rfl
@[simp] theorem State.powerCycled_sector (s : State) : s.powerCycled.sector = State.reset.sector := rfl
@[simp] theorem State.powerCycled_count (s : State) : s.powerCycled.count = State.reset.count := rfl
@[simp] theorem State.powerCycled_ioctlCmd (s : State) : s.powerCycled.ioctlCmd = State.reset.ioctlCmd := rfl
@[simp] theorem State.powerCycled_buf (s : State) : s.powerCycled.buf = State.reset.buf := rfl
@[simp] theorem State.powerCycled_result (s : State) : s.powerCycled.result = State.reset.result := rfl
@[simp] theorem State.powerCycled_frame (s : State) : s.powerCycled.frame = State.reset.frame := rfl
@[simp] theorem State.powerCycled_resp (s : State) : s.powerCycled.resp = State.reset.resp := rfl
@[simp] theorem State.powerCycled_trail (s : State) : s.powerCycled.trail = State.reset.trail := rfl
@[simp] theorem State.powerCycled_ty (s : State) : s.powerCycled.ty = State.reset.ty := rfl
@[simp] theorem State.powerCycled_rc (s : State) : s.powerCycled.rc = State.reset.rc := rfl
@[simp] theorem State.powerCycled_addr (s : State) : s.powerCycled.addr = State.reset.addr := rfl
@[simp] theorem State.powerCycled_poll (s : State) : s.powerCycled.poll = State.reset.poll := rfl
@[simp] theorem State.powerCycled_iter (s : State) : s.powerCycled.iter = State.reset.iter := rfl
@[simp] theorem State.powerCycled_done (s : State) : s.powerCycled.done = State.reset.done := rfl
@[simp] theorem State.powerCycled_byte (s : State) : s.powerCycled.byte = State.reset.byte := rfl
@[simp] theorem State.powerCycled_tok (s : State) : s.powerCycled.tok = State.reset.tok := rfl
@[simp] theorem State.powerCycled_dresp (s : State) : s.powerCycled.dresp = State.reset.dresp := rfl
@[simp] theorem State.powerCycled_trace (s : State) : s.powerCycled.trace = State.reset.trace := rfl
@[simp] theorem State.powerCycled_params (s : State) : s.powerCycled.params = s.params := rfl
@[simp] theorem State.powerCycled_oracle (s : State) : s.powerCycled.oracle = s.oracle := rfl
@[simp] theorem State.powerCycled_draws (s : State) : s.powerCycled.draws = s.draws := rfl
@[simp] theorem State.powerCycled_pending (s : State) : s.powerCycled.pending = s.pending := rfl
@[simp] theorem State.powerCycled_microResult (s : State) : s.powerCycled.microResult = State.reset.microResult := rfl

end Sys2Proof.Machine
end

