-- ==== Sys2Proof/Laws/Link.lean ====
section
/-! SUPPORT. How to reason about link computations: what holds of every way a computation ends (`Link.wp`), one rule per
connective, so that no proof unfolds them. -/

namespace Sys2Proof.Machine

variable {α β : Type}

/-- `Q` holds where `m` ends with a value from `s`, `F` where it is unwound by a link fault. -/
def Link.wp (m : Link α) (Q : α → State → Prop) (F : Nat → State → Prop) (s : State) : Prop :=
  match m s with
  | .ok a s' => Q a s'
  | .fault c s' => F c s'

theorem Link.wp_pure (a : α) (Q : α → State → Prop) (F : Nat → State → Prop) (s : State) :
    (Link.pure a).wp Q F s ↔ Q a s := Iff.rfl

theorem Link.wp_modify (f : State → State) (Q : Unit → State → Prop) (F : Nat → State → Prop) (s : State) :
    (Link.modify f).wp Q F s ↔ Q () (f s) := Iff.rfl

theorem Link.wp_reading (f : State → α) (k : α → Link β) (Q : β → State → Prop) (F : Nat → State → Prop)
    (s : State) : (Link.reading f k).wp Q F s ↔ (k (f s)).wp Q F s := Iff.rfl

theorem Link.wp_bind (m : Link α) (f : α → Link β) (Q : β → State → Prop) (F : Nat → State → Prop) (s : State) :
    (Link.bind m f).wp Q F s ↔ m.wp (fun a s' => (f a).wp Q F s') F s := by
  simp only [Link.wp, Link.bind]
  cases m s <;> rfl

theorem Link.wp_andThen (m : Link α) (k : Link β) (Q : β → State → Prop) (F : Nat → State → Prop) (s : State) :
    (Link.andThen m k).wp Q F s ↔ m.wp (fun _ s' => k.wp Q F s') F s := Link.wp_bind m _ Q F s

theorem Link.wp_mono {m : Link α} {Q Q' : α → State → Prop} {F F' : Nat → State → Prop} {s : State}
    (h : m.wp Q F s) (hQ : ∀ a s', Q a s' → Q' a s') (hF : ∀ c s', F c s' → F' c s') : m.wp Q' F' s := by
  unfold Link.wp at *
  cases hm : m s with
  | ok a s' => rw [hm] at h; exact hQ a s' h
  | fault c s' => rw [hm] at h; exact hF c s' h

/-- The rule for one exchange. -/
theorem xfer_wp (tx : Byte) (Q : Byte → State → Prop) (F : Nat → State → Prop) (s : State) :
    (xfer tx).wp Q F s ↔
      (∀ rx, s.nextAnswer = .byte rx → Q rx { s.drawn with trace := s.trace ++ [.xfer tx rx] }) ∧
        (∀ c, s.nextAnswer = .fault c → F c s.drawn) := by
  unfold Link.wp xfer
  cases s.nextAnswer <;> simp

/-! What every run keeps: a relation between the states a computation starts and ends in, however it ends. -/

/-- `R` relates every start of `m` with its end. -/
def Link.Keeps (R : State → State → Prop) (m : Link α) : Prop := ∀ s, R s (m s).state

/-- A relation that composes. -/
structure Composes (R : State → State → Prop) : Prop where
  refl : ∀ s, R s s
  trans : ∀ s t u, R s t → R t u → R s u

theorem Link.Keeps.pure {R : State → State → Prop} (hR : Composes R) (a : α) : (Link.pure a).Keeps R :=
  fun s => hR.refl s

theorem Link.Keeps.modify {R : State → State → Prop} {f : State → State} (h : ∀ s, R s (f s)) :
    (Link.modify f).Keeps R := h

theorem Link.Keeps.reading {R : State → State → Prop} {f : State → α} {k : α → Link β} (h : ∀ a, (k a).Keeps R) :
    (Link.reading f k).Keeps R := fun s => h (f s) s

theorem Link.Keeps.bind {R : State → State → Prop} (hR : Composes R) {m : Link α} {f : α → Link β}
    (hm : m.Keeps R) (hf : ∀ a, (f a).Keeps R) : (Link.bind m f).Keeps R := by
  intro s
  have hs := hm s
  simp only [Link.bind]
  cases h : m s with
  | ok a s' => rw [h] at hs; exact hR.trans s s' _ hs (hf a s')
  | fault c s' => rw [h] at hs; exact hs

theorem Link.Keeps.andThen {R : State → State → Prop} (hR : Composes R) {m : Link α} {k : Link β}
    (hm : m.Keeps R) (hk : k.Keeps R) : (Link.andThen m k).Keeps R := Link.Keeps.bind hR hm fun _ => hk

end Sys2Proof.Machine
end

