-- ==== Sys2Proof/Laws/Trace.lean ====
section
/-! SUPPORT. The laws of link traces and of the environment's answers. -/

namespace Sys2Proof.Machine

/-! Traces. -/

@[simp] theorem exchanges_nil : exchanges [] = 0 := rfl
@[simp] theorem exchanges_sel (ev : List Event) : exchanges (.sel :: ev) = exchanges ev := by
  simp [exchanges, Event.isExchange]
@[simp] theorem exchanges_des (ev : List Event) : exchanges (.des :: ev) = exchanges ev := by
  simp [exchanges, Event.isExchange]
@[simp] theorem exchanges_xfer (tx rx : Byte) (ev : List Event) :
    exchanges (.xfer tx rx :: ev) = exchanges ev + 1 := by
  simp [exchanges, List.countP_cons, Event.isExchange]
@[simp] theorem exchanges_append (e1 e2 : List Event) : exchanges (e1 ++ e2) = exchanges e1 + exchanges e2 := by
  simp [exchanges, List.countP_append]

@[simp] theorem received_append (e1 e2 : List Event) : received (e1 ++ e2) = received e1 ++ received e2 := by
  induction e1 with
  | nil => rfl
  | cons e rest ih => cases e <;> simp [received, ih]

theorem received_length (ev : List Event) : (received ev).length = exchanges ev := by
  induction ev with
  | nil => rfl
  | cons e rest ih => cases e <;> simp [received, ih]

@[simp] theorem csAfter_append (c : ChipSelect) (e1 e2 : List Event) :
    csAfter c (e1 ++ e2) = csAfter (csAfter c e1) e2 := by
  induction e1 generalizing c with
  | nil => rfl
  | cons e rest ih => cases e <;> simp [csAfter, ih]

@[simp] theorem selectedThroughout_append (c : ChipSelect) (e1 e2 : List Event) :
    selectedThroughout c (e1 ++ e2) = (selectedThroughout c e1 && selectedThroughout (csAfter c e1) e2) := by
  induction e1 generalizing c with
  | nil => simp [selectedThroughout, csAfter]
  | cons e rest ih => cases e <;> simp [selectedThroughout, csAfter, ih, Bool.and_assoc]

/-! Reads and writes. -/

@[simp] theorem reads_nil : reads [] = [] := rfl
@[simp] theorem reads_cons (b : Byte) (bs : List Byte) : reads (b :: bs) = .xfer Config.fill b :: reads bs := rfl
@[simp] theorem reads_append (a b : List Byte) : reads (a ++ b) = reads a ++ reads b := by simp [reads]
@[simp] theorem exchanges_reads (bs : List Byte) : exchanges (reads bs) = bs.length := by
  induction bs with
  | nil => rfl
  | cons b rest ih => simp [ih]
@[simp] theorem received_reads (bs : List Byte) : received (reads bs) = bs := by
  induction bs with
  | nil => rfl
  | cons b rest ih => simp [received, ih]
@[simp] theorem csAfter_reads (c : ChipSelect) (bs : List Byte) : csAfter c (reads bs) = c := by
  induction bs with
  | nil => rfl
  | cons b rest ih => simp [csAfter, ih]

@[simp] theorem writes_nil (rxs : List Byte) : writes [] rxs = [] := rfl
@[simp] theorem writes_cons (tx rx : Byte) (txs rxs : List Byte) :
    writes (tx :: txs) (rx :: rxs) = .xfer tx rx :: writes txs rxs := rfl
theorem exchanges_writes {txs rxs : List Byte} (h : rxs.length = txs.length) :
    exchanges (writes txs rxs) = txs.length := by
  induction txs generalizing rxs with
  | nil => rfl
  | cons t rest ih =>
    cases rxs with
    | nil => simp at h
    | cons r rs => simp [ih (by simpa using h)]
theorem received_writes {txs rxs : List Byte} (h : rxs.length = txs.length) : received (writes txs rxs) = rxs := by
  induction txs generalizing rxs with
  | nil => cases rxs with
    | nil => rfl
    | cons r rs => simp at h
  | cons t rest ih =>
    cases rxs with
    | nil => simp at h
    | cons r rs => simp [received, ih (by simpa using h)]
@[simp] theorem csAfter_writes (c : ChipSelect) (txs rxs : List Byte) : csAfter c (writes txs rxs) = c := by
  induction txs generalizing rxs with
  | nil => rfl
  | cons t rest ih => cases rxs with
    | nil => rfl
    | cons r rs => simp [csAfter, ih]
theorem writes_append {a b ra rb : List Byte} (h : ra.length = a.length) :
    writes (a ++ b) (ra ++ rb) = writes a ra ++ writes b rb := by
  simp [writes, List.zipWith_append h.symm]

/-! The environment. -/

/-- What the environment answers next depends on the parameters, the script and the draws only. -/
theorem State.nextAnswer_congr {s t : State} (hp : s.params = t.params) (ho : s.oracle = t.oracle)
    (hd : s.draws = t.draws) : s.nextAnswer = t.nextAnswer := by
  simp only [State.nextAnswer, State.freeAnswer, hp, ho, hd]

theorem State.WillAnswer_congr {s t : State} {bs : List Byte} (hp : s.params = t.params)
    (ho : s.oracle = t.oracle) (hd : s.draws = t.draws) : s.WillAnswer bs ↔ t.WillAnswer bs := by
  induction bs generalizing s t with
  | nil => exact Iff.rfl
  | cons b rest ih =>
    simp only [State.WillAnswer]
    rw [State.nextAnswer_congr hp ho hd, ih (s := s.drawn) (t := t.drawn) (by simpa) (by simp [ho]) (by simp [hd])]

/-- A script that begins with these bytes answers them. -/
theorem State.WillAnswer_script {s : State} {bs : List Byte} {rest : List Answer}
    (h : s.oracle = bs.map Answer.byte ++ rest) : s.WillAnswer bs := by
  induction bs generalizing s with
  | nil => trivial
  | cons b bs ih => exact ⟨by simp [State.nextAnswer, h], ih (by simp [h])⟩

/-- Without link faults an exchange "always returns a byte" (R88). -/
theorem State.nextAnswer_byte {s : State} (h : s.params.linkFaults = false) : ∃ b, s.nextAnswer = .byte b := by
  simp only [State.nextAnswer, State.freeAnswer, h]
  split <;> simp

@[simp] theorem State.after_nil (s : State) : s.after [] = s := by
  cases s
  simp [State.after, csAfter]

theorem State.after_after (s : State) (e1 e2 : List Event) : (s.after e1).after e2 = s.after (e1 ++ e2) := by
  simp [State.after, List.drop_drop, Nat.add_assoc]

/-- The answers after a trace are those that follow it. -/
theorem State.WillAnswer_append {s t : State} {a b : List Byte} (hp : t.params = s.params)
    (ho : t.oracle = s.oracle.drop a.length) (hd : t.draws = s.draws + a.length) :
    s.WillAnswer (a ++ b) ↔ s.WillAnswer a ∧ t.WillAnswer b := by
  induction a generalizing s with
  | nil => simpa [State.WillAnswer] using State.WillAnswer_congr hp.symm (by simpa using ho.symm) (by simpa using hd.symm)
  | cons x rest ih =>
    simp only [List.cons_append, State.WillAnswer, and_assoc]
    rw [ih (s := s.drawn) (by simpa using hp) (by rw [ho]; simp) (by rw [hd]; simp; omega)]

/-! Runs: what a computation did to the link. -/

theorem Ran.nil {s s' : State} (ht : s'.trace = s.trace) (hc : s'.cs = s.cs) (ho : s'.oracle = s.oracle)
    (hd : s'.draws = s.draws) (hp : s'.params = s.params) : Ran s s' [] :=
  ⟨by simpa, by simpa [csAfter], by simpa, by simpa, hp, trivial⟩

theorem Ran.refl (s : State) : Ran s s [] := Ran.nil rfl rfl rfl rfl rfl

theorem Ran.trans {s t u : State} {e1 e2 : List Event} (h1 : Ran s t e1) (h2 : Ran t u e2) :
    Ran s u (e1 ++ e2) where
  trace := by rw [h2.trace, h1.trace, List.append_assoc]
  cs := by rw [h2.cs, h1.cs, csAfter_append]
  oracle := by rw [h2.oracle, h1.oracle, List.drop_drop, exchanges_append]
  draws := by rw [h2.draws, h1.draws, exchanges_append]; omega
  params := by rw [h2.params, h1.params]
  answers := by
    rw [received_append, State.WillAnswer_append (t := t) h1.params]
    · exact ⟨h1.answers, h2.answers⟩
    · rw [h1.oracle, received_length]
    · rw [h1.draws, received_length]

/-- Registers written after a run do not undo it. -/
theorem Ran.of_eq {s t u : State} {ev : List Event} (h : Ran s t ev) (ht : u.trace = t.trace) (hc : u.cs = t.cs)
    (ho : u.oracle = t.oracle) (hd : u.draws = t.draws) (hp : u.params = t.params) : Ran s u ev := by
  simpa using h.trans (Ran.nil ht hc ho hd hp)

/-- Registers written before a run do not change it. -/
theorem Ran.of_start {s t u : State} {ev : List Event} (h : Ran t u ev) (ht : t.trace = s.trace) (hc : t.cs = s.cs)
    (ho : t.oracle = s.oracle) (hd : t.draws = s.draws) (hp : t.params = s.params) : Ran s u ev := by
  simpa using (Ran.nil ht hc ho hd hp).trans h

theorem Ran.sel (s : State) : Ran s { s with cs := .asserted, trace := s.trace ++ [.sel] } [.sel] :=
  ⟨rfl, rfl, by simp, by simp, rfl, trivial⟩

theorem Ran.des (s : State) : Ran s s.deselected [.des] :=
  ⟨rfl, rfl, by simp, by simp, rfl, trivial⟩

theorem Ran.xfer {s : State} {tx rx : Byte} (h : s.nextAnswer = .byte rx) :
    Ran s { s.drawn with trace := s.trace ++ [.xfer tx rx] } [.xfer tx rx] :=
  ⟨rfl, rfl, by simp, by simp, rfl, ⟨h, trivial⟩⟩

/-- The answers still to come, after a run that used the first ones. -/
theorem Ran.willAnswer {s s' : State} {ev : List Event} {b : List Byte} (h : Ran s s' ev)
    (hs : s.WillAnswer (received ev ++ b)) : s'.WillAnswer b :=
  ((State.WillAnswer_append h.params (by rw [h.oracle, received_length])
    (by rw [h.draws, received_length])).mp hs).2

end Sys2Proof.Machine
end

