-- ==== Sys2Proof/Laws/Ops.lean ====
section
/-! SUPPORT. What each shared operation can do, said once: if it ends with a value, then the link saw a trace of the
grammar of Safety.lean that gives this value. Callers cite these lemmas and never unfold the operation. -/

namespace Sys2Proof.Machine

/-- Nothing is claimed where a link fault unwinds. -/
def anyFault : Nat → State → Prop := fun _ _ => True

/-- Where `m` ends with a value, the link saw a trace of `T` for that value. -/
def Link.Sound {α : Type} (m : Link α) (T : List Event → α → Prop) : Prop :=
  ∀ s, m.wp (fun a s' => ∃ ev, T ev a ∧ Ran s s' ev) anyFault s

theorem Link.Sound.mono {α : Type} {m : Link α} {T T' : List Event → α → Prop} (h : m.Sound T)
    (hT : ∀ ev a, T ev a → T' ev a) : m.Sound T' := fun s =>
  Link.wp_mono (h s) (fun a _ ⟨ev, ht, hr⟩ => ⟨ev, hT ev a ht, hr⟩) fun _ _ h => h

theorem Link.Sound.pure {α : Type} {T : List Event → α → Prop} {a : α} (h : T [] a) : (Link.pure a).Sound T :=
  fun s => ⟨[], h, Ran.refl s⟩

theorem Link.Sound.bind {α β : Type} {m : Link α} {f : α → Link β} {T : List Event → α → Prop}
    {U : List Event → β → Prop} (hm : m.Sound T)
    (hf : ∀ a e1, T e1 a → (f a).Sound fun e2 b => U (e1 ++ e2) b) : (Link.bind m f).Sound U := by
  intro s
  rw [Link.wp_bind]
  refine Link.wp_mono (hm s) ?_ fun _ _ h => h
  rintro a s1 ⟨e1, h1, r1⟩
  refine Link.wp_mono (hf a e1 h1 s1) ?_ fun _ _ h => h
  rintro b s2 ⟨e2, h2, r2⟩
  exact ⟨e1 ++ e2, h2, r1.trans r2⟩

theorem Link.Sound.andThen {α β : Type} {m : Link α} {k : Link β} {T : List Event → α → Prop}
    {U : List Event → β → Prop} (hm : m.Sound T)
    (hk : ∀ a e1, T e1 a → k.Sound fun e2 b => U (e1 ++ e2) b) : (Link.andThen m k).Sound U :=
  Link.Sound.bind hm hk

theorem Link.Sound.reading {α β : Type} {f : State → α} {k : α → Link β} {T : List Event → β → Prop}
    (h : ∀ a, (k a).Sound T) : (Link.reading f k).Sound T := fun s => h (f s) s

/-- A write of registers the link does not see. -/
theorem Link.Sound.silent {f : State → State} (ht : ∀ s, (f s).trace = s.trace) (hc : ∀ s, (f s).cs = s.cs)
    (ho : ∀ s, (f s).oracle = s.oracle) (hd : ∀ s, (f s).draws = s.draws) (hp : ∀ s, (f s).params = s.params) :
    (Link.modify f).Sound fun ev _ => ev = [] :=
  fun s => ⟨[], rfl, Ran.nil (ht s) (hc s) (ho s) (hd s) (hp s)⟩

/-- A register write first leaves the trace to what follows. -/
theorem Link.Sound.afterSilent {α β : Type} {m : Link α} {k : Link β} {U : List Event → β → Prop}
    (hm : m.Sound fun ev _ => ev = []) (hk : k.Sound U) : (Link.andThen m k).Sound U :=
  Link.Sound.andThen hm fun _ e1 h1 => by
    subst h1
    simpa using hk

/-! Register writes are silent. -/

theorem setSeq_silent (q : Seq) : (setSeq q).Sound fun ev _ => ev = [] :=
  Link.Sound.silent (fun _ => rfl) (fun _ => rfl) (fun _ => rfl) (fun _ => rfl) fun _ => rfl
theorem setTy_silent (ct : CardType) : (setTy ct).Sound fun ev _ => ev = [] :=
  Link.Sound.silent (fun _ => rfl) (fun _ => rfl) (fun _ => rfl) (fun _ => rfl) fun _ => rfl
theorem setRc_silent (c : Command) : (setRc c).Sound fun ev _ => ev = [] :=
  Link.Sound.silent (fun _ => rfl) (fun _ => rfl) (fun _ => rfl) (fun _ => rfl) fun _ => rfl
theorem setFrame_silent (f : Frame) : (setFrame f).Sound fun ev _ => ev = [] :=
  Link.Sound.silent (fun _ => rfl) (fun _ => rfl) (fun _ => rfl) (fun _ => rfl) fun _ => rfl
theorem setResp_silent (b : Byte) : (setResp b).Sound fun ev _ => ev = [] :=
  Link.Sound.silent (fun _ => rfl) (fun _ => rfl) (fun _ => rfl) (fun _ => rfl) fun _ => rfl
theorem setTrailByte_silent (k : Nat) (b : Byte) : (setTrailByte k b).Sound fun ev _ => ev = [] :=
  Link.Sound.silent (fun _ => rfl) (fun _ => rfl) (fun _ => rfl) (fun _ => rfl) fun _ => rfl
theorem setTok_silent (b : Byte) : (setTok b).Sound fun ev _ => ev = [] :=
  Link.Sound.silent (fun _ => rfl) (fun _ => rfl) (fun _ => rfl) (fun _ => rfl) fun _ => rfl
theorem setDresp_silent (b : Byte) : (setDresp b).Sound fun ev _ => ev = [] :=
  Link.Sound.silent (fun _ => rfl) (fun _ => rfl) (fun _ => rfl) (fun _ => rfl) fun _ => rfl
theorem setDone_silent (n : BitVec 32) : (setDone n).Sound fun ev _ => ev = [] :=
  Link.Sound.silent (fun _ => rfl) (fun _ => rfl) (fun _ => rfl) (fun _ => rfl) fun _ => rfl
theorem setByteIndex_silent (n : Nat) : (setByteIndex n).Sound fun ev _ => ev = [] :=
  Link.Sound.silent (fun _ => rfl) (fun _ => rfl) (fun _ => rfl) (fun _ => rfl) fun _ => rfl
theorem startPoll_silent : startPoll.Sound fun ev _ => ev = [] :=
  Link.Sound.silent (fun _ => rfl) (fun _ => rfl) (fun _ => rfl) (fun _ => rfl) fun _ => rfl
theorem countPoll_silent : countPoll.Sound fun ev _ => ev = [] :=
  Link.Sound.silent (fun _ => rfl) (fun _ => rfl) (fun _ => rfl) (fun _ => rfl) fun _ => rfl
theorem startIter_silent : startIter.Sound fun ev _ => ev = [] :=
  Link.Sound.silent (fun _ => rfl) (fun _ => rfl) (fun _ => rfl) (fun _ => rfl) fun _ => rfl
theorem countIter_silent : countIter.Sound fun ev _ => ev = [] :=
  Link.Sound.silent (fun _ => rfl) (fun _ => rfl) (fun _ => rfl) (fun _ => rfl) fun _ => rfl
theorem translateSector_silent : translateSector.Sound fun ev _ => ev = [] :=
  Link.Sound.silent (fun _ => rfl) (fun _ => rfl) (fun _ => rfl) (fun _ => rfl) fun _ => rfl

/-! The primitives. -/

theorem select_sound : select.Sound fun ev _ => ev = [.sel] := fun s => ⟨[.sel], rfl, Ran.sel s⟩

theorem deselect_sound : deselect.Sound fun ev _ => ev = [.des] := fun s => ⟨[.des], rfl, Ran.des s⟩

theorem xfer_sound (tx : Byte) : (xfer tx).Sound fun ev rx => ev = [.xfer tx rx] := by
  intro s
  rw [xfer_wp]
  exact ⟨fun rx h => ⟨_, rfl, Ran.xfer h⟩, fun _ _ => trivial⟩

theorem readByte_sound : readByte.Sound fun ev rx => ev = reads [rx] := xfer_sound Config.fill

theorem writeByte_sound (b : Byte) : (writeByte b).Sound fun ev _ => ∃ rx, ev = [.xfer b rx] :=
  Link.Sound.andThen (xfer_sound b) fun rx e1 h1 => Link.Sound.pure ⟨rx, by simpa using h1⟩

theorem writeBytes_sound (txs : List Byte) :
    (writeBytes txs).Sound fun ev _ => ∃ rxs : List Byte, rxs.length = txs.length ∧ ev = writes txs rxs := by
  induction txs with
  | nil => exact Link.Sound.pure ⟨[], rfl, rfl⟩
  | cons t rest ih =>
    refine Link.Sound.andThen (writeByte_sound t) ?_
    rintro _ _ ⟨rx, rfl⟩
    refine ih.mono ?_
    rintro _ _ ⟨rxs, hlen, rfl⟩
    exact ⟨rx :: rxs, by simp [hlen], rfl⟩

/-! wait_ready (R85). -/

theorem idlePoll_sound : idlePoll.Sound fun ev ready => ∃ b, ev = reads [b] ∧ ready = isIdle b :=
  Link.Sound.afterSilent countPoll_silent
    (Link.Sound.bind readByte_sound fun b e1 h1 => Link.Sound.pure ⟨b, by simpa using h1, rfl⟩)

theorem idlePolls_sound (n : Nat) : (idlePolls n).Sound (WaitTrace n) := by
  induction n with
  | zero => exact Link.Sound.pure (.never [] rfl (by simp))
  | succ n ih =>
    refine Link.Sound.bind idlePoll_sound ?_
    rintro ready _ ⟨b, rfl, rfl⟩
    by_cases hb : b = 0xFF
    · simp only [isIdle, hb, beq_self_eq_true, if_true]
      exact Link.Sound.pure (.ready [] (by simp) (by simp))
    · simp only [isIdle, beq_eq_false_iff_ne.mpr hb, Bool.false_eq_true, if_false]
      refine ih.mono ?_
      rintro _ _ (⟨busy, hlen, hbusy⟩ | ⟨busy, hlen, hbusy⟩)
      · rw [← reads_append]
        exact .ready (b :: busy) (by simp [hlen]) (List.forall_mem_cons.mpr ⟨hb, hbusy⟩)
      · rw [← reads_append]
        exact .never (b :: busy) (by simp [hlen]) (List.forall_mem_cons.mpr ⟨hb, hbusy⟩)

theorem waitReady_sound (n : Nat) : (waitReady n).Sound (WaitTrace n) :=
  Link.Sound.afterSilent startPoll_silent (idlePolls_sound n)

/-- One more poll for each answer drawn. -/
def PollsCount (s t : State) : Prop := t.poll + BitVec.ofNat 10 s.draws = s.poll + BitVec.ofNat 10 t.draws

theorem pollsCount_composes : Composes PollsCount where
  refl _ := rfl
  trans s t u h1 h2 := by unfold PollsCount at *; bv_omega

theorem idlePoll_counts : idlePoll.Keeps PollsCount := by
  intro s
  have : (idlePoll s).state.poll = s.poll + 1 ∧ (idlePoll s).state.draws = s.draws + 1 := by
    unfold idlePoll Link.andThen countPoll Link.modify Link.bind readByte xfer
    dsimp only
    cases State.nextAnswer _ <;> exact ⟨rfl, rfl⟩
  unfold PollsCount
  rw [this.1, this.2]
  simp only [BitVec.ofNat_add]
  bv_omega

theorem idlePolls_counts (n : Nat) : (idlePolls n).Keeps PollsCount := by
  induction n with
  | zero => exact .pure pollsCount_composes _
  | succ n ih =>
    refine .bind pollsCount_composes idlePoll_counts fun ready => ?_
    cases ready
    · exact ih
    · exact .pure pollsCount_composes _

/-- `poll` after wait_ready is the number of its reads (R85). -/
theorem waitReady_poll (n : Nat) (s : State) :
    (waitReady n s).state.poll + BitVec.ofNat 10 s.draws = BitVec.ofNat 10 (waitReady n s).state.draws := by
  have h := idlePolls_counts n { s with poll := 0 }
  unfold PollsCount at h
  exact h.trans (BitVec.zero_add _)
/-! The R1 poll (R97). -/

/-- One poll: the byte read is in `resp`. -/
theorem r1Poll_wp (s : State) :
    r1Poll.wp (fun ends s' => ∃ b, Ran s s' (reads [b]) ∧ s'.resp = b ∧ ends = r1IsValid b) anyFault s := by
  simp only [r1Poll, Link.wp_andThen, Link.wp_bind, countPoll, Link.wp_modify, readByte, xfer_wp, setResp,
    Link.wp_pure]
  refine ⟨fun rx h => ⟨rx, ?_, rfl, rfl⟩, fun _ _ => trivial⟩
  exact (Ran.xfer (s := s) (tx := Config.fill) (by rw [← h]; exact State.nextAnswer_congr rfl rfl rfl)).of_eq
    rfl rfl rfl rfl rfl

/-- At most `n + 1` polls, the first of them made. -/
theorem r1Polls_wp (n : Nat) (s : State) :
    (r1Polls (n + 1)).wp (fun r s' => ∃ (pending : List Byte), Ran s s' (reads (pending ++ [r])) ∧ s'.resp = r ∧
      (∀ b ∈ pending, b.getLsbD 7 = true) ∧
      ((pending.length < n + 1 ∧ r.getLsbD 7 = false) ∨ (pending.length = n ∧ r.getLsbD 7 = true))) anyFault s := by
  induction n generalizing s with
  | zero =>
    rw [r1Polls, Link.wp_bind]
    refine Link.wp_mono (r1Poll_wp s) ?_ fun _ _ h => h
    rintro ends s1 ⟨b, hr, hresp, rfl⟩
    have hgoal : ∃ pending : List Byte, Ran s s1 (reads (pending ++ [s1.resp])) ∧ s1.resp = s1.resp ∧
        (∀ b ∈ pending, b.getLsbD 7 = true) ∧
        ((pending.length < 0 + 1 ∧ s1.resp.getLsbD 7 = false) ∨
          (pending.length = 0 ∧ s1.resp.getLsbD 7 = true)) := by
      refine ⟨[], by simpa [hresp] using hr, rfl, by simp, ?_⟩
      cases s1.resp.getLsbD 7 <;> simp
    split
    · exact hgoal
    · exact hgoal
  | succ n ih =>
    rw [r1Polls, Link.wp_bind]
    refine Link.wp_mono (r1Poll_wp s) ?_ fun _ _ h => h
    rintro ends s1 ⟨b, hr, hresp, rfl⟩
    by_cases hb : b.getLsbD 7 = true
    · simp only [r1IsValid, hb, Bool.not_true, Bool.false_eq_true, if_false]
      refine Link.wp_mono (ih s1) ?_ fun _ _ h => h
      rintro r s2 ⟨pending, hr2, hresp2, hall, hend⟩
      refine ⟨b :: pending, ?_, hresp2, by simpa [hb] using hall, ?_⟩
      · simpa using hr.trans hr2
      · simpa using hend
    · simp only [Bool.not_eq_true] at hb
      simp only [r1IsValid, hb, Bool.not_false, if_true, Link.wp_reading, Link.wp_pure]
      exact ⟨[], by simpa [hresp] using hr, trivial, by simp, .inl ⟨by simp, by rw [hresp]; exact hb⟩⟩

theorem readR1_wp (s : State) :
    readR1.wp (fun r s' => ∃ ev, R1Trace ev r ∧ Ran s s' ev ∧ s'.resp = r) anyFault s := by
  simp only [readR1, startPoll, Link.wp_andThen, Link.wp_modify]
  refine Link.wp_mono (r1Polls_wp 9 _) ?_ fun _ _ h => h
  rintro r s' ⟨pending, hr, hresp, hall, hend⟩
  refine ⟨_, ?_, hr.of_start rfl rfl rfl rfl rfl, hresp⟩
  rcases hend with ⟨hlen, hbit⟩ | ⟨hlen, hbit⟩
  · simpa using R1Trace.valid pending r hlen hall hbit
  · simpa using R1Trace.exhausted pending r hlen hall hbit

theorem readR1_sound : readR1.Sound R1Trace := fun s =>
  Link.wp_mono (readR1_wp s) (fun _ _ ⟨ev, h, hr, _⟩ => ⟨ev, h, hr⟩) fun _ _ h => h

/-! send_command (R96). -/

theorem composeFrame_bytes (index : BitVec 6) (arg : Word) :
    (composeFrame index arg).bytes = frameBytes index arg := rfl

theorem frameBytes_length (index : BitVec 6) (arg : Word) : (frameBytes index arg).length = 6 := rfl

theorem sendFrame_sound (index : BitVec 6) (arg : Word) : (sendFrame index arg).Sound (FrameTrace index arg) := by
  intro s
  simp only [sendFrame, setFrame, Link.wp_andThen, Link.wp_modify, Link.wp_reading, composeFrame_bytes]
  refine Link.wp_mono (writeBytes_sound _ _) ?_ fun _ _ h => h
  rintro _ s1 ⟨_, ⟨rxs, hlen, rfl⟩, r1⟩
  refine Link.wp_mono (readR1_sound s1) ?_ fun _ _ h => h
  rintro r s2 ⟨ev, hev, r2⟩
  exact ⟨_, .sent rxs ev r hlen hev, (r1.trans r2).of_start rfl rfl rfl rfl rfl⟩

theorem sendStandard_sound (index : BitVec 6) (arg : Word) :
    (sendStandard index arg).Sound (StandardTrace index arg) := by
  unfold sendStandard
  split
  · next h => exact (sendFrame_sound index arg).mono fun ev r hev => .stopTransmission ev r h hev
  · next h =>
    refine Link.Sound.andThen deselect_sound ?_
    rintro _ _ rfl
    refine Link.Sound.andThen select_sound ?_
    rintro _ _ rfl
    refine Link.Sound.bind (waitReady_sound _) ?_
    rintro ready wait hwait
    cases ready with
    | false => exact Link.Sound.pure (by simpa using StandardTrace.busy wait h hwait)
    | true =>
      refine (sendFrame_sound index arg).mono ?_
      intro ev r hev
      simpa using StandardTrace.sent wait ev r h hwait hev

theorem isFatal_iff (r : Byte) : isFatal r = true ↔ 1 < r.toNat := by simp [isFatal]

theorem sendCommand_sound (cmd : Command) (arg : Word) : (sendCommand cmd arg).Sound (CommandTrace cmd arg) := by
  unfold sendCommand
  split
  · next happ =>
    refine Link.Sound.bind (sendStandard_sound _ _) ?_
    intro r e1 h1
    by_cases hr : isFatal r = true
    · simp only [hr, if_true]
      exact Link.Sound.pure (by simpa using CommandTrace.aborted e1 r happ h1 ((isFatal_iff r).mp hr))
    · simp only [hr]
      refine (sendStandard_sound _ _).mono fun ev r2 h2 => ?_
      exact .application e1 ev r r2 happ h1 (by rw [isFatal_iff] at hr; omega) h2
  · next happ => exact (sendStandard_sound _ _).mono fun ev r h => .standard ev r (by simpa using happ) h

/-! Trailing bytes (R55, R56). -/

theorem readTrailByte_wp (k : Nat) (s : State) :
    (readTrailByte k).wp (fun _ s' => ∃ b, Ran s s' (reads [b]) ∧ s'.trail = s.trail.set k b) anyFault s := by
  simp only [readTrailByte, setTrailByte, Link.wp_bind, Link.wp_modify]
  rw [readByte, xfer_wp]
  exact ⟨fun b h => ⟨b, (Ran.xfer h).of_eq rfl rfl rfl rfl rfl, rfl⟩, fun _ _ => trivial⟩

theorem readTrail_wp (s : State) :
    readTrail.wp (fun _ s' => ∃ t0 t1 t2 t3, Ran s s' (reads [t0, t1, t2, t3]) ∧ s'.trail = ⟨t0, t1, t2, t3⟩)
      anyFault s := by
  simp only [readTrail, Link.wp_andThen]
  refine Link.wp_mono (readTrailByte_wp 0 s) ?_ fun _ _ h => h
  rintro _ s0 ⟨b0, r0, h0⟩
  refine Link.wp_mono (readTrailByte_wp 1 s0) ?_ fun _ _ h => h
  rintro _ s1 ⟨b1, r1, h1⟩
  refine Link.wp_mono (readTrailByte_wp 2 s1) ?_ fun _ _ h => h
  rintro _ s2 ⟨b2, r2, h2⟩
  refine Link.wp_mono (readTrailByte_wp 3 s2) ?_ fun _ _ h => h
  rintro _ s3 ⟨b3, r3, h3⟩
  exact ⟨b0, b1, b2, b3, ((r0.trans r1).trans r2).trans r3, by rw [h3, h2, h1, h0]; rfl⟩

/-! Packets (R140 to R146). -/

/-- One token poll: the byte read is in `tok`. -/
theorem tokenPoll_wp (s : State) :
    tokenPoll.wp (fun ends s' => ∃ b, Ran s s' (reads [b]) ∧ s'.tok = b ∧ ends = isTokenCandidate b) anyFault s := by
  simp only [tokenPoll, Link.wp_andThen, Link.wp_bind, countPoll, Link.wp_modify, readByte, xfer_wp, setTok,
    Link.wp_pure]
  refine ⟨fun rx h => ⟨rx, ?_, rfl, rfl⟩, fun _ _ => trivial⟩
  exact (Ran.xfer (s := s) (tx := Config.fill) (by rw [← h]; exact State.nextAnswer_congr rfl rfl rfl)).of_eq
    rfl rfl rfl rfl rfl

/-- At most `n` token polls: the polls that read 0xFF, then the candidate if one came. -/
theorem tokenPolls_wp (n : Nat) (s : State) (hs : s.tok = 0xFF) :
    (tokenPolls n).wp (fun tok s' => (tok = 0xFF ∧ Ran s s' (reads (List.replicate n 0xFF))) ∨
      ∃ k, k < n ∧ tok ≠ 0xFF ∧ Ran s s' (reads (List.replicate k 0xFF ++ [tok]))) anyFault s := by
  induction n generalizing s with
  | zero => exact .inl ⟨hs, Ran.refl s⟩
  | succ n ih =>
    rw [tokenPolls, Link.wp_bind]
    refine Link.wp_mono (tokenPoll_wp s) ?_ fun _ _ h => h
    rintro ends s1 ⟨b, hr, htok, rfl⟩
    by_cases hb : b = 0xFF
    · subst hb
      simp only [isTokenCandidate, bne_self_eq_false, Bool.false_eq_true, if_false]
      refine Link.wp_mono (ih s1 htok) ?_ fun _ _ h => h
      rintro tok s2 (⟨ht, hr2⟩ | ⟨k, hk, ht, hr2⟩)
      · exact .inl ⟨ht, by simpa [List.replicate_succ] using hr.trans hr2⟩
      · exact .inr ⟨k + 1, by omega, ht, by simpa [List.replicate_succ] using hr.trans hr2⟩
    · simp only [isTokenCandidate, bne_iff_ne.mpr hb, if_true, Link.wp_reading, Link.wp_pure]
      exact .inr ⟨0, by omega, by simpa [htok] using hb, by simpa [htok] using hr⟩

theorem readToken_wp (s : State) :
    readToken.wp (fun tok s' => (tok = 0xFF ∧ Ran s s' (reads (List.replicate 255 0xFF))) ∨
      ∃ k, k < 255 ∧ tok ≠ 0xFF ∧ Ran s s' (reads (List.replicate k 0xFF ++ [tok]))) anyFault s := by
  simp only [readToken, setTok, startPoll, Link.wp_andThen, Link.wp_modify]
  refine Link.wp_mono (tokenPolls_wp 255 _ rfl) ?_ fun _ _ h => h
  rintro tok s' (⟨ht, hr⟩ | ⟨k, hk, ht, hr⟩)
  · exact .inl ⟨ht, hr.of_start rfl rfl rfl rfl rfl⟩
  · exact .inr ⟨k, hk, ht, hr.of_start rfl rfl rfl rfl rfl⟩

end Sys2Proof.Machine
end

