-- ==== Sys2Proof/Laws/Frames.lean ====
section
/-! SUPPORT. What each shared operation leaves alone, however it ends: the operation keeps every relation that its
primitive changes keep. -/

namespace Sys2Proof.Machine

/-- `f` has the same value at both ends. -/
def Same {β : Type} (f : State → β) : State → State → Prop := fun s s' => f s' = f s

theorem Same.composes {β : Type} (f : State → β) : Composes (Same f) :=
  ⟨fun _ => rfl, fun _ _ _ h1 h2 => Eq.trans h2 h1⟩

/-- What holds of every end holds beside what holds of each. -/
theorem Link.wp_keeps {α : Type} {m : Link α} {R : State → State → Prop} (hk : m.Keeps R) {s : State}
    {Q : α → State → Prop} {F : Nat → State → Prop} (h : m.wp Q F s) :
    m.wp (fun a s' => Q a s' ∧ R s s') (fun c s' => F c s' ∧ R s s') s := by
  have hs := hk s
  unfold Link.wp at *
  cases hm : m s with
  | ok a s' => rw [hm] at h hs; exact ⟨h, hs⟩
  | fault c s' => rw [hm] at h hs; exact ⟨h, hs⟩

/-- The changes of a computation that reads and writes bytes and counts polls. -/
structure ReadKept (R : State → State → Prop) : Prop where
  comp : Composes R
  drawn : ∀ s, R s s.drawn
  exchanged : ∀ s tx rx, R s { s.drawn with trace := s.trace ++ [.xfer tx rx] }
  poll : ∀ s p, R s { s with poll := p }

/-- The changes of `send_command`. -/
structure SendKept (R : State → State → Prop) : Prop extends ReadKept R where
  frame : ∀ s f, R s { s with frame := f }
  resp : ∀ s b, R s { s with resp := b }
  sel : ∀ s, R s { s with cs := .asserted, trace := s.trace ++ [.sel] }
  des : ∀ s, R s s.deselected

/-- The changes of `receive_datablock`. -/
structure BlockInKept (R : State → State → Prop) : Prop extends ReadKept R where
  tok : ∀ s b, R s { s with tok := b }
  byte : ∀ s n, R s { s with byte := n }
  buf : ∀ s off v, R s (s.setBufByte off v)

/-- The changes of `transmit_datablock`. -/
structure BlockOutKept (R : State → State → Prop) : Prop extends ReadKept R where
  tok : ∀ s b, R s { s with tok := b }
  byte : ∀ s n, R s { s with byte := n }
  dresp : ∀ s b, R s { s with dresp := b }

variable {R : State → State → Prop}

theorem xfer_keeps (h : ReadKept R) (tx : Byte) : (xfer tx).Keeps R := by
  intro s
  unfold xfer
  cases s.nextAnswer with
  | byte rx => exact h.exchanged s tx rx
  | fault c => exact h.drawn s

theorem readByte_keeps (h : ReadKept R) : readByte.Keeps R := xfer_keeps h Config.fill

theorem writeByte_keeps (h : ReadKept R) (b : Byte) : (writeByte b).Keeps R :=
  .andThen h.comp (xfer_keeps h b) (.pure h.comp ())

theorem writeBytes_keeps (h : ReadKept R) (bs : List Byte) : (writeBytes bs).Keeps R := by
  induction bs with
  | nil => exact .pure h.comp ()
  | cons b rest ih => exact .andThen h.comp (writeByte_keeps h b) ih

theorem startPoll_keeps (h : ReadKept R) : startPoll.Keeps R := fun s => h.poll s 0
theorem countPoll_keeps (h : ReadKept R) : countPoll.Keeps R := fun s => h.poll s _

theorem idlePoll_keeps (h : ReadKept R) : idlePoll.Keeps R :=
  .andThen h.comp (countPoll_keeps h) (.bind h.comp (readByte_keeps h) fun _ => .pure h.comp _)

theorem idlePolls_keeps (h : ReadKept R) (n : Nat) : (idlePolls n).Keeps R := by
  induction n with
  | zero => exact .pure h.comp _
  | succ n ih =>
    refine .bind h.comp (idlePoll_keeps h) fun ready => ?_
    cases ready
    · exact ih
    · exact .pure h.comp _

theorem waitReady_keeps (h : ReadKept R) (n : Nat) : (waitReady n).Keeps R :=
  .andThen h.comp (startPoll_keeps h) (idlePolls_keeps h n)

theorem r1Poll_keeps (h : ReadKept R) (hr : ∀ s b, R s { s with resp := b }) : r1Poll.Keeps R :=
  .andThen h.comp (countPoll_keeps h) (.bind h.comp (readByte_keeps h) fun b =>
    .andThen h.comp (fun s => hr s b) (.pure h.comp _))

theorem r1Polls_keeps (h : ReadKept R) (hr : ∀ s b, R s { s with resp := b }) (n : Nat) :
    (r1Polls n).Keeps R := by
  induction n with
  | zero => exact .reading fun _ => .pure h.comp _
  | succ n ih =>
    refine .bind h.comp (r1Poll_keeps h hr) fun ends => ?_
    cases ends
    · exact ih
    · exact Link.Keeps.reading (f := State.resp) fun _ => .pure h.comp _

theorem sendFrame_keeps (h : SendKept R) (index : BitVec 6) (arg : Word) : (sendFrame index arg).Keeps R :=
  .andThen h.comp (fun s => h.frame s _) (.andThen h.comp
    (.reading fun f => writeBytes_keeps h.toReadKept f.bytes)
    (.andThen h.comp (startPoll_keeps h.toReadKept) (r1Polls_keeps h.toReadKept h.resp _)))

theorem sendStandard_keeps (h : SendKept R) (index : BitVec 6) (arg : Word) : (sendStandard index arg).Keeps R := by
  unfold sendStandard
  split
  · exact sendFrame_keeps h index arg
  · refine .andThen h.comp h.des (.andThen h.comp h.sel (.bind h.comp (waitReady_keeps h.toReadKept _) fun ready => ?_))
    cases ready
    · exact .pure h.comp _
    · exact sendFrame_keeps h index arg

theorem sendCommand_keeps (h : SendKept R) (cmd : Command) (arg : Word) : (sendCommand cmd arg).Keeps R := by
  unfold sendCommand
  split
  · refine .bind h.comp (sendStandard_keeps h _ _) fun r => ?_
    split
    · exact .pure h.comp _
    · exact sendStandard_keeps h _ _
  · exact sendStandard_keeps h _ _

theorem readTrail_keeps (h : ReadKept R) (ht : ∀ s t, R s { s with trail := t }) : readTrail.Keeps R :=
  have hbyte : ∀ k, (readTrailByte k).Keeps R := fun _ => .bind h.comp (readByte_keeps h) fun _ s => ht s _
  .andThen h.comp (hbyte 0) (.andThen h.comp (hbyte 1) (.andThen h.comp (hbyte 2) (hbyte 3)))

theorem tokenPolls_keeps (h : ReadKept R) (ht : ∀ s b, R s { s with tok := b }) (n : Nat) :
    (tokenPolls n).Keeps R := by
  induction n with
  | zero => exact .reading fun _ => .pure h.comp _
  | succ n ih =>
    refine .bind h.comp (.andThen h.comp (countPoll_keeps h) (.bind h.comp (readByte_keeps h) fun b =>
      .andThen h.comp (fun s => ht s b) (.pure h.comp _))) fun ends => ?_
    cases ends
    · exact ih
    · exact Link.Keeps.reading (f := State.tok) fun _ => .pure h.comp _

theorem readToken_keeps (h : ReadKept R) (ht : ∀ s b, R s { s with tok := b }) : readToken.Keeps R :=
  .andThen h.comp (fun s => ht s _) (.andThen h.comp (startPoll_keeps h) (tokenPolls_keeps h ht _))

theorem receiveBytes_keeps (h : ReadKept R) (hb : ∀ s n, R s { s with byte := n }) (i n : Nat) :
    (receiveBytes i n).Keeps R := by
  induction n generalizing i with
  | zero => exact .pure h.comp _
  | succ n ih =>
    exact .andThen h.comp (fun s => hb s _) (.bind h.comp (readByte_keeps h) fun _ =>
      .bind h.comp (ih (i + 1)) fun _ => .pure h.comp _)

/-- Bytes stored one after the other. -/
theorem storeBytes_kept (h : Composes R) (hb : ∀ s off v, R s (s.setBufByte off v)) (s : State) (off : Nat)
    (data : List Byte) : R s (s.storeBytes off data) := by
  induction data generalizing s off with
  | nil => exact h.refl s
  | cons b rest ih => exact h.trans _ _ _ (hb s off b) (ih (s.setBufByte off b) (off + 1))

theorem receiveDatablock_keeps (h : BlockInKept R) (off length : Nat) : (receiveDatablock off length).Keeps R := by
  refine .bind h.comp (readToken_keeps h.toReadKept h.tok) fun tok => ?_
  split
  · exact .bind h.comp (receiveBytes_keeps h.toReadKept h.byte 0 length) fun data =>
      .andThen h.comp (readByte_keeps h.toReadKept) (.andThen h.comp (readByte_keeps h.toReadKept)
        (.andThen h.comp (fun s => storeBytes_kept h.comp h.buf s off data) (.pure h.comp _)))
  · exact .pure h.comp _

theorem transmitBytes_keeps (h : BlockOutKept R) (off i n : Nat) : (transmitBytes off i n).Keeps R := by
  induction n generalizing i with
  | zero => exact .pure h.comp _
  | succ n ih =>
    exact .andThen h.comp (fun s => h.byte s _) (.andThen h.comp
      (.reading fun b => writeByte_keeps h.toReadKept b) (ih (i + 1)))

theorem sendToken_keeps (h : ReadKept R) (ht : ∀ s b, R s { s with tok := b }) (t : Token) :
    (sendToken t).Keeps R :=
  .andThen h.comp (fun s => ht s _) (writeByte_keeps h _)

theorem readDresp_keeps (h : ReadKept R) (hd : ∀ s b, R s { s with dresp := b }) : readDresp.Keeps R :=
  .bind h.comp (readByte_keeps h) fun b => .andThen h.comp (fun s => hd s b) (.pure h.comp _)

theorem transmitDatablock_keeps (h : BlockOutKept R) (off : Nat) (t : Token) :
    (transmitDatablock off t).Keeps R := by
  refine .bind h.comp (waitReady_keeps h.toReadKept _) fun ready => ?_
  cases ready
  · exact .pure h.comp _
  · refine .andThen h.comp (sendToken_keeps h.toReadKept h.tok t) (.bind h.comp ?_ fun ok =>
      .andThen h.comp (waitReady_keeps h.toReadKept _) (.pure h.comp ok))
    unfold transmitBody
    split
    · exact .pure h.comp _
    · exact .andThen h.comp (transmitBytes_keeps h off 0 _) (.andThen h.comp (writeBytes_keeps h.toReadKept _)
        (readDresp_keeps h.toReadKept h.dresp))

/-! The frames of the operations. -/

theorem sendKept_blank : SendKept (Same State.sendBlank) :=
  ⟨⟨Same.composes _, fun _ => rfl, fun _ _ _ => rfl, fun _ _ => rfl⟩, fun _ _ => rfl, fun _ _ => rfl, fun _ => rfl,
    fun _ => rfl⟩

theorem blockInKept_blank : BlockInKept (Same State.blockInBlank) :=
  ⟨⟨Same.composes _, fun _ => rfl, fun _ _ _ => rfl, fun _ _ => rfl⟩, fun _ _ => rfl, fun _ _ => rfl,
    fun _ _ _ => rfl⟩

theorem blockOutKept_blank : BlockOutKept (Same State.blockOutBlank) :=
  ⟨⟨Same.composes _, fun _ => rfl, fun _ _ _ => rfl, fun _ _ => rfl⟩, fun _ _ => rfl, fun _ _ => rfl, fun _ _ => rfl⟩

end Sys2Proof.Machine
end

