-- ==== Sys2Proof/Laws/Memory.lean ====
section
/-! SUPPORT. The laws of the host-buffer memory: a write is read back, leaves every other offset alone, and keeps the
canonical form. -/

namespace Sys2Proof.Machine

theorem Memory.wf_nil : Memory.wf [] := by simp [Memory.wf]

theorem Memory.wf_cons {c : Host.Cell} {m : Memory} :
    Memory.wf (c :: m) ↔ (∀ d ∈ m, c.1 < d.1) ∧ c.2 ≠ 0 ∧ Memory.wf m := by
  simp only [Memory.wf, List.pairwise_cons, List.forall_mem_cons]
  tauto

/-- An offset below every listed one reads as 0. -/
theorem Memory.read_eq_zero {m : Memory} {a : Nat} (h : ∀ d ∈ m, a < d.1) : Memory.read m a = 0 := by
  induction m with
  | nil => rfl
  | cons c rest ih =>
    have hc := h c (by simp)
    simp only [Memory.read, if_neg (by omega : ¬ c.1 = a)]
    exact ih fun d hd => h d (by simp [hd])

/-- A write leaves every other offset alone. -/
theorem Memory.read_write_other {m : Memory} {a a' : Nat} (b : Byte) (h : a' ≠ a) :
    Memory.read (Memory.write m a b) a' = Memory.read m a' := by
  induction m with
  | nil =>
    simp only [Memory.write]
    split <;> simp [Memory.read, h.symm]
  | cons c rest ih =>
    simp only [Memory.write]
    split
    · split <;> simp [Memory.read, h.symm]
    · split
      · next hac => split <;> simp [Memory.read, h.symm, hac ▸ h.symm]
      · simp [Memory.read, ih]

/-- A write is read back. -/
theorem Memory.read_write_same {m : Memory} (hm : m.wf) (a : Nat) (b : Byte) :
    Memory.read (Memory.write m a b) a = b := by
  induction m with
  | nil =>
    simp only [Memory.write]
    split <;> simp_all [Memory.read]
  | cons c rest ih =>
    obtain ⟨hlt, -, hrest⟩ := Memory.wf_cons.mp hm
    simp only [Memory.write]
    split
    · next hac =>
      split
      · next hb =>
        subst hb
        exact Memory.read_eq_zero (List.forall_mem_cons.mpr ⟨hac, fun d hd => hac.trans (hlt d hd)⟩)
      · simp [Memory.read]
    · split
      · next hac =>
        split
        · next hb =>
          subst hb
          exact Memory.read_eq_zero fun d hd => hac ▸ hlt d hd
        · simp [Memory.read]
      · next hne =>
        simp only [Memory.read, if_neg (Ne.symm hne)]
        exact ih hrest

/-- The offsets a write leaves listed. -/
theorem Memory.mem_write {m : Memory} {a : Nat} {b : Byte} {d : Host.Cell} (h : d ∈ Memory.write m a b) :
    d ∈ m ∨ (d = (a, b) ∧ b ≠ 0) := by
  induction m with
  | nil =>
    simp only [Memory.write] at h
    split at h <;> simp_all
  | cons c rest ih =>
    simp only [Memory.write] at h
    split at h
    · split at h <;> (simp_all; try tauto)
    · split at h
      · split at h <;> (simp_all; try tauto)
      · rcases List.mem_cons.mp h with rfl | h
        · simp
        · rcases ih h with h | h
          · simp [h]
          · exact .inr h

/-- Every memory operation keeps the canonical form. -/
theorem Memory.write_wf {m : Memory} (hm : m.wf) (a : Nat) (b : Byte) : (Memory.write m a b).wf := by
  induction m with
  | nil =>
    simp only [Memory.write]
    split <;> simp_all [Memory.wf]
  | cons c rest ih =>
    obtain ⟨hlt, hc, hrest⟩ := Memory.wf_cons.mp hm
    simp only [Memory.write]
    split
    · next hac =>
      split
      · exact hm
      · next hb =>
        exact Memory.wf_cons.mpr ⟨List.forall_mem_cons.mpr ⟨hac, fun d hd => hac.trans (hlt d hd)⟩, hb, hm⟩
    · split
      · next hac =>
        split
        · exact hrest
        · next hb => exact Memory.wf_cons.mpr ⟨fun d hd => hac ▸ hlt d hd, hb, hrest⟩
      · next hle hne =>
        refine Memory.wf_cons.mpr ⟨fun d hd => ?_, hc, ih hrest⟩
        rcases Memory.mem_write hd with h | ⟨rfl, -⟩
        · exact hlt d h
        · have : ¬ a < c.1 := hle
          have : a ≠ c.1 := hne
          simp only
          omega

theorem Memory.store_wf {m : Memory} (hm : m.wf) (off : Nat) (data : List Byte) : (m.store off data).wf := by
  induction data generalizing m off with
  | nil => exact hm
  | cons b rest ih => exact ih (Memory.write_wf hm off b) (off + 1)

/-- Storing leaves every offset outside the stored bytes alone. -/
theorem Memory.read_store_other {m : Memory} {off a : Nat} {data : List Byte}
    (h : a < off ∨ off + data.length ≤ a) : Memory.read (m.store off data) a = Memory.read m a := by
  induction data generalizing m off with
  | nil => rfl
  | cons b rest ih =>
    simp only [List.length_cons] at h
    rw [Memory.store, ih (by omega), Memory.read_write_other b (by omega)]

/-- What is stored is read back. -/
theorem Memory.read_store_same {m : Memory} (hm : m.wf) {off : Nat} {data : List Byte} {j : Nat}
    (hj : j < data.length) : Memory.read (m.store off data) (off + j) = data[j] := by
  induction data generalizing m off j with
  | nil => simp at hj
  | cons b rest ih =>
    rw [Memory.store]
    cases j with
    | zero =>
      rw [Memory.read_store_other (by simp)]
      simpa using Memory.read_write_same hm off b
    | succ j =>
      have := ih (Memory.write_wf hm off b) (off := off + 1) (j := j) (by simpa using hj)
      simpa [Nat.add_assoc, Nat.add_comm 1 j] using this

theorem Memory.store_append (m : Memory) (off : Nat) (a b : List Byte) :
    m.store off (a ++ b) = (m.store off a).store (off + a.length) b := by
  induction a generalizing m off with
  | nil => rfl
  | cons x rest ih =>
    simp only [List.cons_append, Memory.store, ih, List.length_cons]
    rw [show off + 1 + rest.length = off + (rest.length + 1) by omega]

end Sys2Proof.Machine
end

