-- ==== Sys2Proof/Laws/Packets.lean ====
section
/-! SUPPORT. What the packets of the block engine can do (43_block_transfer R140 to R146): the traces they leave and the
bytes they move between the link and the host buffer. -/

namespace Sys2Proof.Machine

theorem readKept_buf : ReadKept (Same State.buf) :=
  ⟨Same.composes _, fun _ => rfl, fun _ _ _ => rfl, fun _ _ => rfl⟩

theorem blockOutKept_buf : BlockOutKept (Same State.buf) :=
  ⟨readKept_buf, fun _ _ => rfl, fun _ _ => rfl, fun _ _ => rfl⟩

theorem sendKept_buf : SendKept (Same State.buf) :=
  ⟨readKept_buf, fun _ _ => rfl, fun _ _ => rfl, fun _ => rfl, fun _ => rfl⟩

theorem receiveBytes_sound (i n : Nat) :
    (receiveBytes i n).Sound fun ev data => data.length = n ∧ ev = reads data := by
  induction n generalizing i with
  | zero => exact .pure ⟨rfl, rfl⟩
  | succ n ih =>
    refine .afterSilent (setByteIndex_silent i) (.bind readByte_sound fun b e1 h1 => .bind (ih (i + 1)) ?_)
    rintro data e2 ⟨h2, rfl⟩
    exact .pure ⟨by simp [h2], by simp [h1]⟩

/-- `receive_datablock` (R141). -/
theorem receiveDatablock_wp (off length : Nat) (s : State) :
    (receiveDatablock off length).wp (fun got s' => ∃ ev d, BlockInTrace length ev d ∧ got = d.isSome ∧ Ran s s' ev ∧
      s'.buf = ⟨s.buf.size, s.buf.cells.store off (d.getD [])⟩) anyFault s := by
  rw [receiveDatablock, Link.wp_bind]
  refine Link.wp_mono (Link.wp_keeps (readToken_keeps readKept_buf fun _ _ => rfl) (readToken_wp s)) ?_
    fun _ _ h => h.1
  rintro tok s1 ⟨h, hb⟩
  simp only [Same] at hb
  rcases h with ⟨rfl, r1⟩ | ⟨k, hk, htok, r1⟩
  · exact ⟨_, none, .noToken, rfl, r1, hb⟩
  · by_cases hst : tok = 0xFE
    · subst hst
      simp only [isStartBlock, beq_self_eq_true, if_true, Link.wp_bind, Link.wp_andThen, Link.wp_modify, Link.wp_pure]
      refine Link.wp_mono (Link.wp_keeps (receiveBytes_keeps readKept_buf (fun _ _ => rfl) 0 length)
        (receiveBytes_sound 0 length s1)) ?_ fun _ _ h => h.1
      rintro data s2 ⟨⟨_, ⟨hlen, rfl⟩, r2⟩, hb2⟩
      refine Link.wp_mono (Link.wp_keeps (readByte_keeps readKept_buf) (readByte_sound s2)) ?_ fun _ _ h => h.1
      rintro c0 s3 ⟨⟨_, rfl, r3⟩, hb3⟩
      refine Link.wp_mono (Link.wp_keeps (readByte_keeps readKept_buf) (readByte_sound s3)) ?_ fun _ _ h => h.1
      rintro c1 s4 ⟨⟨_, rfl, r4⟩, hb4⟩
      simp only [Same] at hb2 hb3 hb4
      refine ⟨_, some data, .received k data c0 c1 hk hlen, rfl, ?_, ?_⟩
      · simpa using (((r1.trans r2).trans r3).trans r4).of_eq (u := s4.storeBytes off data) rfl rfl rfl rfl rfl
      · simp only [State.storeBytes, hb4, hb3, hb2, hb, Option.getD_some]
    · simp only [isStartBlock, beq_eq_false_iff_ne.mpr hst, Bool.false_eq_true, if_false]
      exact ⟨_, none, .wrongToken k tok hk htok hst, rfl, r1, hb⟩

/-- The payload is the buffer's bytes in increasing offset (R33, R144). -/
theorem transmitBytes_wp (off i n : Nat) (s : State) :
    (transmitBytes off i n).wp (fun _ s' => ∃ rxs : List Byte, rxs.length = n ∧
      Ran s s' (writes ((List.range' i n).map fun j => s.bufByte (off + j)) rxs)) anyFault s := by
  induction n generalizing i s with
  | zero => exact ⟨[], rfl, Ran.refl s⟩
  | succ n ih =>
    simp only [transmitBytes, setByteIndex, Link.wp_andThen, Link.wp_modify, Link.wp_reading]
    refine Link.wp_mono (Link.wp_keeps (writeByte_keeps readKept_buf _) (writeByte_sound _ _)) ?_ fun _ _ h => h.1
    rintro _ s1 ⟨⟨_, ⟨rx, rfl⟩, r1⟩, hb⟩
    refine Link.wp_mono (ih (i + 1) s1) ?_ fun _ _ h => h
    rintro _ s2 ⟨rxs, hlen, r2⟩
    refine ⟨rx :: rxs, by simp [hlen], ?_⟩
    have hbuf : s1.buf = s.buf := hb
    have hbyte : ∀ a, s1.bufByte a = s.bufByte a := fun a => by simp only [State.bufByte, hbuf]
    simp only [hbyte] at r2
    have r := (r1.trans r2).of_start (s := s) rfl rfl rfl rfl rfl
    simpa [List.range'_succ, State.bufByte] using r

theorem readDresp_sound : readDresp.Sound fun ev ok => ∃ b, ev = reads [b] ∧ ok = dataAccepted b :=
  Link.Sound.bind readByte_sound fun b e1 h1 =>
    Link.Sound.afterSilent (setDresp_silent b) (Link.Sound.pure ⟨b, by simpa using h1, rfl⟩)

/-- `transmit_datablock` (R146): the payload is the 512 bytes of the buffer from `off` on. -/
theorem transmitDatablock_wp (off : Nat) (t : Token) (s : State) :
    (transmitDatablock off t).wp (fun ok s' => ∃ ev,
      BlockOutTrace ((List.range 512).map fun j => s.bufByte (off + j)) t ev ok ∧ Ran s s' ev) anyFault s := by
  simp only [transmitDatablock, Link.wp_bind]
  refine Link.wp_mono (Link.wp_keeps (waitReady_keeps readKept_buf _) (waitReady_sound _ s)) ?_ fun _ _ h => h.1
  rintro ready s1 ⟨⟨wait, hwait, r1⟩, hb1⟩
  cases ready with
  | false => exact ⟨wait, .busy wait hwait, r1⟩
  | true =>
    simp only [if_true, Link.wp_andThen, sendToken, setTok, Link.wp_modify]
    refine Link.wp_mono (Link.wp_keeps (writeByte_keeps readKept_buf _) (writeByte_sound _ _)) ?_ fun _ _ h => h.1
    rintro _ s2 ⟨⟨_, ⟨rx, rfl⟩, r2⟩, hb2⟩
    replace r2 : Ran s1 s2 _ := r2.of_start rfl rfl rfl rfl rfl
    have hbuf : s2.buf = s.buf := Eq.trans hb2 hb1
    simp only [transmitBody]
    by_cases ht : t = .stopTran
    · simp only [if_pos ht, Link.wp_bind, Link.wp_andThen, Link.wp_pure]
      refine Link.wp_mono (waitReady_sound _ s2) ?_ fun _ _ h => h
      rintro q s3 ⟨closing, hclosing, r3⟩
      exact ⟨_, .stop wait closing rx q ht hwait hclosing, by simpa using (r1.trans r2).trans r3⟩
    · rw [if_neg ht]
      simp only [transmitPayload, Link.wp_bind, Link.wp_andThen]
      refine Link.wp_mono (transmitBytes_wp off 0 512 s2) ?_ fun _ _ h => h
      rintro _ s3 ⟨rxs, hlen, r3⟩
      refine Link.wp_mono (writeBytes_sound _ s3) ?_ fun _ _ h => h
      rintro _ s4 ⟨_, ⟨crc, hcrc, rfl⟩, r4⟩
      refine Link.wp_mono (readDresp_sound s4) ?_ fun _ _ h => h
      rintro ok s5 ⟨_, ⟨response, rfl, rfl⟩, r5⟩
      refine Link.wp_mono (waitReady_sound _ s5) ?_ fun _ _ h => h
      rintro q s6 ⟨closing, hclosing, r6⟩
      have hpay : (List.range' 0 512).map (fun j => s2.bufByte (off + j))
          = (List.range 512).map fun j => s.bufByte (off + j) := by
        rw [List.range_eq_range']
        simp only [State.bufByte, hbuf]
      rw [hpay] at r3
      refine ⟨_, .block wait closing rx response (rxs ++ crc) q ht hwait (by simp [hlen, hcrc]) hclosing, ?_⟩
      rw [writes_append (by simp [hlen])]
      simpa only [List.append_assoc, List.cons_append, List.nil_append] using
        ((((r1.trans r2).trans r3).trans r4).trans r5).trans r6

/-- A stop packet has no payload. -/
theorem BlockOutTrace.stop_payload {p p' : List Byte} {ev : List Event} {ok : Bool}
    (h : BlockOutTrace p .stopTran ev ok) : BlockOutTrace p' .stopTran ev ok := by
  cases h with
  | busy _ hw => exact .busy _ hw
  | stop w closing rx q ht hw hc => exact .stop w closing rx q ht hw hc
  | block w closing rx response dropped q ht => exact absurd rfl ht

end Sys2Proof.Machine
end

