-- ==== Sys2Proof/Laws/Commands.lean ====
section
/-! SUPPORT. What the wire commands can do: their frames, and what their rules say the controller does with the answer
(41_command_framer R100 to R112). -/

namespace Sys2Proof.Machine

theorem isReady_iff (r : Byte) : isReady r = true ↔ r = 0 := by simp [isReady]
theorem inIdleState_iff (r : Byte) : inIdleState r = true ↔ r = 1 := by simp [inIdleState]

/-! What `send_command` leaves alone. -/

theorem readKept_same {β : Type} (f : State → β) (hdrawn : ∀ s, f s.drawn = f s)
    (hx : ∀ s tx rx, f { s.drawn with trace := s.trace ++ [.xfer tx rx] } = f s)
    (hp : ∀ s p, f { s with poll := p } = f s) : ReadKept (Same f) :=
  ⟨Same.composes f, hdrawn, hx, hp⟩

theorem readKept_ty : ReadKept (Same State.ty) := readKept_same _ (fun _ => rfl) (fun _ _ _ => rfl) fun _ _ => rfl
theorem readKept_done : ReadKept (Same State.done) := readKept_same _ (fun _ => rfl) (fun _ _ _ => rfl) fun _ _ => rfl
theorem readKept_count : ReadKept (Same State.count) :=
  readKept_same _ (fun _ => rfl) (fun _ _ _ => rfl) fun _ _ => rfl
theorem readKept_rc : ReadKept (Same State.rc) := readKept_same _ (fun _ => rfl) (fun _ _ _ => rfl) fun _ _ => rfl

theorem sendKept_trail : SendKept (Same State.trail) :=
  ⟨readKept_same _ (fun _ => rfl) (fun _ _ _ => rfl) fun _ _ => rfl, fun _ _ => rfl, fun _ _ => rfl, fun _ => rfl,
    fun _ => rfl⟩
theorem sendKept_ty : SendKept (Same State.ty) :=
  ⟨readKept_ty, fun _ _ => rfl, fun _ _ => rfl, fun _ => rfl, fun _ => rfl⟩
theorem sendKept_done : SendKept (Same State.done) :=
  ⟨readKept_done, fun _ _ => rfl, fun _ _ => rfl, fun _ => rfl, fun _ => rfl⟩
theorem sendKept_count : SendKept (Same State.count) :=
  ⟨readKept_count, fun _ _ => rfl, fun _ _ => rfl, fun _ => rfl, fun _ => rfl⟩
theorem sendKept_rc : SendKept (Same State.rc) :=
  ⟨readKept_rc, fun _ _ => rfl, fun _ _ => rfl, fun _ => rfl, fun _ => rfl⟩

theorem blockInKept_done : BlockInKept (Same State.done) :=
  ⟨readKept_done, fun _ _ => rfl, fun _ _ => rfl, fun _ _ _ => rfl⟩
theorem blockInKept_count : BlockInKept (Same State.count) :=
  ⟨readKept_count, fun _ _ => rfl, fun _ _ => rfl, fun _ _ _ => rfl⟩
theorem blockOutKept_done : BlockOutKept (Same State.done) :=
  ⟨readKept_done, fun _ _ => rfl, fun _ _ => rfl, fun _ _ => rfl⟩
theorem blockOutKept_count : BlockOutKept (Same State.count) :=
  ⟨readKept_count, fun _ _ => rfl, fun _ _ => rfl, fun _ _ => rfl⟩

/-- `send_command` with a field it keeps. -/
theorem sendCommand_wp {β : Type} {f : State → β} (hf : SendKept (Same f)) (cmd : Command) (arg : Word) (s : State) :
    (sendCommand cmd arg).wp (fun r s' => (∃ ev, CommandTrace cmd arg ev r ∧ Ran s s' ev) ∧ f s' = f s) anyFault s :=
  Link.wp_mono (Link.wp_keeps (sendCommand_keeps hf cmd arg) (sendCommand_sound cmd arg s)) (fun _ _ h => h)
    fun _ _ h => h.1

/-! Commands with trailing bytes. -/

/-- CMD8 (R102): the trailing bytes are read where R1 is 1, and only there. -/
theorem cmd8_wp (s : State) :
    cmd8.wp (fun r s' => ∃ ev, CommandTrace cmd8Value 0x1AA ev r ∧
      ((r ≠ 1 ∧ Ran s s' ev ∧ s'.trail = s.trail) ∨
        ∃ t0 t1 t2 t3, r = 1 ∧ Ran s s' (ev ++ reads [t0, t1, t2, t3]) ∧ s'.trail = ⟨t0, t1, t2, t3⟩)) anyFault s := by
  rw [cmd8, Link.wp_bind]
  refine Link.wp_mono (sendCommand_wp sendKept_trail cmd8Value echoArg s) ?_ fun _ _ h => h
  rintro r s1 ⟨⟨ev, hev, r1⟩, htr⟩
  by_cases hr : r = 1
  · subst hr
    simp only [inIdleState, beq_self_eq_true, if_true, Link.wp_andThen, Link.wp_pure]
    refine Link.wp_mono (readTrail_wp s1) ?_ fun _ _ h => h
    rintro _ s2 ⟨t0, t1, t2, t3, r2, ht⟩
    exact ⟨ev, hev, .inr ⟨t0, t1, t2, t3, trivial, r1.trans r2, ht⟩⟩
  · simp only [inIdleState, beq_eq_false_iff_ne.mpr hr, Bool.false_eq_true, if_false, Link.wp_pure]
    exact ⟨ev, hev, .inl ⟨hr, r1, htr⟩⟩

/-- CMD16 (R104): the classification is kept on R1 = 0 and lost otherwise. -/
theorem cmd16_wp (s : State) :
    cmd16.wp (fun r s' => ∃ ev, CommandTrace cmd16Value 512 ev r ∧ Ran s s' ev ∧
      s'.ty = if r = 0 then s.ty else .none) anyFault s := by
  rw [cmd16, Link.wp_bind]
  refine Link.wp_mono (sendCommand_wp sendKept_ty cmd16Value blockLengthArg s) ?_ fun _ _ h => h
  rintro r s1 ⟨⟨ev, hev, r1⟩, hty⟩
  by_cases hr : r = 0
  · subst hr
    exact ⟨ev, hev, r1, by simpa using hty⟩
  · simp only [isReady, beq_eq_false_iff_ne.mpr hr, Bool.false_eq_true, if_false, Link.wp_andThen, setTy,
      Link.wp_modify, Link.wp_pure]
    exact ⟨ev, hev, r1.of_eq rfl rfl rfl rfl rfl, by rw [if_neg hr]⟩

/-- CMD16 as it ends identification (R126, R129). -/
theorem cmd16_length (s : State) :
    cmd16.wp (fun _ s' => ∃ ev, LengthTrace s.ty ev s'.ty ∧ Ran s s' ev) anyFault s := by
  refine Link.wp_mono (cmd16_wp s) ?_ fun _ _ h => h
  rintro r s' ⟨ev, hev, hr, hty⟩
  refine ⟨ev, ?_, hr⟩
  by_cases h0 : r = 0
  · subst h0
    rw [hty]
    exact .kept ev hev
  · rw [hty, if_neg h0]
    exact .lost ev r hev h0

/-- CMD58 (R112): the OCR is read and the card classified where R1 is 0, and only there. -/
theorem cmd58_wp (s : State) :
    cmd58.wp (fun r s' => ∃ ev, CommandTrace cmd58Value 0 ev r ∧
      ((r ≠ 0 ∧ Ran s s' ev ∧ s'.ty = s.ty ∧ s'.trail = s.trail) ∨
        ∃ t0 t1 t2 t3, r = 0 ∧ Ran s s' (ev ++ reads [t0, t1, t2, t3]) ∧ s'.trail = ⟨t0, t1, t2, t3⟩ ∧
          s'.ty = if t0.getLsbD 6 then .sdc else .sd2)) anyFault s := by
  rw [cmd58, Link.wp_bind]
  refine Link.wp_mono (Link.wp_keeps (sendCommand_keeps sendKept_trail _ _)
    (sendCommand_wp sendKept_ty cmd58Value 0 s)) ?_ fun _ _ h => h.1
  rintro r s1 ⟨⟨⟨ev, hev, r1⟩, hty⟩, htr⟩
  by_cases hr : r = 0
  · subst hr
    simp only [isReady, beq_self_eq_true, if_true, Link.wp_andThen, Link.wp_pure, readOcr, Link.wp_reading, setTy,
      Link.wp_modify]
    refine Link.wp_mono (readTrail_wp s1) ?_ fun _ _ h => h
    rintro _ s2 ⟨t0, t1, t2, t3, r2, ht⟩
    refine ⟨ev, hev, .inr ⟨t0, t1, t2, t3, trivial, (r1.trans r2).of_eq rfl rfl rfl rfl rfl, ht, ?_⟩⟩
    simp only [ccs, ht]
  · simp only [isReady, beq_eq_false_iff_ne.mpr hr, Bool.false_eq_true, if_false, Link.wp_pure]
    exact ⟨ev, hev, .inl ⟨hr, r1, hty, htr⟩⟩

/-! The data commands. -/

/-- What a read does to the buffer: the blocks received stand from `off` on, every other byte is as before. -/
theorem BlocksInTrace.length_le {n : Nat} {ev : List Event} {blocks : List (List Byte)}
    (h : BlocksInTrace n ev blocks) : blocks.length ≤ n := by
  induction h with
  | done => simp
  | failed => simp
  | more n ev rest data blocks hb _ ih => simp; omega

theorem BlocksInTrace.block_length {n : Nat} {ev : List Event} {blocks : List (List Byte)}
    (h : BlocksInTrace n ev blocks) : ∀ b ∈ blocks, b.length = 512 := by
  induction h with
  | done => simp
  | failed => simp
  | more n ev rest data blocks hb _ ih =>
    cases hb with
    | received k _ c0 c1 hk hlen => simpa [hlen] using ih

/-- The loop of receive_datablocks (R150): block `i` of the loop goes to the offset `(done + i) * 512`. -/
theorem receiveBlocks_wp (n : Nat) (s : State) (hn : s.done.toNat + n < 2 ^ 32) :
    (receiveBlocks n).wp (fun _ s' => ∃ ev blocks, BlocksInTrace n ev blocks ∧ Ran s s' ev ∧
      s'.done.toNat = s.done.toNat + blocks.length ∧ s'.count = s.count ∧
      s'.buf = ⟨s.buf.size, s.buf.cells.store (s.done.toNat * 512) blocks.flatten⟩) anyFault s := by
  induction n generalizing s with
  | zero => exact ⟨[], [], .done, Ran.refl s, rfl, rfl, rfl⟩
  | succ n ih =>
    simp only [receiveBlocks, Link.wp_bind, Link.wp_reading]
    refine Link.wp_mono (Link.wp_keeps (receiveDatablock_keeps blockInKept_count _ _)
      (Link.wp_keeps (receiveDatablock_keeps blockInKept_done _ _) (receiveDatablock_wp s.blockOffset 512 s))) ?_
      fun _ _ h => h.1.1
    rintro got s1 ⟨⟨⟨ev, d, hb, rfl, r1, hbuf⟩, hdone⟩, hcount⟩
    simp only [Same] at hdone hcount
    cases d with
    | none =>
      exact ⟨ev, [], .failed n ev hb, r1, by simp [hdone], hcount, by simpa [State.blockOffset] using hbuf⟩
    | some data =>
      have hlen : data.length = 512 := by cases hb with | received k _ c0 c1 hk hlen => exact hlen
      simp only [Option.isSome_some, if_true, Link.wp_andThen, Link.wp_reading, setDone, Link.wp_modify]
      have hd1 : (s1.done + 1).toNat = s.done.toNat + 1 := by
        rw [hdone, BitVec.toNat_add, show (1 : BitVec 32).toNat = 1 from rfl]
        omega
      refine Link.wp_mono (ih _ (by simp only [hd1]; omega)) ?_ fun _ _ h => h
      rintro _ s2 ⟨rest, blocks, hbs, r2, hd2, hc2, hbuf2⟩
      refine ⟨ev ++ rest, data :: blocks, .more n ev rest data blocks hb hbs,
        r1.trans (r2.of_start rfl rfl rfl rfl rfl), ?_, ?_, ?_⟩
      · simp only [hd1] at hd2
        simp only [hd2, List.length_cons]
        omega
      · exact Eq.trans hc2 hcount
      · simp only [hd1] at hbuf2
        rw [hbuf2]
        simp only [hbuf, List.flatten_cons, Memory.store_append, Option.getD_some, hlen, State.blockOffset,
          Config.blockSize]
        rw [show (s.done.toNat + 1) * 512 = s.done.toNat * 512 + 512 by omega]

/-- CMD17 (R105). -/
theorem cmd17_wp (addr : Word) (s : State) :
    (cmd17 addr).wp (fun ok s' => ∃ ev blocks, SingleReadTrace addr ev blocks ok ∧ Ran s s' ev ∧
      s'.buf = ⟨s.buf.size, s.buf.cells.store 0 blocks.flatten⟩) anyFault s := by
  rw [cmd17, Link.wp_bind]
  refine Link.wp_mono (sendCommand_wp sendKept_buf cmd17Value addr s) ?_ fun _ _ h => h
  rintro r s1 ⟨⟨ev, hev, r1⟩, hbuf⟩
  by_cases hr : r = 0
  · subst hr
    simp only [isReady, beq_self_eq_true, if_true]
    refine Link.wp_mono (receiveDatablock_wp 0 512 s1) ?_ fun _ _ h => h
    rintro got s2 ⟨ev2, d, hb, rfl, r2, hbuf2⟩
    rw [hbuf] at hbuf2
    cases d with
    | none => exact ⟨_, [], .failed ev ev2 hev hb, r1.trans r2, hbuf2⟩
    | some data => exact ⟨_, [data], .stored ev ev2 data hev hb, r1.trans r2, by simpa using hbuf2⟩
  · simp only [isReady, beq_eq_false_iff_ne.mpr hr, Bool.false_eq_true, if_false]
    exact ⟨ev, [], .rejected ev r hev hr, r1, hbuf⟩

/-- CMD18 (R106, R150). -/
theorem cmd18_wp (addr : Word) (s : State) :
    (cmd18 addr).wp (fun ok s' => ∃ ev blocks, MultiReadTrace addr s.count.toNat ev blocks ok ∧ Ran s s' ev ∧
      s'.done.toNat = blocks.length ∧ s'.buf = ⟨s.buf.size, s.buf.cells.store 0 blocks.flatten⟩) anyFault s := by
  simp only [cmd18, setDone, Link.wp_andThen, Link.wp_modify, Link.wp_bind]
  refine Link.wp_mono (Link.wp_keeps (sendCommand_keeps sendKept_count _ _)
    (Link.wp_keeps (sendCommand_keeps sendKept_done _ _) (sendCommand_wp sendKept_buf cmd18Value addr _))) ?_
    fun _ _ h => h.1.1
  rintro r s1 ⟨⟨⟨⟨ev, hev, r1⟩, hbuf⟩, hdone⟩, hcount⟩
  replace hdone : s1.done = 0 := hdone
  replace hcount : s1.count = s.count := hcount
  replace r1 : Ran s s1 ev := r1.of_start rfl rfl rfl rfl rfl
  by_cases hr : r = 0
  · subst hr
    simp only [isReady, beq_self_eq_true, if_true, Link.wp_reading, Link.wp_andThen, cmd12]
    have hlt := s.count.isLt
    refine Link.wp_mono (receiveBlocks_wp s1.count.toNat s1 (by simp only [hdone, hcount]; simpa using hlt)) ?_
      fun _ _ h => h
    rintro _ s2 ⟨ev2, blocks, hbs, r2, hd2, hc2, hbuf2⟩
    refine Link.wp_mono (Link.wp_keeps (sendCommand_keeps sendKept_count _ _)
      (Link.wp_keeps (sendCommand_keeps sendKept_done _ _) (sendCommand_wp sendKept_buf cmd12Value 0 s2))) ?_
      fun _ _ h => h.1.1
    rintro r12 s3 ⟨⟨⟨⟨ev3, hev3, r3⟩, hbuf3⟩, hdone3⟩, hcount3⟩
    simp only [Same] at hdone3 hcount3
    have hok : (s3.done == s3.count) = (blocks.length == s.count.toNat) := by
      rw [hdone3, hcount3, hc2, hcount, Bool.eq_iff_iff, beq_iff_eq, beq_iff_eq, ← BitVec.toNat_inj, hd2, hdone]
      simp
    simp only [Link.wp_pure, hok]
    rw [hcount] at hbs
    refine ⟨_, blocks, .opened ev ev2 ev3 blocks r12 hev hbs hev3, r1.trans (r2.trans r3), ?_, ?_⟩
    · rw [hdone3, hd2, hdone]
      simp
    · rw [hbuf3, hbuf2, hbuf, hdone]
      simp
  · simp only [isReady, beq_eq_false_iff_ne.mpr hr, Bool.false_eq_true, if_false, Link.wp_pure, Link.wp_reading]
    have hok : (s1.done == s1.count) = (0 == s.count.toNat) := by
      rw [hdone, hcount, Bool.eq_iff_iff, beq_iff_eq, beq_iff_eq, ← BitVec.toNat_inj]
      simp
    rw [hok]
    exact ⟨ev, [], .rejected ev r hev hr, r1, by rw [hdone]; rfl, hbuf⟩

theorem BlocksOutTrace.le {payloads : List (List Byte)} {ev : List Event} {k : Nat}
    (h : BlocksOutTrace payloads ev k) : k ≤ payloads.length := by
  induction h with
  | done => simp
  | failed => simp
  | more payload later ev rest k hb _ ih => simp; omega

/-- The loop of transmit_datablocks (R153). -/
theorem transmitBlocks_wp (n : Nat) (s : State) (hn : s.done.toNat + n < 2 ^ 32) :
    (transmitBlocks n).wp (fun _ s' => ∃ ev k,
      BlocksOutTrace ((List.range' s.done.toNat n).map s.block) ev k ∧ Ran s s' ev ∧
      s'.done.toNat = s.done.toNat + k ∧ s'.count = s.count ∧ s'.buf = s.buf) anyFault s := by
  induction n generalizing s with
  | zero => exact ⟨[], 0, .done, Ran.refl s, rfl, rfl, rfl⟩
  | succ n ih =>
    simp only [transmitBlocks, Link.wp_bind, Link.wp_reading]
    refine Link.wp_mono (Link.wp_keeps (transmitDatablock_keeps blockOutKept_count _ _)
      (Link.wp_keeps (transmitDatablock_keeps blockOutKept_buf _ _)
      (Link.wp_keeps (transmitDatablock_keeps blockOutKept_done _ _)
        (transmitDatablock_wp s.blockOffset .startMultiWrite s)))) ?_ fun _ _ h => h.1.1.1
    rintro ok s1 ⟨⟨⟨⟨ev, hb, r1⟩, hdone⟩, hbuf⟩, hcount⟩
    simp only [Same] at hdone hcount hbuf
    have hrange : (List.range' s.done.toNat (n + 1)).map s.block
        = s.block s.done.toNat :: (List.range' (s.done.toNat + 1) n).map s.block := by
      rw [List.range'_succ, List.map_cons]
    rw [hrange]
    cases ok with
    | false => exact ⟨ev, 0, .failed _ _ ev hb, r1, by simp [hdone], hcount, hbuf⟩
    | true =>
      simp only [if_true, Link.wp_andThen, Link.wp_reading, setDone, Link.wp_modify]
      have hd1 : (s1.done + 1).toNat = s.done.toNat + 1 := by
        rw [hdone, BitVec.toNat_add, show (1 : BitVec 32).toNat = 1 from rfl]
        omega
      refine Link.wp_mono (ih _ (by simp only [hd1]; omega)) ?_ fun _ _ h => h
      rintro _ s2 ⟨rest, k, hbs, r2, hd2, hc2, hbuf2⟩
      have hblock : State.block { s1 with done := s1.done + 1 } = s.block := by
        funext i
        simp only [State.block, State.bufByte, hbuf]
      simp only [hd1, hblock] at hbs hd2
      exact ⟨ev ++ rest, k + 1, .more _ _ ev rest k hb hbs, r1.trans (r2.of_start rfl rfl rfl rfl rfl), by omega,
        Eq.trans hc2 hcount, Eq.trans hbuf2 hbuf⟩

theorem State.block_zero (s : State) : s.block 0 = (List.range 512).map fun j => s.bufByte (0 + j) := by
  simp [State.block]

/-- CMD24 (R108). -/
theorem cmd24_wp (addr : Word) (s : State) :
    (cmd24 addr).wp (fun ok s' => ∃ ev, SingleWriteTrace addr (s.block 0) ev ok ∧ Ran s s' ev) anyFault s := by
  rw [cmd24, Link.wp_bind]
  refine Link.wp_mono (sendCommand_wp sendKept_buf cmd24Value addr s) ?_ fun _ _ h => h
  rintro r s1 ⟨⟨ev, hev, r1⟩, hbuf⟩
  by_cases hr : r = 0
  · subst hr
    simp only [isReady, beq_self_eq_true, if_true]
    refine Link.wp_mono (transmitDatablock_wp 0 .startBlock s1) ?_ fun _ _ h => h
    rintro ok s2 ⟨ev2, hb, r2⟩
    have hblock : (List.range 512).map (fun j => s1.bufByte (0 + j)) = s.block 0 := by
      rw [State.block_zero]
      simp only [State.bufByte, hbuf]
    rw [hblock] at hb
    exact ⟨_, .sent ev ev2 ok hev hb, r1.trans r2⟩
  · simp only [isReady, beq_eq_false_iff_ne.mpr hr, Bool.false_eq_true, if_false]
    exact ⟨ev, .rejected ev r hev hr, r1⟩

/-- CMD25 (R109, R153). -/
theorem cmd25_wp (addr : Word) (s : State) :
    (cmd25 addr).wp (fun ok s' => ∃ ev, MultiWriteTrace addr (s.blocks s.count.toNat) ev ok ∧ Ran s s' ev)
      anyFault s := by
  simp only [cmd25, setDone, Link.wp_andThen, Link.wp_modify, Link.wp_bind]
  refine Link.wp_mono (Link.wp_keeps (sendCommand_keeps sendKept_count _ _)
    (Link.wp_keeps (sendCommand_keeps sendKept_done _ _) (sendCommand_wp sendKept_buf cmd25Value addr _))) ?_
    fun _ _ h => h.1.1
  rintro r s1 ⟨⟨⟨⟨ev, hev, r1⟩, hbuf⟩, hdone⟩, hcount⟩
  replace hdone : s1.done = 0 := hdone
  replace hcount : s1.count = s.count := hcount
  replace r1 : Ran s s1 ev := r1.of_start rfl rfl rfl rfl rfl
  by_cases hr : r = 0
  · subst hr
    simp only [isReady, beq_self_eq_true, if_true, Link.wp_reading, Link.wp_andThen, Link.wp_bind]
    have hlt := s.count.isLt
    refine Link.wp_mono (transmitBlocks_wp s1.count.toNat s1 (by simp only [hdone, hcount]; simpa using hlt)) ?_
      fun _ _ h => h
    rintro _ s2 ⟨ev2, k, hbs, r2, hd2, hc2, hbuf2⟩
    refine Link.wp_mono (Link.wp_keeps (transmitDatablock_keeps blockOutKept_count _ _)
      (Link.wp_keeps (transmitDatablock_keeps blockOutKept_done _ _) (transmitDatablock_wp 0 .stopTran s2))) ?_
      fun _ _ h => h.1.1
    rintro st s3 ⟨⟨⟨ev3, hstop, r3⟩, hdone3⟩, hcount3⟩
    simp only [Same] at hdone3 hcount3
    have hok : (s3.done == s3.count) = (k == (s.blocks s.count.toNat).length) := by
      rw [hdone3, hcount3, hc2, hcount, Bool.eq_iff_iff, beq_iff_eq, beq_iff_eq, ← BitVec.toNat_inj, hd2, hdone]
      simp [State.blocks]
    simp only [Link.wp_pure, hok]
    have hblocks : (List.range' s1.done.toNat s1.count.toNat).map s1.block = s.blocks s.count.toNat := by
      rw [hdone, hcount, State.blocks, List.range_eq_range']
      refine List.map_congr_left fun i _ => ?_
      simp only [State.block, State.bufByte, hbuf]
    rw [hblocks] at hbs
    exact ⟨_, .opened ev ev2 ev3 k st hev hbs hstop.stop_payload, r1.trans (r2.trans r3)⟩
  · simp only [isReady, beq_eq_false_iff_ne.mpr hr, Bool.false_eq_true, if_false, Link.wp_pure]
    exact ⟨ev, .rejected ev r hev hr, r1⟩

end Sys2Proof.Machine
end

