-- ==== Sys2Proof/Laws/Initializer.lean ====
section
/-! SUPPORT. What disk_initialize can do, phase by phase (42_card_initializer R120 to R131): the links' traces are those of
the decision table R132, and the classification is the one the trace gives. -/

namespace Sys2Proof.Machine

/-! The retry loops (R125, R128). -/

theorem retryLoop_wp (cmd : Command) (arg : Word) (n : Nat) (s : State) :
    (retryLoop (sendCommand cmd arg) n).wp (fun ok s' => ∃ ev, RetryTrace cmd arg n ev ok ∧ Ran s s' ev ∧
      s'.ty = s.ty) anyFault s := by
  induction n generalizing s with
  | zero => exact ⟨[], .exhausted, Ran.refl s, rfl⟩
  | succ n ih =>
    simp only [retryLoop, countIter, Link.wp_andThen, Link.wp_modify, Link.wp_bind]
    refine Link.wp_mono (sendCommand_wp sendKept_ty cmd arg _) ?_ fun _ _ h => h
    rintro r s1 ⟨⟨ev, hev, r1⟩, hty⟩
    replace r1 : Ran s s1 ev := r1.of_start rfl rfl rfl rfl rfl
    replace hty : s1.ty = s.ty := hty
    by_cases hr : r = 0
    · subst hr
      exact ⟨ev, .ready n ev hev, r1, hty⟩
    · simp only [isReady, beq_eq_false_iff_ne.mpr hr, Bool.false_eq_true, if_false]
      refine Link.wp_mono (ih s1) ?_ fun _ _ h => h
      rintro ok s2 ⟨rest, hrest, r2, hty2⟩
      exact ⟨ev ++ rest, .again n ev rest r ok hev hr hrest, r1.trans r2, hty2.trans hty⟩

theorem retryCommand_wp (cmd : Command) (arg : Word) (s : State) :
    (retryCommand (sendCommand cmd arg)).wp (fun ok s' => ∃ ev, RetryTrace cmd arg 1000 ev ok ∧ Ran s s' ev ∧
      s'.ty = s.ty) anyFault s := by
  simp only [retryCommand, startIter, Link.wp_andThen, Link.wp_modify]
  refine Link.wp_mono (retryLoop_wp cmd arg 1000 _) ?_ fun _ _ h => h
  rintro ok s' ⟨ev, hev, hr, hty⟩
  exact ⟨ev, hev, hr.of_start rfl rfl rfl rfl rfl, hty⟩

/-! Phases. -/

/-- The phase `seq` names runs. -/
theorem nextPhase_wp {s : State} {q : Seq} (hq : s.seq = q) (Q : Unit → State → Prop) (F : Nat → State → Prop) :
    nextPhase.wp Q F s ↔ (phaseOf q).wp Q F s := by
  subst hq
  exact Iff.rfl

/-- `Ready` and `Failed` are left only by the conclusion. -/
theorem nextPhase_wp_ended {s : State} (hs : s.seq = .ready ∨ s.seq = .failed) (Q : Unit → State → Prop)
    (F : Nat → State → Prop) : nextPhase.wp Q F s ↔ Q () s := by
  rcases hs with h | h <;> rw [nextPhase_wp h] <;> exact Iff.rfl

theorem phaseReset_wp (s : State) :
    phaseReset.wp (fun _ s' => ∃ dropped : List Byte, dropped.length = 10 ∧
      Ran s s' (.sel :: writes (List.replicate 10 0xFF) dropped) ∧ s'.ty = .none ∧ s'.seq = .idleOrFail)
      anyFault s := by
  simp only [phaseReset, Link.wp_andThen, setTy, setSeq, select, Link.wp_modify]
  refine Link.wp_mono (Link.wp_keeps (writeBytes_keeps readKept_ty _) (writeBytes_sound _ _)) ?_ fun _ _ h => h.1
  rintro _ s1 ⟨⟨_, ⟨rxs, hlen, rfl⟩, r1⟩, hty⟩
  refine ⟨rxs, by simpa using hlen, ?_, hty, trivial⟩
  have h0 : Ran s { s with ty := .none, cs := .asserted, trace := s.trace ++ [.sel] } [.sel] :=
    (Ran.sel s).of_eq rfl rfl rfl rfl rfl
  exact (h0.trans r1).of_eq rfl rfl rfl rfl rfl

theorem phaseIdleOrFail_wp (s : State) :
    phaseIdleOrFail.wp (fun _ s' => ∃ ev r, CommandTrace cmd0Value 0 ev r ∧ Ran s s' ev ∧ s'.ty = s.ty ∧
      s'.seq = if r = 1 then .voltageCheck else .failed) anyFault s := by
  simp only [phaseIdleOrFail, Link.wp_bind, setSeq, Link.wp_modify, cmd0]
  refine Link.wp_mono (sendCommand_wp sendKept_ty cmd0Value 0 s) ?_ fun _ _ h => h
  rintro r s1 ⟨⟨ev, hev, r1⟩, hty⟩
  refine ⟨ev, r, hev, r1.of_eq rfl rfl rfl rfl rfl, hty, ?_⟩
  simp only [inIdleState, beq_iff_eq]

theorem cmd8_keeps_ty : cmd8.Keeps (Same State.ty) :=
  .bind (Same.composes _) (sendCommand_keeps sendKept_ty _ _) fun r => by
    split
    · exact .andThen (Same.composes _) (readTrail_keeps readKept_ty fun _ _ => rfl) (.pure (Same.composes _) r)
    · exact .pure (Same.composes _) r

/-- What the check of CMD8's answer finds (R123, R124). -/
inductive VoltageTrace : List Event → Seq → Prop
  | legacy (ev : List Event) (r : Byte) : CommandTrace cmd8Value 0x1AA ev r → r ≠ 1 → VoltageTrace ev .legacyInit
  | noEcho (ev : List Event) (t0 t1 t2 t3 : Byte) : CommandTrace cmd8Value 0x1AA ev 1 → ¬ (t2 = 0x01 ∧ t3 = 0xAA) →
      VoltageTrace (ev ++ reads [t0, t1, t2, t3]) .failed
  | echo (ev : List Event) (t0 t1 : Byte) : CommandTrace cmd8Value 0x1AA ev 1 →
      VoltageTrace (ev ++ reads [t0, t1, 0x01, 0xAA]) .advancedInit

theorem phaseVoltageCheck_wp (s : State) :
    phaseVoltageCheck.wp (fun _ s' => ∃ ev, VoltageTrace ev s'.seq ∧ Ran s s' ev ∧ s'.ty = s.ty) anyFault s := by
  simp only [phaseVoltageCheck, Link.wp_bind]
  refine Link.wp_mono (Link.wp_keeps cmd8_keeps_ty (cmd8_wp s)) ?_ fun _ _ h => h.1
  rintro r s1 ⟨⟨ev, hev, h⟩, hty⟩
  rcases h with ⟨hr, r1, _⟩ | ⟨t0, t1, t2, t3, rfl, r1, ht⟩
  · simp only [inIdleState, beq_eq_false_iff_ne.mpr hr, Bool.false_eq_true, if_false, setSeq, Link.wp_modify]
    exact ⟨ev, .legacy ev r hev hr, r1.of_eq rfl rfl rfl rfl rfl, hty⟩
  · simp only [inIdleState, beq_self_eq_true, if_true, Link.wp_reading, setSeq, Link.wp_modify, echoOk, ht]
    refine ⟨_, ?_, r1.of_eq rfl rfl rfl rfl rfl, hty⟩
    by_cases he : t2 = 0x01 ∧ t3 = 0xAA
    · obtain ⟨rfl, rfl⟩ := he
      exact .echo ev t0 t1 hev
    · rw [if_neg (by simpa using he)]
      exact .noEcho ev t0 t1 t2 t3 hev he

theorem phaseAdvancedInit_wp (s : State) :
    phaseAdvancedInit.wp (fun _ s' => ∃ ev ok, RetryTrace acmd41Value 0x40000000 1000 ev ok ∧ Ran s s' ev ∧
      s'.ty = s.ty ∧ s'.seq = if ok then .capacityCheck else .failed) anyFault s := by
  simp only [phaseAdvancedInit, Link.wp_bind, setSeq, Link.wp_modify]
  refine Link.wp_mono (retryCommand_wp acmd41Value (opCondArg true) s) ?_ fun _ _ h => h
  rintro ok s1 ⟨ev, hev, r1, hty⟩
  exact ⟨ev, ok, hev, r1.of_eq rfl rfl rfl rfl rfl, hty, rfl⟩

/-- The legacy path before CMD16: exhausted with no type, or a type to confirm (R127, R128). -/
inductive LegacyHead : List Event → CardType → Prop
  | sd1Exhausted (probe loop : List Event) (r : Byte) : CommandTrace acmd41Value 0 probe r → r.toNat ≤ 1 →
      RetryTrace acmd41Value 0 1000 loop false → LegacyHead (probe ++ loop) .none
  | sd1 (probe loop : List Event) (r : Byte) : CommandTrace acmd41Value 0 probe r → r.toNat ≤ 1 →
      RetryTrace acmd41Value 0 1000 loop true → LegacyHead (probe ++ loop) .sd1
  | mmcExhausted (probe loop : List Event) (r : Byte) : CommandTrace acmd41Value 0 probe r → 1 < r.toNat →
      RetryTrace cmd1Value 0 1000 loop false → LegacyHead (probe ++ loop) .none
  | mmc (probe loop : List Event) (r : Byte) : CommandTrace acmd41Value 0 probe r → 1 < r.toNat →
      RetryTrace cmd1Value 0 1000 loop true → LegacyHead (probe ++ loop) .mmc

theorem phaseLegacyInit_wp (s : State) :
    phaseLegacyInit.wp (fun _ s' => ∃ ev, LegacyHead ev s'.ty ∧ Ran s s' ev ∧
      s'.seq = if s'.ty = .none then .failed else .capacityCheck) anyFault s := by
  simp only [phaseLegacyInit, Link.wp_bind, Link.wp_andThen, acmd41]
  refine Link.wp_mono (sendCommand_sound acmd41Value (opCondArg false) s) ?_ fun _ _ h => h
  rintro r s1 ⟨probe, hprobe, r1⟩
  by_cases hf : isFatal r = true
  · simp only [classifyLegacy, hf, if_true, Link.wp_andThen, setTy, setRc, Link.wp_modify, Link.wp_reading]
    refine Link.wp_mono (retryCommand_wp cmd1Value 0 _) ?_ fun _ _ h => h
    rintro ok s2 ⟨loop, hloop, r2, hty⟩
    have hrun : Ran s s2 (probe ++ loop) := r1.trans (r2.of_start rfl rfl rfl rfl rfl)
    replace hty : s2.ty = .mmc := hty
    have hr := (isFatal_iff r).mp hf
    cases ok with
    | false => exact ⟨_, .mmcExhausted probe loop r hprobe hr hloop, hrun.of_eq rfl rfl rfl rfl rfl, rfl⟩
    | true =>
      refine ⟨_, ?_, hrun.of_eq rfl rfl rfl rfl rfl, ?_⟩
      · simpa [hty] using LegacyHead.mmc probe loop r hprobe hr hloop
      · simp [hty]
  · have hr : r.toNat ≤ 1 := by rw [isFatal_iff] at hf; omega
    simp only [classifyLegacy, hf, Bool.false_eq_true, if_false, Link.wp_andThen, setTy, setRc, Link.wp_modify,
      Link.wp_reading]
    refine Link.wp_mono (retryCommand_wp acmd41Value 0 _) ?_ fun _ _ h => h
    rintro ok s2 ⟨loop, hloop, r2, hty⟩
    have hrun : Ran s s2 (probe ++ loop) := r1.trans (r2.of_start rfl rfl rfl rfl rfl)
    replace hty : s2.ty = .sd1 := hty
    cases ok with
    | false => exact ⟨_, .sd1Exhausted probe loop r hprobe hr hloop, hrun.of_eq rfl rfl rfl rfl rfl, rfl⟩
    | true =>
      refine ⟨_, ?_, hrun.of_eq rfl rfl rfl rfl rfl, ?_⟩
      · simpa [hty] using LegacyHead.sd1 probe loop r hprobe hr hloop
      · simp [hty]

/-- The end of the v2 path (R126). -/
inductive CapacityTrace : List Event → CardType → Prop
  | noOcr (ev : List Event) (r : Byte) : CommandTrace cmd58Value 0 ev r → r ≠ 0 → CapacityTrace ev .none
  | classified (ev len : List Event) (t0 t1 t2 t3 : Byte) (ct : CardType) : CommandTrace cmd58Value 0 ev 0 →
      LengthTrace (if t0.getLsbD 6 then .sdc else .sd2) len ct →
      CapacityTrace (ev ++ (reads [t0, t1, t2, t3] ++ len)) ct

theorem checkCapacity_wp (s : State) (hs : s.ty = .none) :
    checkCapacity.wp (fun _ s' => ∃ ev, CapacityTrace ev s'.ty ∧ Ran s s' ev) anyFault s := by
  simp only [checkCapacity, Link.wp_bind]
  refine Link.wp_mono (cmd58_wp s) ?_ fun _ _ h => h
  rintro r s1 ⟨ev, hev, h⟩
  rcases h with ⟨hr, r1, hty, _⟩ | ⟨t0, t1, t2, t3, rfl, r1, ht, hty⟩
  · simp only [isReady, beq_eq_false_iff_ne.mpr hr, Bool.false_eq_true, if_false, Link.wp_pure]
    exact ⟨ev, by rw [hty, hs]; exact .noOcr ev r hev hr, r1⟩
  · simp only [isReady, beq_self_eq_true, if_true, Link.wp_andThen, Link.wp_pure]
    refine Link.wp_mono (cmd16_length s1) ?_ fun _ _ h => h
    rintro _ s2 ⟨len, hlen, r2⟩
    rw [hty] at hlen
    exact ⟨_, .classified ev len t0 t1 t2 t3 _ hev hlen, by simpa using r1.trans r2⟩

theorem phaseCapacityCheck_wp (s : State) :
    phaseCapacityCheck.wp (fun _ s' => ∃ ev, (if s.ty = .none then CapacityTrace ev s'.ty else
      LengthTrace s.ty ev s'.ty) ∧ Ran s s' ev ∧ (s'.seq = .ready ∨ s'.seq = .failed)) anyFault s := by
  simp only [phaseCapacityCheck, Link.wp_reading, Link.wp_andThen, setSeq, Link.wp_modify]
  have hend : ∀ t : State, (if t.ty = .none then Seq.failed else .ready) = .ready ∨
      (if t.ty = .none then Seq.failed else .ready) = .failed := fun t => by split <;> simp
  by_cases hty : s.ty = .none
  · simp only [hty, if_true]
    refine Link.wp_mono (checkCapacity_wp s hty) ?_ fun _ _ h => h
    rintro _ s1 ⟨ev, hev, r1⟩
    exact ⟨ev, hev, r1.of_eq rfl rfl rfl rfl rfl, hend s1⟩
  · simp only [hty, if_false, Link.wp_andThen, Link.wp_pure]
    refine Link.wp_mono (cmd16_length s) ?_ fun _ _ h => h
    rintro _ s1 ⟨ev, hev, r1⟩
    exact ⟨ev, hev, r1.of_eq rfl rfl rfl rfl rfl, hend s1⟩

/-- The conclusion (R130, R131). -/
theorem phaseConclude_wp (s : State) (Q : Result → State → Prop) (F : Nat → State → Prop) :
    phaseConclude.wp Q F s ↔
      Q (if s.ty = .none then .notReady else .ok) ({ s with cardType := s.ty } : State).deselected := Iff.rfl

/-- The whole chain, from `Reset` on (R131): its trace is one of the grammar, `CardType` is what the trace gives, the
result is OK iff that is not None. -/
theorem initializeCard_wp (s : State) (hs : s.seq = .reset) :
    initializeCard.wp (fun r s' => ∃ ev ct, InitializeTrace ev ct ∧ Ran s s' (ev ++ [.des]) ∧ s'.cardType = ct ∧
      r = if ct = .none then .notReady else .ok) anyFault s := by
  have conclude : ∀ {t : State} {dropped : List Byte} {ev : List Event}, dropped.length = 10 →
      Ran s t (.sel :: writes (List.replicate 10 0xFF) dropped ++ ev) → IdentifyTrace ev t.ty →
      phaseConclude.wp (fun r s' => ∃ ev ct, InitializeTrace ev ct ∧ Ran s s' (ev ++ [.des]) ∧ s'.cardType = ct ∧
        r = if ct = .none then .notReady else .ok) anyFault t := by
    intro t dropped ev hlen hr hev
    rw [phaseConclude_wp]
    have hd : Ran t ({ t with cardType := t.ty } : State).deselected [.des] := (Ran.des t).of_eq rfl rfl rfl rfl rfl
    refine ⟨_, t.ty, .woken dropped ev t.ty hlen hev, ?_, rfl, rfl⟩
    simpa using hr.trans hd
  simp only [initializeCard, Link.wp_andThen]
  rw [nextPhase_wp hs]
  refine Link.wp_mono (phaseReset_wp s) ?_ fun _ _ h => h
  rintro _ s1 ⟨dropped, hlen, r1, hty1, hq1⟩
  rw [nextPhase_wp hq1]
  refine Link.wp_mono (phaseIdleOrFail_wp s1) ?_ fun _ _ h => h
  rintro _ s2 ⟨ev0, r, hev0, r2, hty2, hq2⟩
  rw [hty1] at hty2
  have r12 := r1.trans r2
  by_cases hr : r = 1
  · subst hr
    rw [nextPhase_wp (q := .voltageCheck) (by simpa using hq2)]
    refine Link.wp_mono (phaseVoltageCheck_wp s2) ?_ fun _ _ h => h
    rintro _ s3 ⟨ev8, hev8, r3, hty3⟩
    rw [hty2] at hty3
    have r13 := r12.trans r3
    generalize hq3 : s3.seq = q3 at hev8
    cases hev8 with
    | legacy _ r8 hcmd8 hr8 =>
      rw [nextPhase_wp hq3]
      refine Link.wp_mono (phaseLegacyInit_wp s3) ?_ fun _ _ h => h
      rintro _ s4 ⟨ev, hev, r4, hq4⟩
      have r14 := r13.trans r4
      by_cases h4 : s4.ty = .none
      · rw [nextPhase_wp_ended (.inr (by rw [hq4, if_pos h4]))]
        refine conclude hlen (by simpa using r14) (.legacy ev0 ev8 ev r8 _ hev0 hcmd8 hr8 ?_)
        rw [h4] at hev ⊢
        generalize hct : CardType.none = ct at hev
        cases hev with
        | sd1Exhausted probe loop r hp hr hl => exact .sd1Exhausted probe loop r hp hr hl
        | mmcExhausted probe loop r hp hr hl => exact .mmcExhausted probe loop r hp hr hl
        | sd1 => cases hct
        | mmc => cases hct
      · rw [nextPhase_wp (q := .capacityCheck) (by rw [hq4, if_neg h4])]
        refine Link.wp_mono (phaseCapacityCheck_wp s4) ?_ fun _ _ h => h
        rintro _ s5 ⟨len, hlen5, r5, _⟩
        rw [if_neg h4] at hlen5
        have r15 := r14.trans r5
        refine conclude (ev := ev0 ++ (ev8 ++ (ev ++ len))) hlen (by simpa using r15)
          (.legacy ev0 ev8 _ r8 _ hev0 hcmd8 hr8 ?_)
        generalize hct : s4.ty = ct at hev hlen5
        cases hev with
        | sd1Exhausted => exact absurd hct h4
        | mmcExhausted => exact absurd hct h4
        | sd1 probe loop r hp hr hl => simpa using LegacyTrace.sd1 probe loop len r _ hp hr hl hlen5
        | mmc probe loop r hp hr hl => simpa using LegacyTrace.mmc probe loop len r _ hp hr hl hlen5
    | noEcho ev8 t0 t1 t2 t3 hcmd8 hno =>
      rw [nextPhase_wp_ended (.inr hq3), nextPhase_wp_ended (.inr hq3)]
      refine conclude hlen (by simpa using r13) ?_
      rw [hty3]
      exact .noEcho ev0 ev8 t0 t1 t2 t3 hev0 hcmd8 hno
    | echo ev8 t0 t1 hcmd8 =>
      rw [nextPhase_wp hq3]
      refine Link.wp_mono (phaseAdvancedInit_wp s3) ?_ fun _ _ h => h
      rintro _ s4 ⟨ev, ok, hev, r4, hty4, hq4⟩
      rw [hty3] at hty4
      have r14 := r13.trans r4
      cases ok with
      | false =>
        rw [nextPhase_wp_ended (.inr hq4)]
        refine conclude (ev := ev0 ++ (ev8 ++ (reads [t0, t1, 0x01, 0xAA] ++ ev))) hlen (by simpa using r14) ?_
        rw [hty4]
        exact .advanced ev0 ev8 ev t0 t1 _ hev0 hcmd8 (.exhausted ev hev)
      | true =>
        rw [nextPhase_wp hq4]
        refine Link.wp_mono (phaseCapacityCheck_wp s4) ?_ fun _ _ h => h
        rintro _ s5 ⟨cap, hcap, r5, _⟩
        rw [if_pos hty4] at hcap
        have r15 := r14.trans r5
        refine conclude (ev := ev0 ++ (ev8 ++ (reads [t0, t1, 0x01, 0xAA] ++ (ev ++ cap)))) hlen
          (by simpa using r15) (.advanced ev0 ev8 _ t0 t1 _ hev0 hcmd8 ?_)
        generalize s5.ty = ct at hcap
        cases hcap with
        | noOcr _ r h hr => exact .noOcr ev cap r hev h hr
        | classified ev58 len u0 u1 u2 u3 _ h hl => exact .classified ev ev58 len u0 u1 u2 u3 ct hev h hl
  · rw [nextPhase_wp_ended (.inr (by rw [hq2, if_neg hr])), nextPhase_wp_ended (.inr (by rw [hq2, if_neg hr])),
      nextPhase_wp_ended (.inr (by rw [hq2, if_neg hr]))]
    refine conclude hlen (by simpa using r12) ?_
    rw [hty2]
    exact .noCard ev0 r hev0 hr

end Sys2Proof.Machine
end

