-- ==== Sys2Proof/Laws/Facade.lean ====
section
/-! SUPPORT. What the host operations besides disk_initialize can do (43_block_transfer R150, R153, R160; 44_disk_facade
R172 to R175). -/

namespace Sys2Proof.Machine

/-- The blocks are the buffer's. -/
theorem State.blocks_congr {s t : State} (h : t.buf = s.buf) (n : Nat) : t.blocks n = s.blocks n := by
  have hb : t.block = s.block := by
    funext i
    simp only [State.block, State.bufByte, h]
  rw [State.blocks, State.blocks, hb]

/-- The transfer of disk_read (R150). -/
theorem readTransfer_wp (s : State) :
    readTransfer.wp (fun ok s' => ∃ ev blocks, ReadTrace (translate s.cardType s.sector) s.count ev blocks ok ∧
      Ran s s' ev ∧ s'.buf = ⟨s.buf.size, s.buf.cells.store 0 blocks.flatten⟩) anyFault s := by
  simp only [readTransfer, translateSector, Link.wp_andThen, Link.wp_modify, Link.wp_reading]
  by_cases hc : s.count = 1
  · rw [if_pos hc]
    refine Link.wp_mono (cmd17_wp _ _) ?_ fun _ _ h => h
    rintro ok s' ⟨ev, blocks, h, hr, hb⟩
    exact ⟨ev, blocks, .single hc h, hr.of_start rfl rfl rfl rfl rfl, hb⟩
  · rw [if_neg hc]
    refine Link.wp_mono (cmd18_wp _ _) ?_ fun _ _ h => h
    rintro ok s' ⟨ev, blocks, h, hr, _, hb⟩
    exact ⟨ev, blocks, .multi hc h, hr.of_start rfl rfl rfl rfl rfl, hb⟩

/-- The transfer of disk_write (R153). -/
theorem writeTransfer_wp (s : State) :
    writeTransfer.wp (fun ok s' => ∃ ev, WriteTrace (translate s.cardType s.sector) s.count (sendsAcmd23 s)
      (s.blocks s.count.toNat) ev ok ∧ Ran s s' ev) anyFault s := by
  simp only [writeTransfer, translateSector, Link.wp_andThen, Link.wp_modify, Link.wp_reading]
  by_cases hc : s.count = 1
  · rw [if_pos hc]
    refine Link.wp_mono (cmd24_wp _ _) ?_ fun _ _ h => h
    rintro ok s' ⟨ev, h, hr⟩
    refine ⟨ev, .single ev (s.block 0) ok hc ?_ h, hr.of_start rfl rfl rfl rfl rfl⟩
    rw [hc]
    rfl
  · rw [if_neg hc, Link.wp_reading, Link.wp_andThen]
    have hpre : Link.wp (if sendsAcmd23 { s with addr := translate s.cardType s.sector } then
        Link.andThen (acmd23 s.count) (Link.pure ()) else Link.pure ())
        (fun _ s' => ((∃ erase, PreEraseTrace s.count (sendsAcmd23 s) erase ∧ Ran s s' erase) ∧
          s'.count = s.count) ∧ s'.buf = s.buf) anyFault { s with addr := translate s.cardType s.sector } := by
      have hs : sendsAcmd23 { s with addr := translate s.cardType s.sector } = sendsAcmd23 s := rfl
      rw [hs]
      cases hse : sendsAcmd23 s with
      | false => exact ⟨⟨⟨[], .skipped, Ran.nil rfl rfl rfl rfl rfl⟩, rfl⟩, rfl⟩
      | true =>
        simp only [if_true, Link.wp_andThen, Link.wp_pure, acmd23]
        refine Link.wp_mono (Link.wp_keeps (sendCommand_keeps sendKept_buf _ _)
          (sendCommand_wp sendKept_count acmd23Value s.count _)) ?_ fun _ _ h => h.1
        rintro r s' ⟨⟨⟨ev, hev, hr⟩, hcount⟩, hbuf⟩
        exact ⟨⟨⟨ev, .sent ev r hev, hr.of_start rfl rfl rfl rfl rfl⟩, hcount⟩, hbuf⟩
    refine Link.wp_mono hpre ?_ fun _ _ h => h
    rintro _ s1 ⟨⟨⟨erase, he, r1⟩, hcount⟩, hbuf⟩
    refine Link.wp_mono (cmd25_wp _ s1) ?_ fun _ _ h => h
    rintro ok s2 ⟨ev, h, r2⟩
    have hblocks : s1.blocks s1.count.toNat = s.blocks s.count.toNat := by
      rw [hcount, State.blocks_congr hbuf]
    rw [hblocks] at h
    exact ⟨_, .multi erase ev ok hc he h, r1.trans r2⟩

/-- The closing Deselect and the verdict. -/
theorem concluding_wp {m : Link Bool} {s : State} {P : List Event → Bool → State → Prop}
    (h : m.wp (fun ok s' => ∃ ev, P ev ok s' ∧ Ran s s' ev) anyFault s) :
    (concluding m).wp (fun r s' => ∃ ev ok t, P ev ok t ∧ Ran s t ev ∧ s' = t.deselected ∧ r = verdict ok)
      anyFault s := by
  simp only [concluding, Link.wp_bind, Link.wp_andThen, deselect, Link.wp_modify, Link.wp_pure]
  refine Link.wp_mono h ?_ fun _ _ h => h
  rintro ok t ⟨ev, hP, hr⟩
  exact ⟨ev, ok, t, hP, hr, rfl, rfl⟩

/-- The gate (R172). -/
theorem gated_wp {body : Link Result} {s : State} (h : s.cardType ≠ .none) (Q : Result → State → Prop)
    (F : Nat → State → Prop) : (gated body).wp Q F s ↔ body.wp Q F s := by
  have hp : cardPresent s.cardType = true := by simpa [cardPresent] using h
  rw [gated, Link.wp_reading, if_pos hp]

theorem gated_wp_absent {body : Link Result} {s : State} (h : s.cardType = .none) (Q : Result → State → Prop)
    (F : Nat → State → Prop) : (gated body).wp Q F s ↔ Q .notReady s := by
  rw [gated, Link.wp_reading, if_neg (by simp [cardPresent, h]), Link.wp_pure]

end Sys2Proof.Machine
end

