-- ==== Sys2Proof/Laws/OpFrames.lean ====
section
/-! SUPPORT. What the wire commands and the host operations leave alone, however they end. -/

namespace Sys2Proof.Machine

variable {R : State → State → Prop}

/-- The changes of `disk_initialize`. -/
structure InitKept (R : State → State → Prop) : Prop extends SendKept R where
  trail : ∀ s t, R s { s with trail := t }
  ty : ∀ s ct, R s { s with ty := ct }
  rc : ∀ s c, R s { s with rc := c }
  iter : ∀ s n, R s { s with iter := n }
  seq : ∀ s q, q.initializing = true → R s { s with seq := q }
  cardType : ∀ s ct, R s { s with cardType := ct }

/-- The changes of `disk_read`. -/
structure FetchKept (R : State → State → Prop) : Prop where
  send : SendKept R
  block : BlockInKept R
  addr : ∀ s a, R s { s with addr := a }
  done : ∀ s n, R s { s with done := n }

/-- The changes of `disk_write`. -/
structure StoreKept (R : State → State → Prop) : Prop where
  send : SendKept R
  block : BlockOutKept R
  addr : ∀ s a, R s { s with addr := a }
  done : ∀ s n, R s { s with done := n }

theorem Link.Keeps.ite {α : Type} {c : Prop} [Decidable c] {a b : Link α} (ha : a.Keeps R) (hb : b.Keeps R) :
    Link.Keeps R (if c then a else b) := by
  split
  · exact ha
  · exact hb

/-! Commands. -/

theorem cmd8_keeps (h : SendKept R) (ht : ∀ s t, R s { s with trail := t }) : cmd8.Keeps R :=
  .bind h.comp (sendCommand_keeps h _ _) fun r =>
    .ite (.andThen h.comp (readTrail_keeps h.toReadKept ht) (.pure h.comp r)) (.pure h.comp r)

theorem cmd16_keeps (h : SendKept R) (hty : ∀ s ct, R s { s with ty := ct }) : cmd16.Keeps R :=
  .bind h.comp (sendCommand_keeps h _ _) fun r =>
    .ite (.pure h.comp r) (.andThen h.comp (fun s => hty s _) (.pure h.comp r))

theorem readOcr_keeps (h : ReadKept R) (ht : ∀ s t, R s { s with trail := t })
    (hty : ∀ s ct, R s { s with ty := ct }) : readOcr.Keeps R :=
  .andThen h.comp (readTrail_keeps h ht) (.reading fun _ s => hty s _)

theorem cmd58_keeps (h : SendKept R) (ht : ∀ s t, R s { s with trail := t })
    (hty : ∀ s ct, R s { s with ty := ct }) : cmd58.Keeps R :=
  .bind h.comp (sendCommand_keeps h _ _) fun r =>
    .ite (.andThen h.comp (readOcr_keeps h.toReadKept ht hty) (.pure h.comp r)) (.pure h.comp r)

theorem cmd17_keeps (h : SendKept R) (hb : BlockInKept R) (addr : Word) : (cmd17 addr).Keeps R :=
  .bind h.comp (sendCommand_keeps h _ _) fun _ => .ite (receiveDatablock_keeps hb _ _) (.pure h.comp _)

theorem receiveBlocks_keeps (hb : BlockInKept R) (hd : ∀ s n, R s { s with done := n }) (n : Nat) :
    (receiveBlocks n).Keeps R := by
  induction n with
  | zero => exact .pure hb.comp _
  | succ n ih =>
    exact .bind hb.comp (.reading fun off => receiveDatablock_keeps hb off _) fun _ =>
      .ite (.andThen hb.comp (.reading fun _ s => hd s _) ih) (.pure hb.comp _)

theorem cmd18_keeps (h : SendKept R) (hb : BlockInKept R) (hd : ∀ s n, R s { s with done := n }) (addr : Word) :
    (cmd18 addr).Keeps R :=
  .andThen h.comp (fun s => hd s _) (.bind h.comp (sendCommand_keeps h _ _) fun _ =>
    .andThen h.comp
      (.ite (.reading fun _ => .andThen h.comp (receiveBlocks_keeps hb hd _)
        (.andThen h.comp (sendCommand_keeps h _ _) (.pure h.comp _))) (.pure h.comp _))
      (.reading fun _ => .pure h.comp _))

theorem cmd24_keeps (h : SendKept R) (hb : BlockOutKept R) (addr : Word) : (cmd24 addr).Keeps R :=
  .bind h.comp (sendCommand_keeps h _ _) fun _ => .ite (transmitDatablock_keeps hb _ _) (.pure h.comp _)

theorem transmitBlocks_keeps (hb : BlockOutKept R) (hd : ∀ s n, R s { s with done := n }) (n : Nat) :
    (transmitBlocks n).Keeps R := by
  induction n with
  | zero => exact .pure hb.comp _
  | succ n ih =>
    exact .bind hb.comp (.reading fun off => transmitDatablock_keeps hb off _) fun _ =>
      .ite (.andThen hb.comp (.reading fun _ s => hd s _) ih) (.pure hb.comp _)

theorem cmd25_keeps (h : SendKept R) (hb : BlockOutKept R) (hd : ∀ s n, R s { s with done := n }) (addr : Word) :
    (cmd25 addr).Keeps R :=
  .andThen h.comp (fun s => hd s _) (.bind h.comp (sendCommand_keeps h _ _) fun _ =>
    .ite (.reading fun _ => .andThen h.comp (transmitBlocks_keeps hb hd _)
      (.bind h.comp (transmitDatablock_keeps hb _ _) fun _ => .reading fun _ => .pure h.comp _))
      (.pure h.comp _))

/-! Host operations. -/

theorem gated_keeps (hR : Composes R) {body : Link Result} (h : body.Keeps R) : (gated body).Keeps R :=
  .reading fun _ => .ite h (.pure hR _)

theorem concluding_keeps (hR : Composes R) (hdes : ∀ s, R s s.deselected) {m : Link Bool} (h : m.Keeps R) :
    (concluding m).Keeps R :=
  .bind hR h fun _ => .andThen hR hdes (.pure hR _)

theorem readTransfer_keeps (h : FetchKept R) : readTransfer.Keeps R :=
  .andThen h.send.comp (fun s => h.addr s _) (.reading fun _ => .reading fun _ =>
    .ite (cmd17_keeps h.send h.block _) (cmd18_keeps h.send h.block h.done _))

theorem readBody_keeps (h : FetchKept R) : readBody.Keeps R :=
  gated_keeps h.send.comp (.reading fun _ => .ite (.pure h.send.comp _)
    (concluding_keeps h.send.comp h.send.des (readTransfer_keeps h)))

theorem writeTransfer_keeps (h : StoreKept R) : writeTransfer.Keeps R :=
  .andThen h.send.comp (fun s => h.addr s _) (.reading fun _ => .reading fun _ =>
    .ite (cmd24_keeps h.send h.block _) (.reading fun _ => .andThen h.send.comp
      (.ite (.andThen h.send.comp (sendCommand_keeps h.send _ _) (.pure h.send.comp _)) (.pure h.send.comp _))
      (cmd25_keeps h.send h.block h.done _)))

theorem writeBody_keeps (h : StoreKept R) : writeBody.Keeps R :=
  gated_keeps h.send.comp (.reading fun _ => .ite (.pure h.send.comp _)
    (concluding_keeps h.send.comp h.send.des (writeTransfer_keeps h)))

theorem ioctlBody_keeps (h : ReadKept R) (hsel : ∀ s, R s { s with cs := .asserted, trace := s.trace ++ [.sel] })
    (hdes : ∀ s, R s s.deselected) : ioctlBody.Keeps R :=
  gated_keeps h.comp (.reading fun _ => .ite
    (.andThen h.comp hsel (concluding_keeps h.comp hdes (waitReady_keeps h _))) (.pure h.comp _))

theorem statusBody_keeps (hR : Composes R) : statusBody.Keeps R := gated_keeps hR (.pure hR _)

theorem reservedBody_keeps (hR : Composes R) : reservedBody.Keeps R := .pure hR _

theorem retryLoop_keeps (hR : Composes R) (hi : ∀ s n, R s { s with iter := n }) {cmd : Link Byte}
    (h : cmd.Keeps R) (n : Nat) : (retryLoop cmd n).Keeps R := by
  induction n with
  | zero => exact .pure hR _
  | succ n ih => exact .andThen hR (fun s => hi s _) (.bind hR h fun _ => .ite (.pure hR _) ih)

theorem retryCommand_keeps (hR : Composes R) (hi : ∀ s n, R s { s with iter := n }) {cmd : Link Byte}
    (h : cmd.Keeps R) : (retryCommand cmd).Keeps R := .andThen hR (fun s => hi s _) (retryLoop_keeps hR hi h _)

theorem phaseOf_keeps (h : InitKept R) (q : Seq) : (phaseOf q).Keeps R := by
  have hq : ∀ {q}, q.initializing = true → (setSeq q).Keeps R := fun hq s => h.seq s _ hq
  have hty : ∀ ct, (setTy ct).Keeps R := fun ct s => h.ty s ct
  have hrc : ∀ c, (setRc c).Keeps R := fun c s => h.rc s c
  have hsel : select.Keeps R := h.sel
  have hsend := sendCommand_keeps h.toSendKept
  have hpure : (Link.pure ()).Keeps R := .pure h.comp _
  have h16 : (Link.andThen cmd16 (Link.pure ())).Keeps R :=
    .andThen h.comp (cmd16_keeps h.toSendKept h.ty) hpure
  cases q with
  | reset =>
    rw [phaseOf, phaseReset]
    exact Link.Keeps.andThen h.comp (hty _) (.andThen h.comp hsel
      (.andThen h.comp (writeBytes_keeps h.toReadKept _) (hq rfl)))
  | idleOrFail => exact Link.Keeps.bind h.comp (hsend _ _) fun _ => hq (by split <;> rfl)
  | voltageCheck =>
    exact Link.Keeps.bind h.comp (cmd8_keeps h.toSendKept h.trail) fun _ =>
      Link.Keeps.ite (.reading fun _ => hq (by split <;> rfl)) (hq rfl)
  | advancedInit =>
    exact Link.Keeps.bind h.comp (retryCommand_keeps h.comp h.iter (hsend _ _)) fun _ =>
      hq (by split <;> rfl)
  | legacyInit =>
    refine Link.Keeps.bind h.comp (hsend _ _) fun _ => Link.Keeps.andThen h.comp ?_ (Link.Keeps.bind h.comp ?_ ?_)
    · exact Link.Keeps.ite (.andThen h.comp (hty _) (hrc _)) (.andThen h.comp (hty _) (hrc _))
    · exact Link.Keeps.reading fun _ => retryCommand_keeps h.comp h.iter (hsend _ _)
    · exact fun _ => Link.Keeps.ite (hq rfl) (.andThen h.comp (hty _) (hq rfl))
  | capacityCheck =>
    rw [phaseOf, phaseCapacityCheck]
    refine Link.Keeps.reading fun _ => Link.Keeps.andThen h.comp ?_ (Link.Keeps.reading fun _ =>
      hq (by split <;> rfl))
    exact Link.Keeps.ite (.bind h.comp (cmd58_keeps h.toSendKept h.trail h.ty) fun _ => .ite h16 hpure) h16
  | ready => exact hpure
  | failed => exact hpure
  | idle => exact hpure
  | transfer => exact hpure

theorem initializeCard_keeps (h : InitKept R) : initializeCard.Keeps R := by
  have hn : nextPhase.Keeps R := .reading (phaseOf_keeps h)
  refine .andThen h.comp hn (.andThen h.comp hn (.andThen h.comp hn (.andThen h.comp hn (.andThen h.comp hn ?_))))
  exact .reading fun _ => .andThen h.comp (fun s => h.cardType s _) (.andThen h.comp h.des (.pure h.comp _))

/-! The frames of the host operations. -/

theorem initKept_blank : InitKept (Same State.initBlank) :=
  ⟨⟨⟨Same.composes _, fun _ => rfl, fun _ _ _ => rfl, fun _ _ => rfl⟩, fun _ _ => rfl, fun _ _ => rfl, fun _ => rfl,
    fun _ => rfl⟩, fun _ _ => rfl, fun _ _ => rfl, fun _ _ => rfl, fun _ _ => rfl, fun _ _ _ => rfl, fun _ _ => rfl⟩

/-- The phase stays one of disk_initialize's (R13). -/
theorem initKept_initializing : InitKept fun s t => s.seq.initializing = true → t.seq.initializing = true :=
  ⟨⟨⟨⟨fun _ h => h, fun _ _ _ h1 h2 h => h2 (h1 h)⟩, fun _ h => h, fun _ _ _ h => h, fun _ _ h => h⟩, fun _ _ h => h,
    fun _ _ h => h, fun _ h => h, fun _ h => h⟩, fun _ _ h => h, fun _ _ h => h, fun _ _ h => h, fun _ _ h => h,
    fun _ _ hq _ => hq, fun _ _ h => h⟩

theorem fetchKept_blank : FetchKept (Same State.fetchBlank) :=
  ⟨⟨⟨Same.composes _, fun _ => rfl, fun _ _ _ => rfl, fun _ _ => rfl⟩, fun _ _ => rfl, fun _ _ => rfl, fun _ => rfl,
    fun _ => rfl⟩, ⟨⟨Same.composes _, fun _ => rfl, fun _ _ _ => rfl, fun _ _ => rfl⟩, fun _ _ => rfl, fun _ _ => rfl,
    fun _ _ _ => rfl⟩, fun _ _ => rfl, fun _ _ => rfl⟩

theorem storeKept_blank : StoreKept (Same State.storeBlank) :=
  ⟨⟨⟨Same.composes _, fun _ => rfl, fun _ _ _ => rfl, fun _ _ => rfl⟩, fun _ _ => rfl, fun _ _ => rfl, fun _ => rfl,
    fun _ => rfl⟩, ⟨⟨Same.composes _, fun _ => rfl, fun _ _ _ => rfl, fun _ _ => rfl⟩, fun _ _ => rfl, fun _ _ => rfl,
    fun _ _ => rfl⟩, fun _ _ => rfl, fun _ _ => rfl⟩

theorem readKept_waitBlank : ReadKept (Same State.waitBlank) :=
  ⟨Same.composes _, fun _ => rfl, fun _ _ _ => rfl, fun _ _ => rfl⟩

theorem readKept_link : ReadKept (Same State.linkBlank) :=
  ⟨Same.composes _, fun _ => rfl, fun _ _ _ => rfl, fun _ _ => rfl⟩

theorem readKept_token : ReadKept (Same State.tokenBlank) :=
  ⟨Same.composes _, fun _ => rfl, fun _ _ _ => rfl, fun _ _ => rfl⟩

/-! The frames of the wire commands. -/

theorem sendKept_echo : SendKept (Same State.echoBlank) :=
  ⟨⟨Same.composes _, fun _ => rfl, fun _ _ _ => rfl, fun _ _ => rfl⟩, fun _ _ => rfl, fun _ _ => rfl, fun _ => rfl,
    fun _ => rfl⟩
theorem sendKept_length : SendKept (Same State.lengthBlank) :=
  ⟨⟨Same.composes _, fun _ => rfl, fun _ _ _ => rfl, fun _ _ => rfl⟩, fun _ _ => rfl, fun _ _ => rfl, fun _ => rfl,
    fun _ => rfl⟩
theorem sendKept_ocr : SendKept (Same State.ocrBlank) :=
  ⟨⟨Same.composes _, fun _ => rfl, fun _ _ _ => rfl, fun _ _ => rfl⟩, fun _ _ => rfl, fun _ _ => rfl, fun _ => rfl,
    fun _ => rfl⟩
theorem sendKept_readOne : SendKept (Same State.readOneBlank) :=
  ⟨⟨Same.composes _, fun _ => rfl, fun _ _ _ => rfl, fun _ _ => rfl⟩, fun _ _ => rfl, fun _ _ => rfl, fun _ => rfl,
    fun _ => rfl⟩
theorem blockInKept_readOne : BlockInKept (Same State.readOneBlank) :=
  ⟨⟨Same.composes _, fun _ => rfl, fun _ _ _ => rfl, fun _ _ => rfl⟩, fun _ _ => rfl, fun _ _ => rfl,
    fun _ _ _ => rfl⟩
theorem sendKept_readMany : SendKept (Same State.readManyBlank) :=
  ⟨⟨Same.composes _, fun _ => rfl, fun _ _ _ => rfl, fun _ _ => rfl⟩, fun _ _ => rfl, fun _ _ => rfl, fun _ => rfl,
    fun _ => rfl⟩
theorem blockInKept_readMany : BlockInKept (Same State.readManyBlank) :=
  ⟨⟨Same.composes _, fun _ => rfl, fun _ _ _ => rfl, fun _ _ => rfl⟩, fun _ _ => rfl, fun _ _ => rfl,
    fun _ _ _ => rfl⟩
theorem sendKept_writeOne : SendKept (Same State.writeOneBlank) :=
  ⟨⟨Same.composes _, fun _ => rfl, fun _ _ _ => rfl, fun _ _ => rfl⟩, fun _ _ => rfl, fun _ _ => rfl, fun _ => rfl,
    fun _ => rfl⟩
theorem blockOutKept_writeOne : BlockOutKept (Same State.writeOneBlank) :=
  ⟨⟨Same.composes _, fun _ => rfl, fun _ _ _ => rfl, fun _ _ => rfl⟩, fun _ _ => rfl, fun _ _ => rfl, fun _ _ => rfl⟩
theorem sendKept_writeMany : SendKept (Same State.writeManyBlank) :=
  ⟨⟨Same.composes _, fun _ => rfl, fun _ _ _ => rfl, fun _ _ => rfl⟩, fun _ _ => rfl, fun _ _ => rfl, fun _ => rfl,
    fun _ => rfl⟩
theorem blockOutKept_writeMany : BlockOutKept (Same State.writeManyBlank) :=
  ⟨⟨Same.composes _, fun _ => rfl, fun _ _ _ => rfl, fun _ _ => rfl⟩, fun _ _ => rfl, fun _ _ => rfl, fun _ _ => rfl⟩

end Sys2Proof.Machine
end

