-- ==== Sys2Proof/Laws/Unseen.lean ====
section
/-! SUPPORT. Fields an operation does not look at: a change of the state that every primitive commutes with commutes with
the operations made of them. -/

namespace Sys2Proof.Machine

variable {α β : Type} {f : State → State}

/-- Change the state a computation ended in. -/
def LinkResult.map (f : State → State) : LinkResult α → LinkResult α
  | .ok a s => .ok a (f s)
  | .fault c s => .fault c (f s)

/-- `m` does the same from the changed state, and changes it no further. -/
def Link.Ignores (f : State → State) (m : Link α) : Prop := ∀ s, m (f s) = (m s).map f

theorem Link.Ignores.pure (a : α) : (Link.pure a).Ignores f := fun _ => rfl

theorem Link.Ignores.modify {u : State → State} (h : ∀ s, u (f s) = f (u s)) : (Link.modify u).Ignores f := by
  intro s
  simp only [Link.modify, LinkResult.map, h]

theorem Link.Ignores.reading {g : State → α} {k : α → Link β} (hg : ∀ s, g (f s) = g s)
    (hk : ∀ a, (k a).Ignores f) : (Link.reading g k).Ignores f := by
  intro s
  simp only [Link.reading, hg]
  exact hk _ s

theorem Link.Ignores.bind {m : Link α} {k : α → Link β} (hm : m.Ignores f) (hk : ∀ a, (k a).Ignores f) :
    (Link.bind m k).Ignores f := by
  intro s
  simp only [Link.bind, hm s]
  cases m s with
  | ok a t => exact hk a t
  | fault c t => rfl

theorem Link.Ignores.andThen {m : Link α} {k : Link β} (hm : m.Ignores f) (hk : k.Ignores f) :
    (Link.andThen m k).Ignores f := .bind hm fun _ => hk

theorem Link.Ignores.ite {c : Prop} [Decidable c] {a b : Link α} (ha : a.Ignores f) (hb : b.Ignores f) :
    Link.Ignores f (if c then a else b) := by
  split
  · exact ha
  · exact hb

/-- A change that no link operation sees and none touches. -/
structure Unseen (f : State → State) : Prop where
  answer : ∀ s, (f s).nextAnswer = s.nextAnswer
  failed : ∀ s, (f s).drawn = f s.drawn
  exchanged : ∀ s tx rx, { (f s).drawn with trace := (f s).trace ++ [.xfer tx rx] }
    = f { s.drawn with trace := s.trace ++ [.xfer tx rx] }
  sel : select.Ignores f
  des : deselect.Ignores f
  startPoll : startPoll.Ignores f
  countPoll : countPoll.Ignores f
  startIter : startIter.Ignores f
  countIter : countIter.Ignores f
  setFrame : ∀ x, (setFrame x).Ignores f
  setResp : ∀ x, (setResp x).Ignores f
  setTrailByte : ∀ k b, (setTrailByte k b).Ignores f
  setTok : ∀ x, (setTok x).Ignores f
  setDresp : ∀ x, (setDresp x).Ignores f
  setDone : ∀ x, (setDone x).Ignores f
  setByteIndex : ∀ x, (setByteIndex x).Ignores f
  setTy : ∀ x, (setTy x).Ignores f
  setRc : ∀ x, (setRc x).Ignores f
  store : ∀ off data, (Link.modify fun s => s.storeBytes off data).Ignores f
  frame : ∀ s, (f s).frame = s.frame
  resp : ∀ s, (f s).resp = s.resp
  trail : ∀ s, (f s).trail = s.trail
  tok : ∀ s, (f s).tok = s.tok
  ty : ∀ s, (f s).ty = s.ty
  rc : ∀ s, (f s).rc = s.rc
  done : ∀ s, (f s).done = s.done
  count : ∀ s, (f s).count = s.count
  buf : ∀ s, (f s).buf = s.buf
  addr : ∀ s, (f s).addr = s.addr
  params : ∀ s, (f s).params = s.params

/-- Nothing on the link depends on `drive` (R171). -/
theorem unseen_drive (d : Byte) : Unseen fun s => { s with drive := d } := by
  constructor <;> intros <;> first | rfl | exact fun _ => rfl

/-- Nothing on the link depends on `seq` (R13). -/
theorem unseen_seq (q : Seq) : Unseen fun s => { s with seq := q } := by
  constructor <;> intros <;> first | rfl | exact fun _ => rfl

/-- Nothing on the link depends on `CardType`, once an operation has read it. -/
theorem unseen_cardType (ct : CardType) : Unseen fun s => { s with cardType := ct } := by
  constructor <;> intros <;> first | rfl | exact fun _ => rfl

variable (h : Unseen f)
include h

theorem xfer_ignores (tx : Byte) : (xfer tx).Ignores f := by
  intro s
  simp only [xfer, h.answer]
  cases s.nextAnswer with
  | byte rx => simp only [LinkResult.map, h.exchanged]
  | fault c => simp only [LinkResult.map, h.failed]

theorem readByte_ignores : readByte.Ignores f := xfer_ignores h _

theorem writeByte_ignores (b : Byte) : (writeByte b).Ignores f := .andThen (xfer_ignores h b) (.pure ())

theorem writeBytes_ignores (bs : List Byte) : (writeBytes bs).Ignores f := by
  induction bs with
  | nil => exact .pure ()
  | cons b rest ih => exact .andThen (writeByte_ignores h b) ih

theorem waitReady_ignores (n : Nat) : (waitReady n).Ignores f := by
  refine .andThen h.startPoll ?_
  induction n with
  | zero => exact .pure _
  | succ n ih =>
    exact .bind (.andThen h.countPoll (.bind (readByte_ignores h) fun _ => .pure _)) fun _ => .ite (.pure _) ih

theorem readR1_ignores : readR1.Ignores f := by
  have hread : (Link.reading State.resp Link.pure).Ignores f := .reading h.resp fun _ => .pure _
  have hpolls : ∀ n, (r1Polls n).Ignores f := by
    intro n
    induction n with
    | zero => exact hread
    | succ n ih =>
      exact .bind (.andThen h.countPoll (.bind (readByte_ignores h) fun _ => .andThen (h.setResp _) (.pure _)))
        fun _ => .ite hread ih
  exact .andThen h.startPoll (hpolls _)

theorem sendFrame_ignores (index : BitVec 6) (arg : Word) : (sendFrame index arg).Ignores f :=
  .andThen (h.setFrame _) (.andThen (.reading h.frame fun x => writeBytes_ignores h x.bytes) (readR1_ignores h))

theorem sendStandard_ignores (index : BitVec 6) (arg : Word) : (sendStandard index arg).Ignores f :=
  .ite (sendFrame_ignores h _ _) (.andThen h.des (.andThen h.sel (.bind (waitReady_ignores h _) fun _ =>
    .ite (sendFrame_ignores h _ _) (.pure _))))

theorem sendCommand_ignores (cmd : Command) (arg : Word) : (sendCommand cmd arg).Ignores f :=
  .ite (.bind (sendStandard_ignores h _ _) fun _ => .ite (.pure _) (sendStandard_ignores h _ _))
    (sendStandard_ignores h _ _)

theorem readTrail_ignores : readTrail.Ignores f :=
  have hbyte : ∀ k, (readTrailByte k).Ignores f := fun k => .bind (readByte_ignores h) (h.setTrailByte k)
  .andThen (hbyte 0) (.andThen (hbyte 1) (.andThen (hbyte 2) (hbyte 3)))

theorem receiveDatablock_ignores (off length : Nat) : (receiveDatablock off length).Ignores f := by
  have hread : (Link.reading State.tok Link.pure).Ignores f := .reading h.tok fun _ => .pure _
  have hpolls : ∀ n, (tokenPolls n).Ignores f := by
    intro n
    induction n with
    | zero => exact hread
    | succ n ih =>
      exact .bind (.andThen h.countPoll (.bind (readByte_ignores h) fun _ => .andThen (h.setTok _) (.pure _)))
        fun _ => .ite hread ih
  have hbytes : ∀ n i, (receiveBytes i n).Ignores f := by
    intro n
    induction n with
    | zero => exact fun _ => .pure _
    | succ n ih =>
      exact fun i => .andThen (h.setByteIndex _) (.bind (readByte_ignores h) fun _ =>
        .bind (ih (i + 1)) fun _ => .pure _)
  exact .bind (.andThen (h.setTok _) (.andThen h.startPoll (hpolls _))) fun _ =>
    .ite (.bind (hbytes _ _) fun data => .andThen (readByte_ignores h) (.andThen (readByte_ignores h)
      (.andThen (h.store off data) (.pure _)))) (.pure _)

theorem transmitDatablock_ignores (off : Nat) (t : Token) : (transmitDatablock off t).Ignores f := by
  have hbytes : ∀ n i, (transmitBytes off i n).Ignores f := by
    intro n
    induction n with
    | zero => exact fun _ => .pure ()
    | succ n ih =>
      exact fun i => .andThen (h.setByteIndex _) (.andThen
        (.reading (fun s => by simp only [State.bufByte, h.buf]) fun b => writeByte_ignores h b) (ih (i + 1)))
  have hresp : readDresp.Ignores f := .bind (readByte_ignores h) fun _ => .andThen (h.setDresp _) (.pure _)
  have hpay : (transmitPayload off).Ignores f :=
    .andThen (hbytes _ _) (.andThen (writeBytes_ignores h _) hresp)
  exact .bind (waitReady_ignores h _) fun _ => .ite
    (.andThen (.andThen (h.setTok _) (writeByte_ignores h _)) (.bind (.ite (.pure _) hpay) fun _ =>
      .andThen (waitReady_ignores h _) (.pure _))) (.pure _)

theorem cmd17_ignores (addr : Word) : (cmd17 addr).Ignores f :=
  .bind (sendCommand_ignores h _ _) fun _ => .ite (receiveDatablock_ignores h _ _) (.pure _)

theorem blockOffset_unseen (s : State) : (f s).blockOffset = s.blockOffset := by simp only [State.blockOffset, h.done]

theorem cmd18_ignores (addr : Word) : (cmd18 addr).Ignores f := by
  have hblocks : ∀ n, (receiveBlocks n).Ignores f := by
    intro n
    induction n with
    | zero => exact .pure ()
    | succ n ih =>
      exact .bind (.reading (blockOffset_unseen h) fun off => receiveDatablock_ignores h off _) fun _ =>
        .ite (.andThen (.reading h.done fun _ => h.setDone _) ih) (.pure _)
  exact .andThen (h.setDone _) (.bind (sendCommand_ignores h _ _) fun _ => .andThen
    (.ite (.reading h.count fun _ => .andThen (hblocks _) (.andThen (sendCommand_ignores h _ _) (.pure _))) (.pure _))
    (.reading (fun s => by simp only [h.done, h.count]) fun _ => .pure _))

theorem cmd24_ignores (addr : Word) : (cmd24 addr).Ignores f :=
  .bind (sendCommand_ignores h _ _) fun _ => .ite (transmitDatablock_ignores h _ _) (.pure _)

theorem cmd25_ignores (addr : Word) : (cmd25 addr).Ignores f := by
  have hblocks : ∀ n, (transmitBlocks n).Ignores f := by
    intro n
    induction n with
    | zero => exact .pure ()
    | succ n ih =>
      exact .bind (.reading (blockOffset_unseen h) fun off => transmitDatablock_ignores h off _) fun _ =>
        .ite (.andThen (.reading h.done fun _ => h.setDone _) ih) (.pure _)
  exact .andThen (h.setDone _) (.bind (sendCommand_ignores h _ _) fun _ => .ite
    (.reading h.count fun _ => .andThen (hblocks _) (.bind (transmitDatablock_ignores h _ _) fun _ =>
      .reading (fun s => by simp only [h.done, h.count]) fun _ => .pure _)) (.pure _))

theorem retryCommand_ignores {cmd : Link Byte} (hc : cmd.Ignores f) : (retryCommand cmd).Ignores f := by
  have hloop : ∀ n, (retryLoop cmd n).Ignores f := by
    intro n
    induction n with
    | zero => exact .pure _
    | succ n ih => exact .andThen h.countIter (.bind hc fun _ => .ite (.pure _) ih)
  exact .andThen h.startIter (hloop _)

end Sys2Proof.Machine
end

