-- ==== Sys2Proof/Laws/Flat.lean ====
section
/-! SUPPORT. The phases of disk_initialize (R120) and the one block of R131 do the same: what differs is `seq` alone. -/

namespace Sys2Proof.Machine

variable {α β γ : Type}

/-! Laws of link computations. -/

theorem Link.bind_assoc (m : Link α) (k : α → Link β) (l : β → Link γ) :
    Link.bind (Link.bind m k) l = Link.bind m fun a => Link.bind (k a) l := by
  funext s
  simp only [Link.bind]
  cases m s <;> rfl

theorem Link.andThen_bind (m : Link α) (k : α → Link β) (l : Link γ) :
    Link.andThen (Link.bind m k) l = Link.bind m fun a => Link.andThen (k a) l := Link.bind_assoc m k _

theorem Link.andThen_assoc (m : Link α) (k : Link β) (l : Link γ) :
    Link.andThen (Link.andThen m k) l = Link.andThen m (Link.andThen k l) := Link.bind_assoc m _ _

theorem Link.pure_andThen (a : α) (k : Link β) : Link.andThen (Link.pure a) k = k := rfl

theorem Link.pure_bind (a : α) (k : α → Link β) : Link.bind (Link.pure a) k = k a := rfl

theorem Link.andThen_ite {c : Prop} [Decidable c] (a b : Link α) (k : Link β) :
    Link.andThen (if c then a else b) k = if c then Link.andThen a k else Link.andThen b k := by
  split <;> rfl

theorem Link.andThen_reading (f : State → α) (m : α → Link β) (k : Link γ) :
    Link.andThen (Link.reading f m) k = Link.reading f fun a => Link.andThen (m a) k := rfl

/-! The tails of R131. -/

/-- The state with `seq` forgotten. -/
def State.unphased (s : State) : State := { s with seq := .reset }

/-- "CardType <- ty; Deselect(); return OK if ty != None else NOT_READY". -/
def flatConclude : Link Result :=
  Link.reading State.ty fun ct =>
    Link.andThen (Link.modify fun s => { s with cardType := ct })
      (Link.andThen deselect (Link.pure (if ct ≠ .none then .ok else .notReady)))

/-- "if send_command(CMD16, 512) != 0: ty <- None". -/
def flatLength : Link Unit :=
  Link.bind (sendCommand cmd16Value 512) fun r16 => if r16 ≠ 0 then setTy .none else Link.pure ()

/-- CMD58 and what follows it. -/
def flatOcr : Link Unit :=
  Link.bind (sendCommand cmd58Value 0) fun r58 =>
    if r58 = 0 then
      Link.andThen readTrail (Link.reading State.trail fun o =>
        Link.andThen (setTy (if o.t0.getLsbD 6 then .sdc else .sd2)) flatLength)
    else Link.pure ()

/-- The v2 path after the echo. -/
def flatAdvanced : Link Unit :=
  Link.bind (retryCommand (sendCommand acmd41Value 0x40000000)) fun ok => if ok then flatOcr else Link.pure ()

/-- The legacy path. -/
def flatLegacy : Link Unit :=
  Link.bind (sendCommand acmd41Value 0) fun probe =>
    Link.andThen
      (if probe.toNat ≤ 1 then Link.andThen (setTy .sd1) (setRc acmd41Value)
      else Link.andThen (setTy .mmc) (setRc cmd1Value))
      (Link.reading State.rc fun rc =>
        Link.bind (retryCommand (sendCommand rc 0)) fun ok => if ok then flatLength else setTy .none)

/-- CMD8 and what follows it. -/
def flatVoltage : Link Unit :=
  Link.bind (sendCommand cmd8Value 0x000001AA) fun r8 =>
    if r8 = 1 then
      Link.andThen readTrail (Link.reading State.trail fun t =>
        if t.t2 = 0x01 ∧ t.t3 = 0xAA then flatAdvanced else Link.pure ())
    else flatLegacy

/-- CMD0 and what follows it. -/
def flatIdentify : Link Unit :=
  Link.bind (sendCommand cmd0Value 0) fun r0 => if r0 = 1 then flatVoltage else Link.pure ()

theorem initializeFlat_eq : initializeFlat = Link.andThen (setTy .none) (Link.andThen select
    (Link.andThen (writeBytes (List.replicate 10 0xFF)) (Link.andThen flatIdentify flatConclude))) := by
  rw [flatIdentify, Link.andThen_bind]
  rfl

/-! None of them looks at `seq`, nor at `CardType` before the conclusion. -/

section
variable {f : State → State} (h : Unseen f)
include h

theorem flatLength_ignores : flatLength.Ignores f :=
  .bind (sendCommand_ignores h _ _) fun _ => .ite (h.setTy _) (.pure _)

theorem flatOcr_ignores : flatOcr.Ignores f :=
  .bind (sendCommand_ignores h _ _) fun _ => .ite (.andThen (readTrail_ignores h) (.reading h.trail fun _ =>
    .andThen (h.setTy _) (flatLength_ignores h))) (.pure _)

theorem flatAdvanced_ignores : flatAdvanced.Ignores f :=
  .bind (retryCommand_ignores h (sendCommand_ignores h _ _)) fun _ => .ite (flatOcr_ignores h) (.pure _)

theorem flatLegacy_ignores : flatLegacy.Ignores f :=
  .bind (sendCommand_ignores h _ _) fun _ => .andThen
    (.ite (.andThen (h.setTy _) (h.setRc _)) (.andThen (h.setTy _) (h.setRc _)))
    (.reading h.rc fun _ => .bind (retryCommand_ignores h (sendCommand_ignores h _ _)) fun _ =>
      .ite (flatLength_ignores h) (h.setTy _))

theorem flatVoltage_ignores : flatVoltage.Ignores f :=
  .bind (sendCommand_ignores h _ _) fun _ => .ite (.andThen (readTrail_ignores h) (.reading h.trail fun _ =>
    .ite (flatAdvanced_ignores h) (.pure _))) (flatLegacy_ignores h)

theorem flatIdentify_ignores : flatIdentify.Ignores f :=
  .bind (sendCommand_ignores h _ _) fun _ => .ite (flatVoltage_ignores h) (.pure _)

end

theorem flatConclude_ignores_seq (q : Seq) : flatConclude.Ignores fun s => { s with seq := q } := fun _ => rfl

/-! The phases, from the last to the first. -/

/-- Runs that agree but for `seq`. -/
def SamePhased (a b : LinkResult α) : Prop := a.map State.unphased = b.map State.unphased

theorem SamePhased.bind {m : Link α} {k k' : α → Link β} {s : State}
    (h : m.wp (fun a t => SamePhased (k a t) (k' a t)) anyFault s) :
    SamePhased (Link.bind m k s) (Link.bind m k' s) := by
  unfold Link.wp at h
  simp only [Link.bind]
  cases hm : m s with
  | ok a t => rw [hm] at h; exact h
  | fault c t => rfl

/-- `seq` written beforehand makes no difference. -/
theorem SamePhased.ofPhase {m : Link α} {s : State} {q : Seq} {r : LinkResult α}
    (hm : m.Ignores fun s => { s with seq := q }) (h : SamePhased r (m { s with seq := q })) :
    SamePhased r (m s) := by
  unfold SamePhased at *
  rw [h, show m { s with seq := q } = (m s).map fun s => { s with seq := q } from hm s]
  cases m s <;> rfl

theorem phaseConclude_flat (s : State) : SamePhased (phaseConclude s) (flatConclude s) := by
  simp only [SamePhased, phaseConclude, flatConclude, Link.reading]
  cases s.ty <;> rfl

theorem nextPhase_andThen {s : State} {q : Seq} (hq : s.seq = q) (k : Link α) :
    Link.andThen nextPhase k s = Link.andThen (phaseOf q) k s := by
  subst hq
  rfl

/-- `Ready` and `Failed` go straight to the conclusion. -/
theorem nextPhase_ended {s : State} (hs : s.seq = .ready ∨ s.seq = .failed) (k : Link α) :
    Link.andThen nextPhase k s = k s := by
  rcases hs with h | h <;> rw [nextPhase_andThen h] <;> rfl

/-- A phase's last write of `seq`, then the rest. -/
theorem SamePhased.setSeq {k : Link α} {m : Link α} {s : State} {q : Seq}
    (hm : m.Ignores fun s => { s with seq := q }) (h : SamePhased (k { s with seq := q }) (m { s with seq := q })) :
    SamePhased (Link.andThen (setSeq q) k s) (m s) :=
  SamePhased.ofPhase (q := q) (r := Link.andThen (Machine.setSeq q) k s) hm h

theorem andThen_conclude_ignores {m : Link Unit} {q : Seq} (h : m.Ignores fun s => { s with seq := q }) :
    (Link.andThen m flatConclude).Ignores fun s => { s with seq := q } := .andThen h (flatConclude_ignores_seq q)

/-- CMD16, then the end of the chain. -/
theorem lengthTail_flat (s : State) :
    SamePhased (Link.andThen cmd16 (Link.reading State.ty fun ct =>
      Link.andThen (setSeq (if ct = .none then .failed else .ready)) phaseConclude) s)
      (Link.andThen flatLength flatConclude s) := by
  rw [flatLength, Link.andThen_bind, cmd16, Link.andThen_bind]
  refine SamePhased.bind (Link.wp_mono (sendCommand_sound _ _ s) (fun r t _ => ?_) fun _ _ _ => trivial)
  by_cases hr : r = 0
  · rw [if_pos (by rw [isReady_iff]; exact hr), if_neg (by simpa using hr), Link.pure_andThen, Link.pure_andThen]
    exact SamePhased.setSeq (flatConclude_ignores_seq _) (phaseConclude_flat _)
  · rw [if_neg (by rw [isReady_iff]; exact hr), if_pos hr, Link.andThen_assoc]
    exact SamePhased.setSeq (flatConclude_ignores_seq _) (phaseConclude_flat _)

/-- The capacity check on the legacy path. -/
theorem capacity_legacy_flat (s : State) (hq : s.seq = .capacityCheck) (hty : s.ty ≠ .none) :
    SamePhased (Link.andThen nextPhase phaseConclude s) (Link.andThen flatLength flatConclude s) := by
  rw [nextPhase_andThen hq, phaseOf, phaseCapacityCheck, Link.andThen_reading, Link.reading, if_neg hty,
    Link.andThen_assoc, Link.andThen_assoc]
  exact lengthTail_flat s

/-- The capacity check on the v2 path. -/
theorem capacity_v2_flat (s : State) (hq : s.seq = .capacityCheck) (hty : s.ty = .none) :
    SamePhased (Link.andThen nextPhase phaseConclude s) (Link.andThen flatOcr flatConclude s) := by
  rw [nextPhase_andThen hq, phaseOf, phaseCapacityCheck, Link.andThen_reading, Link.reading, if_pos hty,
    Link.andThen_assoc, checkCapacity, cmd58, Link.bind_assoc, Link.andThen_bind, flatOcr, Link.andThen_bind]
  refine SamePhased.bind (Link.wp_mono (sendCommand_sound _ _ s) (fun r t _ => ?_) fun _ _ _ => trivial)
  by_cases hr : r = 0
  · rw [if_pos (by rw [isReady_iff]; exact hr), if_pos hr, readOcr, Link.andThen_assoc, Link.andThen_assoc]
    show SamePhased (Link.andThen (Link.bind (Link.bind readTrail _) _) _ t) _
    rw [Link.bind_assoc, Link.andThen_bind]
    refine SamePhased.bind (Link.wp_mono (readTrail_wp t) (fun _ u _ => ?_) fun _ _ _ => trivial)
    have hready : isReady r = true := (isReady_iff r).mpr hr
    simp only [Link.andThen_reading, Link.andThen_assoc]
    show SamePhased (Link.andThen (if isReady r = true then Link.andThen cmd16 (Link.pure ()) else Link.pure ())
        (Link.reading State.ty fun ct => Link.andThen (setSeq (if ct = .none then .failed else .ready)) phaseConclude)
        { u with ty := if ccs u.trail then .sdc else .sd2 })
      (Link.andThen flatLength flatConclude { u with ty := if ccs u.trail then .sdc else .sd2 })
    rw [if_pos hready, Link.andThen_assoc]
    exact lengthTail_flat _
  · rw [if_neg (by rw [isReady_iff]; exact hr), if_neg hr, Link.pure_bind,
      if_neg (by rw [isReady_iff]; exact hr)]
    exact SamePhased.setSeq (flatConclude_ignores_seq _) (phaseConclude_flat _)

/-- A phase that fails. -/
theorem failed_flat (s : State) (n : Nat) :
    SamePhased ((Nat.rec phaseConclude (fun _ k => Link.andThen nextPhase k) n : Link Result)
      { s with seq := .failed }) (flatConclude s) := by
  refine SamePhased.ofPhase (q := .failed) (flatConclude_ignores_seq _) ?_
  induction n with
  | zero => exact phaseConclude_flat _
  | succ n ih =>
    show SamePhased (Link.andThen nextPhase _ _) _
    rw [nextPhase_ended (.inr rfl)]
    exact ih

theorem advanced_flat (s : State) (hq : s.seq = .advancedInit) (hty : s.ty = .none) :
    SamePhased (Link.andThen nextPhase (Link.andThen nextPhase phaseConclude) s)
      (Link.andThen flatAdvanced flatConclude s) := by
  rw [nextPhase_andThen hq, phaseOf, phaseAdvancedInit, Link.andThen_bind, flatAdvanced, Link.andThen_bind]
  refine SamePhased.bind (Link.wp_mono (retryCommand_wp _ _ s) (fun ok t ht => ?_) fun _ _ _ => trivial)
  obtain ⟨_, _, _, hty'⟩ := ht
  cases ok with
  | false => exact failed_flat t 1
  | true =>
    exact SamePhased.setSeq (andThen_conclude_ignores (flatOcr_ignores (unseen_seq _)))
      (capacity_v2_flat _ rfl (hty'.trans hty))

theorem legacy_flat (s : State) (hq : s.seq = .legacyInit) :
    SamePhased (Link.andThen nextPhase (Link.andThen nextPhase phaseConclude) s)
      (Link.andThen flatLegacy flatConclude s) := by
  rw [nextPhase_andThen hq, phaseOf, phaseLegacyInit, acmd41, Link.andThen_bind, flatLegacy, Link.andThen_bind]
  refine SamePhased.bind (Link.wp_mono (sendCommand_sound _ _ s) (fun r t _ => ?_) fun _ _ _ => trivial)
  have tail : ∀ (rc : Command) (u : State), u.ty ≠ .none →
      SamePhased (Link.andThen (Link.bind (retryCommand (sendCommand rc 0)) fun ok =>
          if ok then setSeq .capacityCheck else Link.andThen (setTy .none) (setSeq .failed))
          (Link.andThen nextPhase phaseConclude) u)
        (Link.andThen (Link.bind (retryCommand (sendCommand rc 0)) fun ok =>
          if ok then flatLength else setTy .none) flatConclude u) := by
    intro rc u hty
    rw [Link.andThen_bind, Link.andThen_bind]
    refine SamePhased.bind (Link.wp_mono (retryCommand_wp _ _ u) (fun ok v hv => ?_) fun _ _ _ => trivial)
    obtain ⟨_, _, _, hty'⟩ := hv
    cases ok with
    | false => exact failed_flat { v with ty := .none } 1
    | true =>
      exact SamePhased.setSeq (andThen_conclude_ignores (flatLength_ignores (unseen_seq _)))
        (capacity_legacy_flat _ rfl (by rw [hty']; exact hty))
  by_cases hf : isFatal r = true
  · have hr : ¬ r.toNat ≤ 1 := by rw [isFatal_iff] at hf; omega
    rw [classifyLegacy, if_pos hf, if_neg hr]
    exact tail cmd1Value _ (by simp)
  · have hr : r.toNat ≤ 1 := by rw [isFatal_iff] at hf; omega
    rw [classifyLegacy, if_neg hf, if_pos hr]
    exact tail acmd41Value _ (by simp)

theorem voltage_flat (s : State) (hq : s.seq = .voltageCheck) (hty : s.ty = .none) :
    SamePhased (Link.andThen nextPhase (Link.andThen nextPhase (Link.andThen nextPhase phaseConclude)) s)
      (Link.andThen flatVoltage flatConclude s) := by
  rw [nextPhase_andThen hq, phaseOf, phaseVoltageCheck, cmd8, Link.bind_assoc, Link.andThen_bind, flatVoltage,
    Link.andThen_bind]
  refine SamePhased.bind (Link.wp_mono (sendCommand_wp sendKept_ty _ _ s) (fun r t ht => ?_) fun _ _ _ => trivial)
  by_cases hr : r = 1
  · rw [if_pos ((inIdleState_iff r).mpr hr), if_pos hr]
    simp only [Link.andThen_assoc]
    show SamePhased (Link.andThen (Link.bind (Link.bind readTrail _) _) _ t) _
    rw [Link.bind_assoc, Link.andThen_bind]
    refine SamePhased.bind (Link.wp_mono (Link.wp_keeps (readTrail_keeps readKept_ty fun _ _ => rfl) (readTrail_wp t))
      (fun _ u hu => ?_) fun _ _ _ => trivial)
    have htyu : u.ty = .none := by
      have h1 : u.ty = t.ty := hu.2
      have h2 : t.ty = s.ty := ht.2
      rw [h1, h2, hty]
    rw [Link.pure_bind, if_pos ((inIdleState_iff r).mpr hr)]
    simp only [Link.andThen_reading, Link.reading]
    by_cases he : echoOk u.trail = true
    · have he' : u.trail.t2 = 0x01 ∧ u.trail.t3 = 0xAA := by simpa [echoOk] using he
      rw [if_pos he, if_pos he']
      exact SamePhased.setSeq (andThen_conclude_ignores (flatAdvanced_ignores (unseen_seq _)))
        (advanced_flat _ rfl htyu)
    · have he' : ¬ (u.trail.t2 = 0x01 ∧ u.trail.t3 = 0xAA) := by simpa [echoOk] using he
      rw [if_neg he, if_neg he']
      exact failed_flat u 2
  · rw [if_neg (by rw [inIdleState_iff]; exact hr), if_neg hr, Link.pure_bind,
      if_neg (by rw [inIdleState_iff]; exact hr)]
    exact SamePhased.setSeq (andThen_conclude_ignores (flatLegacy_ignores (unseen_seq _))) (legacy_flat _ rfl)

theorem identify_flat (s : State) (hq : s.seq = .idleOrFail) (hty : s.ty = .none) :
    SamePhased (Link.andThen nextPhase (Link.andThen nextPhase (Link.andThen nextPhase
      (Link.andThen nextPhase phaseConclude))) s) (Link.andThen flatIdentify flatConclude s) := by
  rw [nextPhase_andThen hq, phaseOf, phaseIdleOrFail, cmd0, Link.andThen_bind, flatIdentify, Link.andThen_bind]
  refine SamePhased.bind (Link.wp_mono (sendCommand_wp sendKept_ty _ _ s) (fun r t ht => ?_) fun _ _ _ => trivial)
  by_cases hr : r = 1
  · rw [if_pos ((inIdleState_iff r).mpr hr), if_pos hr]
    exact SamePhased.setSeq (andThen_conclude_ignores (flatVoltage_ignores (unseen_seq _)))
      (voltage_flat _ rfl (Eq.trans ht.2 hty))
  · rw [if_neg (by rw [inIdleState_iff]; exact hr), if_neg hr]
    exact failed_flat t 3

/-- The chain of phases and the one block agree in everything but `seq`. -/
theorem initializeCard_flat (s : State) (hq : s.seq = .reset) :
    SamePhased (initializeCard s) (initializeFlat s) := by
  rw [initializeFlat_eq, initializeCard, nextPhase_andThen hq, phaseOf, phaseReset]
  simp only [Link.andThen_assoc]
  refine SamePhased.bind ?_
  rw [setTy, Link.wp_modify]
  refine SamePhased.bind ?_
  rw [select, Link.wp_modify]
  refine SamePhased.bind (Link.wp_mono (Link.wp_keeps (writeBytes_keeps readKept_ty _) (writeBytes_sound _ _))
    (fun _ t ht => ?_) fun _ _ _ => trivial)
  exact SamePhased.setSeq (andThen_conclude_ignores (flatIdentify_ignores (unseen_seq _)))
    (identify_flat _ rfl ht.2)

end Sys2Proof.Machine
end

