-- ==== Sys2Proof/Laws/Within.lean ====
section
/-! SUPPORT. How much a computation exchanges and how it uses chip-select, however it ends: at most so many exchanges
(R211), each while the card is selected (R87). -/

namespace Sys2Proof.Machine

variable {α β : Type}

/-! Aborted runs. -/

theorem Ran.abort {s : State} {code : Nat} (h : s.nextAnswer = .fault code) : Aborted s s.drawn [] code :=
  ⟨by simp, by simp [csAfter], by simp, by simp, rfl, trivial, by simpa using h⟩

theorem State.after_nextAnswer {s t : State} {ev : List Event} (h : Ran s t ev) :
    (s.after ev).nextAnswer = t.nextAnswer :=
  State.nextAnswer_congr h.params.symm h.oracle.symm h.draws.symm

theorem Ran.trans_aborted {s t u : State} {e1 e2 : List Event} {code : Nat} (h1 : Ran s t e1)
    (h2 : Aborted t u e2 code) : Aborted s u (e1 ++ e2) code where
  trace := by rw [h2.trace, h1.trace, List.append_assoc]
  cs := by rw [h2.cs, h1.cs, csAfter_append]
  oracle := by rw [h2.oracle, h1.oracle, List.drop_drop, exchanges_append, Nat.add_assoc]
  draws := by rw [h2.draws, h1.draws, exchanges_append]; omega
  params := by rw [h2.params, h1.params]
  answers := by
    rw [received_append, State.WillAnswer_append (t := t) h1.params]
    · exact ⟨h1.answers, h2.answers⟩
    · rw [h1.oracle, received_length]
    · rw [h1.draws, received_length]
  failed := by
    rw [← h2.failed]
    refine State.nextAnswer_congr ?_ ?_ ?_
    · exact h1.params.symm
    · simp only [State.after, h1.oracle, List.drop_drop, exchanges_append]
    · simp only [State.after, h1.draws, exchanges_append]
      omega

/-- Registers written before or after do not matter. -/
theorem Aborted.congr {s t s' t' : State} {ev : List Event} {code : Nat} (h : Aborted s t ev code)
    (hs : s'.trace = s.trace ∧ s'.cs = s.cs ∧ s'.oracle = s.oracle ∧ s'.draws = s.draws ∧ s'.params = s.params)
    (ht : t'.trace = t.trace ∧ t'.cs = t.cs ∧ t'.oracle = t.oracle ∧ t'.draws = t.draws ∧ t'.params = t.params) :
    Aborted s' t' ev code := by
  obtain ⟨s1, s2, s3, s4, s5⟩ := hs
  obtain ⟨t1, t2, t3, t4, t5⟩ := ht
  refine ⟨by rw [t1, s1, h.trace], by rw [t2, s2, h.cs], by rw [t3, s3, h.oracle], by rw [t4, s4, h.draws],
    by rw [t5, s5, h.params], (State.WillAnswer_congr s5 s3 s4).mpr h.answers, ?_⟩
  rw [← h.failed]
  exact State.nextAnswer_congr s5 (by simp only [State.after, s3]) (by simp only [State.after, s4])

/-! The property. -/

/-- From the state `s`, whose chip-select is `c`, `m` exchanges at most `n` bytes, all of them selected; where it ends
with a value the card is left selected, and a link fault leaves an aborted run. -/
def Link.WithinAt (c : ChipSelect) (n : Nat) (m : Link α) (s : State) : Prop :=
  m.wp (fun _ t => ∃ ev, Ran s t ev ∧ exchanges ev ≤ n ∧ selectedThroughout c ev = true ∧ csAfter c ev = .asserted)
    (fun code t => ∃ ev, Aborted s t ev code ∧ exchanges ev ≤ n ∧ selectedThroughout c ev = true) s

/-- The same from every state whose chip-select is `c`. -/
def Link.Within (c : ChipSelect) (n : Nat) (m : Link α) : Prop := ∀ s, s.cs = c → m.WithinAt c n s

/-- A write of registers the link does not see. -/
structure Silent (u : State → State) : Prop where
  trace : ∀ s, (u s).trace = s.trace
  cs : ∀ s, (u s).cs = s.cs
  oracle : ∀ s, (u s).oracle = s.oracle
  draws : ∀ s, (u s).draws = s.draws
  params : ∀ s, (u s).params = s.params
  faultless : ∀ s, u s.faultless = (u s).faultless

theorem Link.Within.mono {c : ChipSelect} {n n' : Nat} {m : Link α} (h : m.Within c n) (hn : n ≤ n') :
    m.Within c n' := fun s hs =>
  Link.wp_mono (h s hs) (fun _ _ ⟨ev, hr, he, hsel⟩ => ⟨ev, hr, he.trans hn, hsel⟩)
    fun _ _ ⟨ev, hr, he, hsel⟩ => ⟨ev, hr, he.trans hn, hsel⟩

theorem Link.Within.pure (a : α) : (Link.pure a).Within .asserted 0 := fun s _ =>
  ⟨[], Ran.refl s, by simp, rfl, rfl⟩

theorem Link.Within.silent {u : State → State} (h : Silent u) : (Link.modify u).Within .asserted 0 := fun s _ =>
  ⟨[], Ran.nil (h.trace s) (h.cs s) (h.oracle s) (h.draws s) (h.params s), by simp, rfl, rfl⟩

theorem Link.Within.reading {c : ChipSelect} {n : Nat} {f : State → α} {k : α → Link β}
    (h : ∀ a, (k a).Within c n) : (Link.reading f k).Within c n := fun s hs => h (f s) s hs

theorem Link.Within.ite {c : ChipSelect} {n : Nat} {p : Prop} [Decidable p] {a b : Link α} (ha : a.Within c n)
    (hb : b.Within c n) : Link.Within c n (if p then a else b) := by
  split
  · exact ha
  · exact hb

theorem Link.WithinAt.bind {c : ChipSelect} {n k : Nat} {m : Link α} {f : α → Link β} {s : State} {γ : Type}
    {g : State → γ} (hm : m.WithinAt c n s) (hk : m.Keeps (Same g)) (hs : s.cs = c)
    (hf : ∀ a t, t.cs = .asserted → g t = g s → (f a).WithinAt .asserted k t) :
    (Link.bind m f).WithinAt c (n + k) s := by
  rw [Link.WithinAt, Link.wp_bind]
  refine Link.wp_mono (Link.wp_keeps hk hm) ?_ ?_
  · rintro a t ⟨⟨e1, r1, n1, sel1, cs1⟩, hg⟩
    have ht : t.cs = .asserted := by rw [r1.cs, hs, cs1]
    refine Link.wp_mono (hf a t ht hg) ?_ ?_
    · rintro b u ⟨e2, r2, n2, sel2, cs2⟩
      exact ⟨e1 ++ e2, r1.trans r2, by rw [exchanges_append]; omega, by simp [sel1, cs1, sel2], by simp [cs1, cs2]⟩
    · rintro code u ⟨e2, r2, n2, sel2⟩
      exact ⟨e1 ++ e2, r1.trans_aborted r2, by rw [exchanges_append]; omega, by simp [sel1, cs1, sel2]⟩
  · rintro code t ⟨⟨ev, r, hn, hsel⟩, _⟩
    exact ⟨ev, r, by omega, hsel⟩

theorem Link.Within.bind {c : ChipSelect} {n k : Nat} {m : Link α} {f : α → Link β} (hm : m.Within c n)
    (hf : ∀ a, (f a).Within .asserted k) : (Link.bind m f).Within c (n + k) := fun s hs =>
  Link.WithinAt.bind (g := fun _ => ()) (hm s hs) (fun _ => rfl) hs fun a t ht _ => hf a t ht

theorem Link.Within.andThen {c : ChipSelect} {n k : Nat} {m : Link α} {f : Link β} (hm : m.Within c n)
    (hf : f.Within .asserted k) : (Link.andThen m f).Within c (n + k) := .bind hm fun _ => hf

theorem Link.Within.afterSilent {c : ChipSelect} {n : Nat} {u : State → State} {k : Link β} (hu : Silent u)
    (hk : k.Within c n) : (Link.andThen (Link.modify u) k).Within c n := by
  intro s hs
  rw [Link.WithinAt, Link.wp_andThen, Link.wp_modify]
  refine Link.wp_mono (hk (u s) (by rw [hu.cs, hs])) ?_ ?_
  · rintro b t ⟨ev, r, hn, hsel⟩
    exact ⟨ev, r.of_start (hu.trace s) (hu.cs s) (hu.oracle s) (hu.draws s) (hu.params s), hn, hsel⟩
  · rintro code t ⟨ev, r, hn, hsel⟩
    exact ⟨ev, r.congr ⟨(hu.trace s).symm, (hu.cs s).symm, (hu.oracle s).symm, (hu.draws s).symm,
      (hu.params s).symm⟩ ⟨rfl, rfl, rfl, rfl, rfl⟩, hn, hsel⟩

/-! The operations, on a selected card. -/

theorem silent_poll (g : State → BitVec 10) (hg : ∀ s, g s.faultless = g s := by intros; rfl) :
    Silent fun s => { s with poll := g s } :=
  ⟨fun _ => rfl, fun _ => rfl, fun _ => rfl, fun _ => rfl, fun _ => rfl, fun s => by simp only [hg]; rfl⟩
theorem silent_iter (g : State → BitVec 10) (hg : ∀ s, g s.faultless = g s := by intros; rfl) :
    Silent fun s => { s with iter := g s } :=
  ⟨fun _ => rfl, fun _ => rfl, fun _ => rfl, fun _ => rfl, fun _ => rfl, fun s => by simp only [hg]; rfl⟩
theorem silent_frame (x : Frame) : Silent fun s => { s with frame := x } :=
  ⟨fun _ => rfl, fun _ => rfl, fun _ => rfl, fun _ => rfl, fun _ => rfl, fun _ => rfl⟩
theorem silent_resp (x : Byte) : Silent fun s => { s with resp := x } :=
  ⟨fun _ => rfl, fun _ => rfl, fun _ => rfl, fun _ => rfl, fun _ => rfl, fun _ => rfl⟩
theorem silent_trail (k : Nat) (b : Byte) : Silent fun s => { s with trail := s.trail.set k b } :=
  ⟨fun _ => rfl, fun _ => rfl, fun _ => rfl, fun _ => rfl, fun _ => rfl, fun _ => rfl⟩
theorem silent_tok (x : Byte) : Silent fun s => { s with tok := x } :=
  ⟨fun _ => rfl, fun _ => rfl, fun _ => rfl, fun _ => rfl, fun _ => rfl, fun _ => rfl⟩
theorem silent_dresp (x : Byte) : Silent fun s => { s with dresp := x } :=
  ⟨fun _ => rfl, fun _ => rfl, fun _ => rfl, fun _ => rfl, fun _ => rfl, fun _ => rfl⟩
theorem silent_done (x : BitVec 32) : Silent fun s => { s with done := x } :=
  ⟨fun _ => rfl, fun _ => rfl, fun _ => rfl, fun _ => rfl, fun _ => rfl, fun _ => rfl⟩
theorem silent_byte (x : BitVec 10) : Silent fun s => { s with byte := x } :=
  ⟨fun _ => rfl, fun _ => rfl, fun _ => rfl, fun _ => rfl, fun _ => rfl, fun _ => rfl⟩
theorem silent_ty (x : CardType) : Silent fun s => { s with ty := x } :=
  ⟨fun _ => rfl, fun _ => rfl, fun _ => rfl, fun _ => rfl, fun _ => rfl, fun _ => rfl⟩
theorem silent_rc (x : Command) : Silent fun s => { s with rc := x } :=
  ⟨fun _ => rfl, fun _ => rfl, fun _ => rfl, fun _ => rfl, fun _ => rfl, fun _ => rfl⟩
theorem silent_addr (g : State → Word) (hg : ∀ s, g s.faultless = g s := by intros; rfl) :
    Silent fun s => { s with addr := g s } :=
  ⟨fun _ => rfl, fun _ => rfl, fun _ => rfl, fun _ => rfl, fun _ => rfl, fun s => by simp only [hg]; rfl⟩
theorem silent_cardType (x : CardType) : Silent fun s => { s with cardType := x } :=
  ⟨fun _ => rfl, fun _ => rfl, fun _ => rfl, fun _ => rfl, fun _ => rfl, fun _ => rfl⟩
theorem silent_store (off : Nat) (data : List Byte) : Silent fun s => s.storeBytes off data :=
  ⟨fun _ => rfl, fun _ => rfl, fun _ => rfl, fun _ => rfl, fun _ => rfl, fun _ => rfl⟩

theorem xfer_within (tx : Byte) : (xfer tx).Within .asserted 1 := by
  intro s _
  rw [Link.WithinAt, xfer_wp]
  refine ⟨fun rx h => ⟨_, Ran.xfer h, by simp, rfl, rfl⟩, fun code h => ⟨[], Ran.abort h, by simp, rfl⟩⟩

theorem readByte_within : readByte.Within .asserted 1 := xfer_within _

theorem writeByte_within (b : Byte) : (writeByte b).Within .asserted 1 := .andThen (xfer_within b) (.pure ())

theorem writeBytes_within (bs : List Byte) : (writeBytes bs).Within .asserted bs.length := by
  induction bs with
  | nil => exact .pure ()
  | cons b rest ih => exact (Link.Within.andThen (writeByte_within b) ih).mono (by simp; omega)

theorem waitReady_within (n : Nat) : (waitReady n).Within .asserted n := by
  refine .afterSilent (silent_poll _) ?_
  induction n with
  | zero => exact .pure _
  | succ n ih =>
    refine Link.Within.mono (Link.Within.bind (n := 1) (k := n) ?_ fun ready => ?_) (by omega)
    · exact .afterSilent (silent_poll _) (.bind readByte_within fun _ => .pure _)
    · cases ready
      · exact ih
      · exact (Link.Within.pure _).mono (by omega)

theorem readR1_within : readR1.Within .asserted 10 := by
  have hread : (Link.reading State.resp Link.pure).Within .asserted 0 := .reading fun _ => .pure _
  have hpolls : ∀ n, (r1Polls n).Within .asserted n := by
    intro n
    induction n with
    | zero => exact hread
    | succ n ih =>
      refine Link.Within.mono (Link.Within.bind (n := 1) (k := n) ?_ fun ends => ?_) (by omega)
      · exact .afterSilent (silent_poll _) (.bind readByte_within fun _ => .afterSilent (silent_resp _) (.pure _))
      · cases ends
        · exact ih
        · exact hread.mono (by omega)
  exact .afterSilent (silent_poll _) (hpolls _)

theorem sendFrame_within (index : BitVec 6) (arg : Word) : (sendFrame index arg).Within .asserted 16 :=
  .afterSilent (silent_frame _) (Link.Within.andThen (n := 6) (k := 10)
    (.reading fun x => (writeBytes_within x.bytes).mono (by simp [Frame.bytes])) readR1_within)

/-- Deselect, then Select: from any chip-select. -/
theorem reselect_within {m : Link α} {n : Nat} (c : ChipSelect) (h : m.Within .asserted n) :
    (Link.andThen deselect (Link.andThen select m)).Within c n := by
  intro s hs
  rw [Link.WithinAt, Link.wp_andThen, deselect, Link.wp_modify, Link.wp_andThen, select, Link.wp_modify]
  have h0 : Ran s { s.deselected with cs := .asserted, trace := s.deselected.trace ++ [.sel] } [.des, .sel] :=
    (Ran.des s).trans (Ran.sel _)
  refine Link.wp_mono (h _ rfl) ?_ ?_
  · rintro a t ⟨ev, r, hn, hsel, hcs⟩
    exact ⟨_, h0.trans r, by simpa using hn, by simp [selectedThroughout, hsel], by simp [csAfter, hcs]⟩
  · rintro code t ⟨ev, r, hn, hsel⟩
    exact ⟨_, h0.trans_aborted r, by simpa using hn, by simp [selectedThroughout, hsel]⟩

theorem sendStandard_within (index : BitVec 6) (arg : Word) : (sendStandard index arg).Within .asserted 516 :=
  .ite ((sendFrame_within _ _).mono (by omega)) (reselect_within _ (Link.Within.bind (n := 500) (k := 16)
    (waitReady_within _) fun _ => .ite (sendFrame_within _ _) ((Link.Within.pure _).mono (by omega))))

/-- A command other than CMD12 selects the card itself. -/
theorem sendStandard_within_any {index : BitVec 6} (hi : index ≠ 12) (arg : Word) (c : ChipSelect) :
    (sendStandard index arg).Within c 516 := by
  rw [sendStandard, if_neg hi]
  exact reselect_within _ (Link.Within.bind (n := 500) (k := 16)
    (waitReady_within _) fun _ => .ite (sendFrame_within _ _) ((Link.Within.pure _).mono (by omega)))

theorem sendStandard_within_stop (arg : Word) : (sendStandard 12 arg).Within .asserted 16 := by
  rw [sendStandard, if_pos rfl]
  exact sendFrame_within _ _

theorem sendCommand_within {cmd : Command} (hi : cmd.index ≠ 12) (arg : Word) (c : ChipSelect) :
    (sendCommand cmd arg).Within c (if cmd.app then 1032 else 516) := by
  rw [sendCommand]
  split
  · exact Link.Within.bind (n := 516) (k := 516) (sendStandard_within_any (by decide) _ _) fun _ =>
      .ite ((Link.Within.pure _).mono (by omega)) (sendStandard_within _ _)
  · exact sendStandard_within_any hi _ _

theorem cmd12_within : cmd12.Within .asserted 16 := sendStandard_within_stop 0

theorem readTrail_within : readTrail.Within .asserted 4 :=
  have hbyte : ∀ k, (readTrailByte k).Within .asserted 1 := fun k =>
    Link.Within.bind (n := 1) (k := 0) readByte_within fun _ => .silent (silent_trail k _)
  Link.Within.andThen (n := 1) (k := 3) (hbyte 0) (Link.Within.andThen (n := 1) (k := 2) (hbyte 1)
    (Link.Within.andThen (n := 1) (k := 1) (hbyte 2) (hbyte 3)))

theorem receiveDatablock_within (off length : Nat) :
    (receiveDatablock off length).Within .asserted (257 + length) := by
  have hread : (Link.reading State.tok Link.pure).Within .asserted 0 := .reading fun _ => .pure _
  have hpolls : ∀ n, (tokenPolls n).Within .asserted n := by
    intro n
    induction n with
    | zero => exact hread
    | succ n ih =>
      refine Link.Within.mono (Link.Within.bind (n := 1) (k := n) ?_ fun ends => ?_) (by omega)
      · exact .afterSilent (silent_poll _) (.bind readByte_within fun _ => .afterSilent (silent_tok _) (.pure _))
      · cases ends
        · exact ih
        · exact hread.mono (by omega)
  have hbytes : ∀ n i, (receiveBytes i n).Within .asserted n := by
    intro n
    induction n with
    | zero => exact fun _ => .pure _
    | succ n ih =>
      intro i
      refine .afterSilent (silent_byte _) (Link.Within.mono (Link.Within.bind (n := 1) (k := n) readByte_within
        fun b => ?_) (by omega))
      exact Link.Within.bind (n := n) (k := 0) (ih (i + 1)) fun _ => .pure _
  refine Link.Within.mono (Link.Within.bind (n := 255) (k := length + 2) ?_ fun _ => ?_) (by omega)
  · exact .afterSilent (silent_tok _) (.afterSilent (silent_poll _) (hpolls _))
  · refine .ite ?_ ((Link.Within.pure _).mono (by omega))
    exact Link.Within.bind (hbytes _ _) fun data => Link.Within.andThen (n := 1) (k := 1) readByte_within
      (Link.Within.andThen (n := 1) (k := 0) readByte_within (.afterSilent (silent_store _ data) (.pure _)))

theorem transmitDatablock_within (off : Nat) (t : Token) :
    (transmitDatablock off t).Within .asserted (if t = .stopTran then 1501 else 2016) := by
  have hbytes : ∀ n i, (transmitBytes off i n).Within .asserted n := by
    intro n
    induction n with
    | zero => exact fun _ => .pure ()
    | succ n ih =>
      intro i
      refine .afterSilent (silent_byte _) (Link.Within.mono (Link.Within.andThen (n := 1) (k := n)
        (.reading fun b => writeByte_within b) (ih (i + 1))) (by omega))
  have hresp : readDresp.Within .asserted 1 :=
    Link.Within.bind (n := 1) (k := 0) readByte_within fun _ => .afterSilent (silent_dresp _) (.pure _)
  have hpay : (transmitPayload off).Within .asserted 515 :=
    Link.Within.andThen (n := 512) (k := 3) (hbytes _ _)
      (Link.Within.andThen (n := 2) (k := 1) (writeBytes_within _) hresp)
  have hbody : (transmitBody off t).Within .asserted (if t = .stopTran then 0 else 515) := by
    rw [transmitBody]
    split
    · exact .pure _
    · exact hpay
  refine Link.Within.mono (Link.Within.bind (n := 500) (k := 1 + ((if t = .stopTran then 0 else 515) + 1000))
    (waitReady_within _) fun _ => .ite ?_ ((Link.Within.pure _).mono (by omega))) (by split <;> omega)
  refine Link.Within.andThen (.afterSilent (silent_tok _) (writeByte_within _)) (Link.Within.bind hbody fun _ => ?_)
  exact Link.Within.andThen (n := 1000) (k := 0) (waitReady_within _) (.pure _)

/-! The commands with their data phases, from any chip-select. -/

theorem cmd17_within (addr : Word) (c : ChipSelect) : (cmd17 addr).Within c 1285 :=
  Link.Within.bind (n := 516) (k := 769) (sendCommand_within (cmd := cmd17Value) (by decide) _ c) fun _ =>
    .ite (receiveDatablock_within _ _) ((Link.Within.pure _).mono (by omega))

theorem cmd24_within (addr : Word) (c : ChipSelect) : (cmd24 addr).Within c 2532 :=
  Link.Within.bind (n := 516) (k := 2016) (sendCommand_within (cmd := cmd24Value) (by decide) _ c) fun _ =>
    .ite (transmitDatablock_within _ .startBlock) ((Link.Within.pure _).mono (by omega))

theorem receiveBlocks_within (n : Nat) : (receiveBlocks n).Within .asserted (769 * n) := by
  induction n with
  | zero => exact .pure _
  | succ n ih =>
    refine Link.Within.mono (Link.Within.bind (n := 769) (k := 769 * n) (.reading fun off =>
      receiveDatablock_within off _) fun _ => .ite ?_ ((Link.Within.pure _).mono (by omega))) (by omega)
    exact Link.Within.mono (Link.Within.andThen (n := 0) (.reading fun _ => .silent (silent_done _)) ih) (by omega)

theorem transmitBlocks_within (n : Nat) : (transmitBlocks n).Within .asserted (2016 * n) := by
  induction n with
  | zero => exact .pure _
  | succ n ih =>
    refine Link.Within.mono (Link.Within.bind (n := 2016) (k := 2016 * n) (.reading fun off =>
      transmitDatablock_within off .startMultiWrite) fun _ => .ite ?_ ((Link.Within.pure _).mono (by omega))) (by omega)
    exact Link.Within.mono (Link.Within.andThen (n := 0) (.reading fun _ => .silent (silent_done _)) ih) (by omega)

/-- CMD18 (R151): the bound is of the `count` latch. -/
theorem cmd18_within (addr : Word) (s : State) :
    (cmd18 addr).WithinAt s.cs (532 + 769 * s.count.toNat) s := by
  have hstart : Silent fun s : State => { s with done := 0 } := silent_done 0
  have hrest : (Link.bind (sendCommand cmd18Value addr) fun r =>
    Link.andThen
      (if isReady r then
        Link.reading State.count fun count =>
          Link.andThen (receiveBlocks count.toNat) (Link.andThen cmd12 (Link.pure ()))
      else Link.pure ())
      (Link.reading (fun s => s.done == s.count) Link.pure)).WithinAt s.cs (516 + (16 + 769 * s.count.toNat))
      { s with done := 0 } := by
    refine Link.WithinAt.bind (g := State.count) (sendCommand_within (cmd := cmd18Value) (by decide) addr s.cs _ rfl)
      (sendCommand_keeps sendKept_count _ _) rfl fun r t ht hcount => ?_
    refine Link.WithinAt.bind (n := 16 + 769 * s.count.toNat) (k := 0) (g := fun _ => ()) ?_ (fun _ => rfl) ht
      fun _ u hu _ => Link.Within.reading (fun _ => Link.Within.pure _) u hu
    split
    · rw [Link.WithinAt, Link.wp_reading, hcount]
      exact Link.Within.mono (Link.Within.andThen (receiveBlocks_within _) (Link.Within.andThen (n := 16) (k := 0)
        cmd12_within (.pure _))) (by simp only [Nat.add_zero]; omega) t ht
    · exact (Link.Within.pure ()).mono (by omega) t ht
  have := Link.wp_mono hrest (fun _ _ h => h) fun _ _ h => h
  rw [cmd18, Link.WithinAt, Link.wp_andThen, setDone, Link.wp_modify]
  refine Link.wp_mono this ?_ ?_
  · rintro a t ⟨ev, r, hn, hsel⟩
    exact ⟨ev, r.of_start rfl rfl rfl rfl rfl, by omega, hsel⟩
  · rintro code t ⟨ev, r, hn, hsel⟩
    exact ⟨ev, r.congr ⟨rfl, rfl, rfl, rfl, rfl⟩ ⟨rfl, rfl, rfl, rfl, rfl⟩, by omega, hsel⟩

/-- CMD25 (R154): the bound is of the `count` latch. -/
theorem cmd25_within (addr : Word) (s : State) :
    (cmd25 addr).WithinAt s.cs (2017 + 2016 * s.count.toNat) s := by
  have hrest : (Link.bind (sendCommand cmd25Value addr) fun r =>
    if isReady r then
      Link.reading State.count fun count =>
        Link.andThen (transmitBlocks count.toNat) (Link.bind (transmitDatablock 0 .stopTran) fun st =>
          Link.reading (fun s => s.done == s.count && st) Link.pure)
    else Link.pure false).WithinAt s.cs (516 + (1501 + 2016 * s.count.toNat)) { s with done := 0 } := by
    refine Link.WithinAt.bind (g := State.count) (sendCommand_within (cmd := cmd25Value) (by decide) addr s.cs _ rfl)
      (sendCommand_keeps sendKept_count _ _) rfl fun r t ht hcount => ?_
    replace hcount : t.count = s.count := hcount
    split
    · rw [Link.WithinAt, Link.wp_reading, hcount]
      exact Link.Within.mono (Link.Within.andThen (transmitBlocks_within _) (Link.Within.bind (n := 1501) (k := 0)
        (transmitDatablock_within 0 .stopTran) fun _ => .reading fun _ => .pure _)) (by omega) t ht
    · exact (Link.Within.pure false).mono (by omega) t ht
  have := Link.wp_mono hrest (fun _ _ h => h) fun _ _ h => h
  rw [cmd25, Link.WithinAt, Link.wp_andThen, setDone, Link.wp_modify]
  refine Link.wp_mono this ?_ ?_
  · rintro a t ⟨ev, r, hn, hsel⟩
    exact ⟨ev, r.of_start rfl rfl rfl rfl rfl, by omega, hsel⟩
  · rintro code t ⟨ev, r, hn, hsel⟩
    exact ⟨ev, r.congr ⟨rfl, rfl, rfl, rfl, rfl⟩ ⟨rfl, rfl, rfl, rfl, rfl⟩, by omega, hsel⟩

/-! The transfers of the host operations, before their closing Deselect. -/

/-- The most exchanges of a read of `count` blocks (R151). -/
def readBound (count : Word) : Nat := if count = 1 then 1285 else 532 + 769 * count.toNat

/-- The most exchanges of a write of `count` blocks (R154). -/
def writeBound (count : Word) : Nat := if count = 1 then 2532 else 3049 + 2016 * count.toNat

/-- A silent start, at one state. -/
theorem Link.WithinAt.afterSilent {c : ChipSelect} {n : Nat} {u : State → State} {k : Link β} {s : State}
    (hu : Silent u) (hk : k.WithinAt c n (u s)) : (Link.andThen (Link.modify u) k).WithinAt c n s := by
  rw [Link.WithinAt, Link.wp_andThen, Link.wp_modify]
  refine Link.wp_mono hk ?_ ?_
  · rintro b t ⟨ev, r, hn, hsel⟩
    exact ⟨ev, r.of_start (hu.trace s) (hu.cs s) (hu.oracle s) (hu.draws s) (hu.params s), hn, hsel⟩
  · rintro code t ⟨ev, r, hn, hsel⟩
    exact ⟨ev, r.congr ⟨(hu.trace s).symm, (hu.cs s).symm, (hu.oracle s).symm, (hu.draws s).symm,
      (hu.params s).symm⟩ ⟨rfl, rfl, rfl, rfl, rfl⟩, hn, hsel⟩

theorem readTransfer_within (s : State) : readTransfer.WithinAt s.cs (readBound s.count) s := by
  refine Link.WithinAt.afterSilent (silent_addr fun s => translate s.cardType s.sector) ?_
  rw [Link.WithinAt, Link.wp_reading, Link.wp_reading, readBound]
  show Link.wp (if s.count = 1 then _ else _) _ _ _
  by_cases hc : s.count = 1
  · simp only [if_pos hc]
    exact cmd17_within _ s.cs _ rfl
  · simp only [if_neg hc]
    exact cmd18_within _ _

theorem writeTransfer_within (s : State) : writeTransfer.WithinAt s.cs (writeBound s.count) s := by
  refine Link.WithinAt.afterSilent (silent_addr fun s => translate s.cardType s.sector) ?_
  rw [Link.WithinAt, Link.wp_reading, Link.wp_reading, writeBound]
  show Link.wp (if s.count = 1 then _ else _) _ _ _
  by_cases hc : s.count = 1
  · simp only [if_pos hc]
    exact cmd24_within _ s.cs _ rfl
  · simp only [if_neg hc, Link.wp_reading]
    cases sendsAcmd23 { s with addr := translate s.cardType s.sector } with
    | false =>
      refine Link.wp_mono (cmd25_within _ { s with addr := translate s.cardType s.sector }) ?_ ?_
      · rintro a t ⟨ev, r, hn, hsel⟩
        exact ⟨ev, r, by simp only at hn; omega, hsel⟩
      · rintro code t ⟨ev, r, hn, hsel⟩
        exact ⟨ev, r, by simp only at hn; omega, hsel⟩
    | true =>
      have hpre : (Link.andThen (acmd23 s.count) (Link.pure ())).WithinAt s.cs 1032
          { s with addr := translate s.cardType s.sector } :=
        Link.WithinAt.bind (n := 1032) (k := 0) (g := fun _ => ())
          (sendCommand_within (cmd := acmd23Value) (by decide) _ s.cs _ rfl) (fun _ => rfl) rfl
          fun _ t ht _ => Link.Within.pure _ t ht
      have hkeep : (Link.andThen (acmd23 s.count) (Link.pure ())).Keeps (Same State.count) :=
        .andThen (Same.composes _) (sendCommand_keeps sendKept_count _ _) (.pure (Same.composes _) _)
      have := Link.WithinAt.bind (k := 2017 + 2016 * s.count.toNat) (f := fun _ => cmd25 (translate s.cardType s.sector))
        hpre hkeep rfl fun _ t ht hcount => by
          have h25 := cmd25_within (translate s.cardType s.sector) t
          rw [ht, hcount] at h25
          exact h25
      refine Link.wp_mono this ?_ ?_
      · rintro a t ⟨ev, r, hn, hsel⟩
        exact ⟨ev, r, by omega, hsel⟩
      · rintro code t ⟨ev, r, hn, hsel⟩
        exact ⟨ev, r, by omega, hsel⟩

/-! disk_initialize, as one block. -/

theorem retryCommand_within {cmd : Link Byte} {n : Nat} (h : cmd.Within .asserted n) :
    (retryCommand cmd).Within .asserted (1000 * n) := by
  have hloop : ∀ k, (retryLoop cmd k).Within .asserted (k * n) := by
    intro k
    induction k with
    | zero => exact (Link.Within.pure _).mono (by omega)
    | succ k ih =>
      refine .afterSilent (silent_iter _) (Link.Within.mono (Link.Within.bind h fun _ => .ite
        ((Link.Within.pure _).mono (Nat.zero_le (k * n))) ih) (by rw [Nat.succ_mul]; omega))
  exact .afterSilent (silent_iter _) (hloop 1000)

theorem flatLength_within : flatLength.Within .asserted 516 :=
  Link.Within.bind (n := 516) (k := 0) (sendCommand_within (cmd := cmd16Value) (by decide) _ _) fun _ =>
    .ite (.silent (silent_ty _)) (.pure _)

theorem flatOcr_within : flatOcr.Within .asserted 1036 :=
  Link.Within.bind (n := 516) (k := 520) (sendCommand_within (cmd := cmd58Value) (by decide) _ _) fun _ =>
    .ite (Link.Within.andThen (n := 4) (k := 516) readTrail_within (.reading fun _ =>
      .afterSilent (silent_ty _) flatLength_within)) ((Link.Within.pure _).mono (by omega))

theorem flatAdvanced_within : flatAdvanced.Within .asserted 1033036 :=
  Link.Within.bind (n := 1032000) (k := 1036)
    (retryCommand_within (n := 1032) (sendCommand_within (cmd := acmd41Value) (by decide) _ _)) fun _ =>
    .ite flatOcr_within ((Link.Within.pure _).mono (by omega))

theorem flatLegacy_within : flatLegacy.Within .asserted 1033548 := by
  have hretry : ∀ rc : Command, (retryCommand (sendCommand rc 0)).Within .asserted 1032000 := by
    intro rc
    refine retryCommand_within (n := 1032) ?_
    by_cases h12 : rc.index = 12
    · rw [sendCommand]
      refine .ite (Link.Within.bind (n := 516) (k := 516) (sendStandard_within _ _) fun _ =>
        .ite ((Link.Within.pure _).mono (by omega)) (sendStandard_within _ _))
        ((sendStandard_within _ _).mono (by omega))
    · exact (sendCommand_within h12 _ _).mono (by split <;> omega)
  refine Link.Within.bind (n := 1032) (k := 1032516) (sendCommand_within (cmd := acmd41Value) (by decide) _ _)
    fun _ => Link.Within.mono (Link.Within.andThen (n := 0) (k := 1032516) ?_ (.reading fun rc => ?_)) (by omega)
  · exact .ite (.afterSilent (silent_ty _) (.silent (silent_rc _))) (.afterSilent (silent_ty _) (.silent (silent_rc _)))
  · exact Link.Within.bind (n := 1032000) (k := 516) (hretry rc) fun _ =>
      .ite flatLength_within (Link.Within.mono (.silent (silent_ty _)) (by omega))

theorem flatVoltage_within : flatVoltage.Within .asserted 1034064 :=
  Link.Within.bind (n := 516) (k := 1033548) (sendCommand_within (cmd := cmd8Value) (by decide) _ _) fun _ =>
    .ite (Link.Within.mono (Link.Within.andThen (n := 4) (k := 1033036) readTrail_within (.reading fun _ =>
      .ite flatAdvanced_within ((Link.Within.pure _).mono (by omega)))) (by omega)) flatLegacy_within

theorem flatIdentify_within : flatIdentify.Within .asserted 1034580 :=
  Link.Within.bind (n := 516) (k := 1034064) (sendCommand_within (cmd := cmd0Value) (by decide) _ _) fun _ =>
    .ite flatVoltage_within ((Link.Within.pure _).mono (by omega))

/-- A plain Select, from any chip-select. -/
theorem select_within {m : Link α} {n : Nat} (c : ChipSelect) (h : m.Within .asserted n) :
    (Link.andThen select m).Within c n := by
  intro s hs
  rw [Link.WithinAt, Link.wp_andThen, select, Link.wp_modify]
  refine Link.wp_mono (h _ rfl) ?_ ?_
  · rintro a t ⟨ev, r, hn, hsel, hcs⟩
    exact ⟨_, (Ran.sel s).trans r, by simpa using hn, by simp [selectedThroughout, hsel], by simp [csAfter, hcs]⟩
  · rintro code t ⟨ev, r, hn, hsel⟩
    exact ⟨_, (Ran.sel s).trans_aborted r, by simpa using hn, by simp [selectedThroughout, hsel]⟩

/-- The whole of R131 before its conclusion: at most 1 034 590 exchanges (R134). -/
theorem flat_within (c : ChipSelect) :
    (Link.andThen (setTy .none) (Link.andThen select (Link.andThen (writeBytes (List.replicate 10 0xFF))
      flatIdentify))).Within c 1034590 :=
  .afterSilent (silent_ty _) (select_within c (Link.Within.andThen (n := 10) (k := 1034580)
    (writeBytes_within _) flatIdentify_within))

end Sys2Proof.Machine
end

