-- ==== Sys2Proof/Laws/Runs.lean ====
section
/-! SUPPORT. What every row does to the link, whatever chip-select is: it runs, or it is aborted by a link fault. With what
the rows leave alone, this gives how a row ends as a step of its own. -/

namespace Sys2Proof.Machine

variable {α β : Type}

/-- `m` runs or is aborted; and where no link fault is possible it does the same up to the one it was aborted by, and goes
on (R185: "every event before the failing one has happened exactly as on the success path"). -/
structure Link.Runs (m : Link α) : Prop where
  ends : ∀ s, m.wp (fun _ t => ∃ ev, Ran s t ev) (fun code t => ∃ ev, Aborted s t ev code) s
  goesOn : ∀ s, m.wp (fun a t => m s.faultless = .ok a t.faultless)
    (fun _ t => ∃ a u rest, m s.faultless = .ok a u ∧ u.trace = t.trace ++ rest) s

/-- A link fault is admitted only where LINK_FAULTS is true (R88). -/
theorem State.linkFaults_of_fault {s : State} {code : Nat} (h : s.nextAnswer = .fault code) :
    s.params.linkFaults = true := by
  cases hl : s.params.linkFaults with
  | true => rfl
  | false =>
    obtain ⟨b, hb⟩ := State.nextAnswer_byte hl
    rw [h] at hb
    cases hb

theorem Aborted.enabled {s t : State} {ev : List Event} {code : Nat} (h : Aborted s t ev code) :
    s.params.linkFaults = true := State.linkFaults_of_fault (s := s.after ev) h.failed

/-- The bytes the environment answers are the same without LINK_FAULTS. -/
theorem State.nextAnswer_faultless {s : State} {b : Byte} (h : s.nextAnswer = .byte b) :
    s.faultless.nextAnswer = .byte b := by
  have hb : ∀ code : Nat, Answer.fault code ≠ .byte b := nofun
  simp only [State.nextAnswer, State.freeAnswer, State.faultless, Bool.false_eq_true, if_false] at h ⊢
  cases ho : s.oracle with
  | nil =>
    rw [ho] at h
    cases hf : Config.freeFault s.draws <;> cases hl : s.params.linkFaults <;> simp_all
  | cons a rest =>
    rw [ho] at h
    cases a with
    | byte x => exact h
    | fault code => cases hl : s.params.linkFaults <;> simp_all

/-- Without LINK_FAULTS a computation ends with a value. -/
theorem Link.Runs.faultless {m : Link α} (h : m.Runs) {s : State} (hs : s.params.linkFaults = false) :
    ∃ a t ev, m s = .ok a t ∧ Ran s t ev := by
  have hr := h.ends s
  unfold Link.wp at hr
  cases hm : m s with
  | ok a t =>
    rw [hm] at hr
    obtain ⟨ev, hr⟩ := hr
    exact ⟨a, t, ev, rfl, hr⟩
  | fault c t =>
    rw [hm] at hr
    obtain ⟨ev, hr⟩ := hr
    exact absurd hr.enabled (by simp [hs])

theorem Link.Runs.pure (a : α) : (Link.pure a).Runs := ⟨fun s => ⟨[], Ran.refl s⟩, fun _ => rfl⟩

theorem Link.Runs.silent {u : State → State} (h : Silent u) : (Link.modify u).Runs :=
  ⟨fun s => ⟨[], Ran.nil (h.trace s) (h.cs s) (h.oracle s) (h.draws s) (h.params s)⟩,
    fun s => congrArg (LinkResult.ok ()) (h.faultless s)⟩

theorem Link.Runs.reading {f : State → α} {k : α → Link β} (h : ∀ a, (k a).Runs)
    (hf : ∀ s, f s.faultless = f s := by intros; rfl) : (Link.reading f k).Runs :=
  ⟨fun s => (h (f s)).ends s, fun s => by
    have e : Link.reading f k s.faultless = k (f s) s.faultless := by rw [Link.reading, hf]
    rw [e]
    exact (h (f s)).goesOn s⟩

theorem Link.Runs.ite {p : Prop} [Decidable p] {a b : Link α} (ha : a.Runs) (hb : b.Runs) :
    Link.Runs (if p then a else b) := by
  split
  · exact ha
  · exact hb

theorem Link.Runs.bind {m : Link α} {f : α → Link β} (hm : m.Runs) (hf : ∀ a, (f a).Runs) :
    (Link.bind m f).Runs where
  ends s := by
    rw [Link.wp_bind]
    refine Link.wp_mono (hm.ends s) ?_ fun _ _ h => h
    rintro a t ⟨e1, r1⟩
    refine Link.wp_mono ((hf a).ends t) ?_ ?_
    · rintro b u ⟨e2, r2⟩
      exact ⟨_, r1.trans r2⟩
    · rintro code u ⟨e2, r2⟩
      exact ⟨_, r1.trans_aborted r2⟩
  goesOn s := by
    have hg := hm.goesOn s
    unfold Link.wp at hg
    rw [Link.wp_bind, Link.wp]
    cases h : m s with
    | ok a t =>
      rw [h] at hg
      simp only [Link.bind, hg]
      exact (hf a).goesOn t
    | fault c t =>
      rw [h] at hg
      obtain ⟨a, u, rest, hu, htr⟩ := hg
      obtain ⟨a', u', ev, hu', hr⟩ := hm.faultless (s := s.faultless) rfl
      rw [hu] at hu'
      cases hu'
      obtain ⟨b, v, ev2, hv, hr2⟩ := (hf a).faultless (s := u) (by rw [hr.params]; rfl)
      exact ⟨b, v, rest ++ ev2, by simp only [Link.bind, hu, hv], by rw [hr2.trace, htr, List.append_assoc]⟩

theorem Link.Runs.andThen {m : Link α} {k : Link β} (hm : m.Runs) (hk : k.Runs) : (Link.andThen m k).Runs :=
  .bind hm fun _ => hk

theorem select_runs : select.Runs := ⟨fun s => ⟨_, Ran.sel s⟩, fun _ => rfl⟩
theorem deselect_runs : deselect.Runs := ⟨fun s => ⟨_, Ran.des s⟩, fun _ => rfl⟩

theorem xfer_runs (tx : Byte) : (xfer tx).Runs where
  ends s := by
    rw [xfer_wp]
    exact ⟨fun rx h => ⟨_, Ran.xfer h⟩, fun code h => ⟨[], Ran.abort h⟩⟩
  goesOn s := by
    rw [xfer_wp]
    refine ⟨fun rx h => ?_, fun code h => ?_⟩
    · simp only [xfer, State.nextAnswer_faultless h]
      rfl
    · obtain ⟨b, hb⟩ := State.nextAnswer_byte (s := s.faultless) rfl
      exact ⟨b, { s.faultless.drawn with trace := s.trace ++ [.xfer tx b] }, [.xfer tx b],
        by simp only [xfer, hb]; rfl, rfl⟩

theorem readByte_runs : readByte.Runs := xfer_runs _

theorem writeByte_runs (b : Byte) : (writeByte b).Runs := .andThen (xfer_runs b) (.pure ())

theorem writeBytes_runs (bs : List Byte) : (writeBytes bs).Runs := by
  induction bs with
  | nil => exact .pure ()
  | cons b rest ih => exact .andThen (writeByte_runs b) ih

theorem startPoll_runs : startPoll.Runs := .silent (silent_poll _)
theorem countPoll_runs : countPoll.Runs := .silent (silent_poll _)

theorem waitReady_runs (n : Nat) : (waitReady n).Runs := by
  refine .andThen startPoll_runs ?_
  induction n with
  | zero => exact .pure _
  | succ n ih =>
    exact .bind (.andThen countPoll_runs (.bind readByte_runs fun _ => .pure _)) fun _ => .ite (.pure _) ih

theorem readR1_runs : readR1.Runs := by
  have hread : (Link.reading State.resp Link.pure).Runs := .reading fun _ => .pure _
  have hpolls : ∀ n, (r1Polls n).Runs := by
    intro n
    induction n with
    | zero => exact hread
    | succ n ih =>
      exact .bind (.andThen countPoll_runs (.bind readByte_runs fun _ => .andThen (.silent (silent_resp _)) (.pure _)))
        fun _ => .ite hread ih
  exact .andThen startPoll_runs (hpolls _)

theorem sendFrame_runs (index : BitVec 6) (arg : Word) : (sendFrame index arg).Runs :=
  .andThen (.silent (silent_frame _)) (.andThen (.reading fun x => writeBytes_runs x.bytes) readR1_runs)

theorem sendStandard_runs (index : BitVec 6) (arg : Word) : (sendStandard index arg).Runs :=
  .ite (sendFrame_runs _ _) (.andThen deselect_runs (.andThen select_runs (.bind (waitReady_runs _) fun _ =>
    .ite (sendFrame_runs _ _) (.pure _))))

theorem sendCommand_runs (cmd : Command) (arg : Word) : (sendCommand cmd arg).Runs :=
  .ite (.bind (sendStandard_runs _ _) fun _ => .ite (.pure _) (sendStandard_runs _ _)) (sendStandard_runs _ _)

theorem readTrail_runs : readTrail.Runs :=
  have hbyte : ∀ k, (readTrailByte k).Runs := fun k => .bind readByte_runs fun _ => .silent (silent_trail k _)
  .andThen (hbyte 0) (.andThen (hbyte 1) (.andThen (hbyte 2) (hbyte 3)))

theorem receiveDatablock_runs (off length : Nat) : (receiveDatablock off length).Runs := by
  have hread : (Link.reading State.tok Link.pure).Runs := .reading fun _ => .pure _
  have hpolls : ∀ n, (tokenPolls n).Runs := by
    intro n
    induction n with
    | zero => exact hread
    | succ n ih =>
      exact .bind (.andThen countPoll_runs (.bind readByte_runs fun _ => .andThen (.silent (silent_tok _)) (.pure _)))
        fun _ => .ite hread ih
  have hbytes : ∀ n i, (receiveBytes i n).Runs := by
    intro n
    induction n with
    | zero => exact fun _ => .pure _
    | succ n ih =>
      exact fun i => .andThen (.silent (silent_byte _)) (.bind readByte_runs fun _ =>
        .bind (ih (i + 1)) fun _ => .pure _)
  exact .bind (.andThen (.silent (silent_tok _)) (.andThen startPoll_runs (hpolls _))) fun _ =>
    .ite (.bind (hbytes _ _) fun data => .andThen readByte_runs (.andThen readByte_runs
      (.andThen (.silent (silent_store off data)) (.pure _)))) (.pure _)

theorem transmitDatablock_runs (off : Nat) (t : Token) : (transmitDatablock off t).Runs := by
  have hbytes : ∀ n i, (transmitBytes off i n).Runs := by
    intro n
    induction n with
    | zero => exact fun _ => .pure ()
    | succ n ih =>
      exact fun i => .andThen (.silent (silent_byte _)) (.andThen (.reading fun b => writeByte_runs b) (ih (i + 1)))
  have hresp : readDresp.Runs := .bind readByte_runs fun _ => .andThen (.silent (silent_dresp _)) (.pure _)
  have hpay : (transmitPayload off).Runs := .andThen (hbytes _ _) (.andThen (writeBytes_runs _) hresp)
  exact .bind (waitReady_runs _) fun _ => .ite
    (.andThen (.andThen (.silent (silent_tok _)) (writeByte_runs _)) (.bind (.ite (.pure _) hpay) fun _ =>
      .andThen (waitReady_runs _) (.pure _))) (.pure _)

theorem cmd8_runs : cmd8.Runs :=
  .bind (sendCommand_runs _ _) fun _ => .ite (.andThen readTrail_runs (.pure _)) (.pure _)

theorem cmd16_runs : cmd16.Runs :=
  .bind (sendCommand_runs _ _) fun _ => .ite (.pure _) (.andThen (.silent (silent_ty _)) (.pure _))

theorem cmd58_runs : cmd58.Runs :=
  .bind (sendCommand_runs _ _) fun _ => .ite (.andThen (.andThen readTrail_runs (.reading fun _ =>
    .silent (silent_ty _))) (.pure _)) (.pure _)

theorem cmd17_runs (addr : Word) : (cmd17 addr).Runs :=
  .bind (sendCommand_runs _ _) fun _ => .ite (receiveDatablock_runs _ _) (.pure _)

theorem cmd18_runs (addr : Word) : (cmd18 addr).Runs := by
  have hblocks : ∀ n, (receiveBlocks n).Runs := by
    intro n
    induction n with
    | zero => exact .pure ()
    | succ n ih =>
      exact .bind (.reading fun off => receiveDatablock_runs off _) fun _ =>
        .ite (.andThen (.reading fun _ => .silent (silent_done _)) ih) (.pure _)
  exact .andThen (.silent (silent_done _)) (.bind (sendCommand_runs _ _) fun _ => .andThen
    (.ite (.reading fun _ => .andThen (hblocks _) (.andThen (sendCommand_runs _ _) (.pure _))) (.pure _))
    (.reading fun _ => .pure _))

theorem cmd24_runs (addr : Word) : (cmd24 addr).Runs :=
  .bind (sendCommand_runs _ _) fun _ => .ite (transmitDatablock_runs _ _) (.pure _)

theorem cmd25_runs (addr : Word) : (cmd25 addr).Runs := by
  have hblocks : ∀ n, (transmitBlocks n).Runs := by
    intro n
    induction n with
    | zero => exact .pure ()
    | succ n ih =>
      exact .bind (.reading fun off => transmitDatablock_runs off _) fun _ =>
        .ite (.andThen (.reading fun _ => .silent (silent_done _)) ih) (.pure _)
  exact .andThen (.silent (silent_done _)) (.bind (sendCommand_runs _ _) fun _ => .ite
    (.reading fun _ => .andThen (hblocks _) (.bind (transmitDatablock_runs _ _) fun _ =>
      .reading fun _ => .pure _)) (.pure _))

/-! How a row ends. -/

/-- Taking the fault of an aborted run (R186). -/
theorem Aborted.taken {s t : State} {ev : List Event} {code : Nat} (h : Aborted s t ev code) :
    FaultTaken s (t.takeLinkFault code) ev code where
  enabled := h.enabled
  answers := h.answers
  failed := h.failed
  trace := by
    show t.trace ++ [.des] = _
    rw [h.trace, List.append_assoc]
  cs := rfl
  oracle := h.oracle
  draws := h.draws
  result := rfl
  seq := rfl

theorem FaultTaken.congr {s t t' : State} {ev : List Event} {code : Nat} (h : FaultTaken s t ev code)
    (ht : t'.trace = t.trace) (hc : t'.cs = t.cs) (ho : t'.oracle = t.oracle) (hd : t'.draws = t.draws)
    (hr : t'.result = t.result) (hq : t'.seq = t.seq) : FaultTaken s t' ev code :=
  ⟨h.enabled, h.answers, h.failed, ht.trans h.trace, hc.trans h.cs, ho.trans h.oracle, hd.trans h.draws,
    hr.trans h.result, hq.trans h.seq⟩

/-- A blanked form that hides the trace but neither the micro-result nor what a link fault writes. -/
structure RowBlank (blank : State → State) : Prop where
  shows : ∀ t, (blank t).microResult = t.microResult
  fault : ∀ s t x, blank t = blank s → blank { t with
    trace := x, microResult := s.microResult, cardType := s.cardType, cs := s.cs, result := s.result, seq := s.seq }
      = blank s

theorem rowBlank_link : RowBlank State.linkBlank := by
  refine ⟨fun _ => rfl, fun s t x h => ?_⟩
  simp only [State.linkBlank, State.mk.injEq] at h ⊢
  simp_all
theorem rowBlank_send : RowBlank State.sendBlank := by
  refine ⟨fun _ => rfl, fun s t x h => ?_⟩
  simp only [State.sendBlank, State.mk.injEq] at h ⊢
  simp_all
theorem rowBlank_blockIn : RowBlank State.blockInBlank := by
  refine ⟨fun _ => rfl, fun s t x h => ?_⟩
  simp only [State.blockInBlank, State.mk.injEq] at h ⊢
  simp_all
theorem rowBlank_blockOut : RowBlank State.blockOutBlank := by
  refine ⟨fun _ => rfl, fun s t x h => ?_⟩
  simp only [State.blockOutBlank, State.mk.injEq] at h ⊢
  simp_all
theorem rowBlank_token : RowBlank State.tokenBlank := by
  refine ⟨fun _ => rfl, fun s t x h => ?_⟩
  simp only [State.tokenBlank, State.linkBlank, State.mk.injEq] at h ⊢
  simp_all
theorem rowBlank_readOne : RowBlank State.readOneBlank := by
  refine ⟨fun _ => rfl, fun s t x h => ?_⟩
  simp only [State.readOneBlank, State.sendBlank, State.mk.injEq] at h ⊢
  simp_all
theorem rowBlank_readMany : RowBlank State.readManyBlank := by
  refine ⟨fun _ => rfl, fun s t x h => ?_⟩
  simp only [State.readManyBlank, State.readOneBlank, State.sendBlank, State.mk.injEq] at h ⊢
  simp_all
theorem rowBlank_writeOne : RowBlank State.writeOneBlank := by
  refine ⟨fun _ => rfl, fun s t x h => ?_⟩
  simp only [State.writeOneBlank, State.sendBlank, State.mk.injEq] at h ⊢
  simp_all
theorem rowBlank_writeMany : RowBlank State.writeManyBlank := by
  refine ⟨fun _ => rfl, fun s t x h => ?_⟩
  simp only [State.writeManyBlank, State.writeOneBlank, State.sendBlank, State.mk.injEq] at h ⊢
  simp_all
theorem rowBlank_echo : RowBlank State.echoBlank := by
  refine ⟨fun _ => rfl, fun s t x h => ?_⟩
  simp only [State.echoBlank, State.sendBlank, State.mk.injEq] at h ⊢
  simp_all
theorem rowBlank_length : RowBlank State.lengthBlank := by
  refine ⟨fun _ => rfl, fun s t x h => ?_⟩
  simp only [State.lengthBlank, State.sendBlank, State.mk.injEq] at h ⊢
  simp_all
theorem rowBlank_ocr : RowBlank State.ocrBlank := by
  refine ⟨fun _ => rfl, fun s t x h => ?_⟩
  simp only [State.ocrBlank, State.sendBlank, State.mk.injEq] at h ⊢
  simp_all

/-- The phase decides whether a fault loses the card type; a row keeps both, where its blanked form shows them. -/
structure ShowsCard (blank : State → State) : Prop where
  seq : ∀ t, (blank t).seq = t.seq
  cardType : ∀ t, (blank t).cardType = t.cardType

/-- A row's end from what its computation runs, does and leaves alone. -/
theorem Link.rowEnds {m : Link α} {report : α → MicroResult} {blank : State → State} {s : State}
    {P : State → List Event → MicroResult → Prop} (hb : RowBlank blank) (hc : ShowsCard blank) (hruns : m.Runs)
    (hkeep : m.Keeps (Same blank)) (hdone : m.wp (fun a t => ∃ ev, P t ev (report a) ∧ Ran s t ev) anyFault s)
    (hP : ∀ t ev r x, P t ev r → P { t with microResult := x } ev r) :
    RowEnds blank s ((m s).record report) (P ((m s).record report)) := by
  have hk := hkeep s
  have hr := hruns.ends s
  unfold Link.wp at hdone hr
  cases hm : m s with
  | ok a t =>
    rw [hm] at hdone hk
    obtain ⟨ev, hev, hran⟩ := hdone
    have hk' : blank t = blank s := hk
    have hmr : t.microResult = s.microResult := by rw [← hb.shows t, hk', hb.shows]
    refine .inl ⟨ev, report a, hP t ev _ _ hev, hran.of_eq rfl rfl rfl rfl rfl, rfl, ?_⟩
    show blank { t with microResult := s.microResult } = blank s
    rw [← hmr]
    exact hk'
  | fault c t =>
    rw [hm] at hr hk
    obtain ⟨ev, hev⟩ := hr
    have hk' : blank t = blank s := hk
    have hseq : t.seq = s.seq := by rw [← hc.seq t, hk', hc.seq]
    have hct : t.cardType = s.cardType := by rw [← hc.cardType t, hk', hc.cardType]
    refine .inr ⟨ev, c, hev.taken.congr rfl rfl rfl rfl rfl rfl, rfl, ?_, hb.fault s t _ hk'⟩
    show (if t.seq.initializing then _ else t.cardType) = _
    rw [hseq, hct]

end Sys2Proof.Machine
end

