-- ==== Sys2Proof/Laws/Buffer.lean ====
section
/-! SUPPORT. Where the blocks received stand in the host buffer, and which of its bytes an operation cannot touch (20_memory
R32, R33). -/

namespace Sys2Proof.Machine

/-! Blocks laid end to end. -/

theorem flatten_block_get {blocks : List (List Byte)} (hl : ∀ b ∈ blocks, b.length = 512) {k j : Nat}
    (hk : k < blocks.length) (hj : j < 512) :
    ∃ h : k * 512 + j < blocks.flatten.length,
      blocks.flatten[k * 512 + j] = (blocks[k])[j]'(by rw [hl _ (List.getElem_mem hk)]; exact hj) := by
  induction blocks generalizing k with
  | nil => simp at hk
  | cons b rest ih =>
    have hb : b.length = 512 := hl b (by simp)
    cases k with
    | zero =>
      refine ⟨by simp [hb]; omega, ?_⟩
      simp only [List.flatten_cons]
      rw [List.getElem_append_left (by omega)]
      simp
    | succ k =>
      obtain ⟨h1, h2⟩ := ih (fun x hx => hl x (by simp [hx])) (k := k) (by simpa using hk)
      have e : (k + 1) * 512 = k * 512 + 512 := Nat.succ_mul k 512
      refine ⟨?_, ?_⟩
      · rw [e, List.flatten_cons, List.length_append, hb, Nat.add_right_comm, Nat.add_comm]
        exact Nat.add_lt_add_left h1 512
      · simp only [List.flatten_cons]
        rw [List.getElem_append_right (by omega)]
        simp only [hb, show (k + 1) * 512 + j - 512 = k * 512 + j by omega, List.getElem_cons_succ]
        exact h2

theorem flatten_blocks_length {blocks : List (List Byte)} (hl : ∀ b ∈ blocks, b.length = 512) :
    blocks.flatten.length = blocks.length * 512 := by
  induction blocks with
  | nil => rfl
  | cons b r ih =>
    simp only [List.flatten_cons, List.length_append, List.length_cons, hl b (by simp),
      ih fun x hx => hl x (by simp [hx])]
    omega

/-- Blocks stored end to end from the buffer's start are its blocks. -/
theorem stored_of_store {t s : State} {blocks : List (List Byte)} (hl : ∀ b ∈ blocks, b.length = 512)
    (hwf : s.buf.cells.wf) (h : t.buf = ⟨s.buf.size, s.buf.cells.store 0 blocks.flatten⟩) : Stored t blocks := by
  intro k hk
  have hlen : (blocks[k]).length = 512 := hl _ (List.getElem_mem hk)
  refine List.ext_getElem (by simp [State.block, hlen]) fun j h1 h2 => ?_
  have hj : j < 512 := by simpa [State.block] using h1
  obtain ⟨hlt, heq⟩ := flatten_block_get hl hk hj
  simp only [State.block, List.getElem_map, List.getElem_range, State.bufByte, h]
  have hread := Memory.read_store_same hwf (off := 0) hlt
  rw [Nat.zero_add] at hread
  rw [hread, heq]

theorem SingleReadTrace.blocks_length {addr : Word} {ev : List Event} {blocks : List (List Byte)} {ok : Bool}
    (h : SingleReadTrace addr ev blocks ok) : (∀ b ∈ blocks, b.length = 512) ∧ blocks.length ≤ 1 := by
  cases h with
  | rejected => simp
  | failed => simp
  | stored ev block data h1 h2 => cases h2 with | received k _ c0 c1 hk hlen => simpa using hlen

theorem MultiReadTrace.blocks_length {addr : Word} {n : Nat} {ev : List Event} {blocks : List (List Byte)} {ok : Bool}
    (h : MultiReadTrace addr n ev blocks ok) : (∀ b ∈ blocks, b.length = 512) ∧ blocks.length ≤ n := by
  cases h with
  | rejected => simp
  | opened ev loop stop blocks r h1 h2 h3 => exact ⟨h2.block_length, h2.length_le⟩

/-! Bytes that cannot change. -/

/-- The buffer bytes outside `lo .. hi-1` are the same at both ends. -/
def Outside (lo hi : Nat) : State → State → Prop := fun s t => ∀ a, a < lo ∨ hi ≤ a → t.bufByte a = s.bufByte a

theorem Outside.composes (lo hi : Nat) : Composes (Outside lo hi) :=
  ⟨fun _ _ _ => rfl, fun _ _ _ h1 h2 a ha => (h2 a ha).trans (h1 a ha)⟩

theorem readKept_outside (lo hi : Nat) : ReadKept (Outside lo hi) :=
  ⟨Outside.composes _ _, fun _ _ _ => rfl, fun _ _ _ _ _ => rfl, fun _ _ _ _ => rfl⟩

theorem sendKept_outside (lo hi : Nat) : SendKept (Outside lo hi) :=
  ⟨readKept_outside _ _, fun _ _ _ _ => rfl, fun _ _ _ _ => rfl, fun _ _ _ => rfl, fun _ _ _ => rfl⟩

theorem storeBytes_outside (lo hi off : Nat) (data : List Byte) (h1 : lo ≤ off) (h2 : off + data.length ≤ hi)
    (s : State) : Outside lo hi s (s.storeBytes off data) := fun _ ha => Memory.read_store_other (by omega)

/-- What is stored is the bytes read, as many as were asked for. -/
theorem receiveDatablock_outside (lo hi off n : Nat) (h1 : lo ≤ off) (h2 : off + n ≤ hi) :
    (receiveDatablock off n).Keeps (Outside lo hi) := by
  have hcomp := Outside.composes lo hi
  have hread := readKept_outside lo hi
  have hpure : ∀ b : Bool, (Link.pure b).Keeps (Outside lo hi) := fun b => .pure hcomp b
  refine .bind hcomp (readToken_keeps hread fun _ _ _ _ => rfl) fun tok => .ite (fun s => ?_) (hpure _)
  have hk := receiveBytes_keeps hread (fun _ _ _ _ => rfl) 0 n s
  have hl := receiveBytes_sound 0 n s
  unfold Link.wp at hl
  simp only [Link.bind]
  cases hm : receiveBytes 0 n s with
  | ok data t =>
    rw [hm] at hk hl
    obtain ⟨_, ⟨hlen, -⟩, -⟩ := hl
    have hstore : (Link.modify fun s => s.storeBytes off data).Keeps (Outside lo hi) :=
      storeBytes_outside lo hi off data h1 (by omega)
    exact hcomp.trans _ _ _ hk (Link.Keeps.andThen hcomp (readByte_keeps hread) (.andThen hcomp (readByte_keeps hread)
      (.andThen hcomp hstore (hpure true))) t)
  | fault c t =>
    rw [hm] at hk
    exact hk

theorem cmd17_outside (addr : Word) : (cmd17 addr).Keeps (Outside 0 512) :=
  .bind (Outside.composes _ _) (sendCommand_keeps (sendKept_outside _ _) _ _) fun _ =>
    .ite (receiveDatablock_outside 0 512 0 512 (by omega) (by omega)) (.pure (Outside.composes _ _) _)

theorem receiveBlocks_outside (hi n : Nat) (s : State) (h : s.done.toNat + n < 2 ^ 32)
    (hh : (s.done.toNat + n) * 512 ≤ hi) :
    (receiveBlocks n).wp (fun _ t => Outside 0 hi s t) (fun _ t => Outside 0 hi s t) s := by
  induction n generalizing s with
  | zero => exact fun _ _ => rfl
  | succ n ih =>
    simp only [receiveBlocks, Link.wp_bind, Link.wp_reading]
    have hk := Link.wp_keeps
      (receiveDatablock_outside 0 hi s.blockOffset 512 (by omega) (by simp only [State.blockOffset, Config.blockSize]; omega))
      (Link.wp_keeps (receiveDatablock_keeps blockInKept_done _ _) (receiveDatablock_wp s.blockOffset 512 s))
    refine Link.wp_mono hk ?_ fun _ _ h => h.2
    rintro got t ⟨⟨_, hd⟩, ho⟩
    replace hd : t.done = s.done := hd
    cases got with
    | false => exact ho
    | true =>
      simp only [if_true, Link.wp_andThen, Link.wp_reading, setDone, Link.wp_modify]
      have hd1 : (t.done + 1).toNat = s.done.toNat + 1 := by
        rw [hd, BitVec.toNat_add, show (1 : BitVec 32).toNat = 1 from rfl]
        omega
      have hrest := ih { t with done := t.done + 1 } (by simp only [hd1]; omega) (by
        simp only [hd1]
        rw [show s.done.toNat + 1 + n = s.done.toNat + (n + 1) by omega]
        exact hh)
      exact Link.wp_mono hrest (fun _ u hu a ha => (hu a ha).trans (ho a ha))
        fun _ u hu a ha => (hu a ha).trans (ho a ha)

theorem cmd18_outside (addr : Word) (s : State) :
    (cmd18 addr).wp (fun _ t => Outside 0 (s.count.toNat * 512) s t)
      (fun _ t => Outside 0 (s.count.toNat * 512) s t) s := by
  simp only [cmd18, setDone, Link.wp_andThen, Link.wp_modify, Link.wp_bind]
  have hk := Link.wp_keeps (sendCommand_keeps (sendKept_outside 0 (s.count.toNat * 512)) cmd18Value addr)
    (Link.wp_keeps (sendCommand_keeps sendKept_count _ _)
      (Link.wp_keeps (sendCommand_keeps sendKept_done _ _) (sendCommand_sound cmd18Value addr { s with done := 0 })))
  refine Link.wp_mono hk ?_ fun _ _ h => h.2
  rintro r t ⟨⟨⟨_, hd⟩, hc⟩, ho⟩
  replace hd : t.done = 0 := hd
  replace hc : t.count = s.count := hc
  split
  · simp only [Link.wp_reading, Link.wp_andThen, cmd12, Link.wp_pure]
    have hlt := s.count.isLt
    have hb := receiveBlocks_outside (s.count.toNat * 512) t.count.toNat t (by rw [hd, hc]; simpa using hlt)
      (by rw [hd, hc]; simp)
    refine Link.wp_mono hb ?_ fun _ u hu a ha => (hu a ha).trans (ho a ha)
    intro _ u hu
    have h12 := Link.wp_keeps (sendCommand_keeps (sendKept_outside 0 (s.count.toNat * 512)) cmd12Value 0)
      (sendCommand_sound cmd12Value 0 u)
    exact Link.wp_mono h12 (fun _ v hv a ha => (hv.2 a ha).trans ((hu a ha).trans (ho a ha)))
      fun _ v hv a ha => (hv.2 a ha).trans ((hu a ha).trans (ho a ha))
  · exact ho

/-- From the two ends of a computation to the state its row leaves. -/
theorem Link.wp_record {α : Type} {m : Link α} {R : State → State → Prop} {report : α → MicroResult} {s : State}
    (h : m.wp (fun _ t => R s t) (fun _ t => R s t) s) (h1 : ∀ t x, R s t → R s { t with microResult := x })
    (h2 : ∀ t c, R s t → R s (t.takeLinkFault c)) : R s ((m s).record report) := by
  unfold Link.wp at h
  cases hm : m s with
  | ok a t => rw [hm] at h; exact h1 t _ h
  | fault c t => rw [hm] at h; exact h1 _ _ (h2 t c h)

theorem Link.Keeps.wp {α : Type} {m : Link α} {R : State → State → Prop} (h : m.Keeps R) (s : State) :
    m.wp (fun _ t => R s t) (fun _ t => R s t) s := by
  have hs := h s
  unfold Link.wp
  cases hm : m s with
  | ok a t => rw [hm] at hs; exact hs
  | fault c t => rw [hm] at hs; exact hs

theorem Outside.record {α : Type} {m : Link α} {lo hi : Nat} {s : State}
    (h : m.wp (fun _ t => Outside lo hi s t) (fun _ t => Outside lo hi s t) s) (report : α → MicroResult) :
    Outside lo hi s ((m s).record report) := Link.wp_record h (fun _ _ h => h) fun _ _ h => h

end Sys2Proof.Machine
end

