-- ==== Sys2Proof/Laws/Encoding.lean ====
section
/-! SUPPORT. How words are put together from bytes and taken apart again (20_memory R33, 30_encoding R50), and what the
fields of each format are (R50 to R69). -/

namespace Sys2Proof

theorem append_toNat {m n : Nat} (x : BitVec m) (y : BitVec n) : (x ++ y).toNat = x.toNat * 2 ^ n + y.toNat := by
  rw [BitVec.toNat_append, ← Nat.shiftLeft_add_eq_or_of_lt y.isLt, Nat.shiftLeft_eq]

theorem extract_toNat {m : Nat} (x : BitVec m) (start len : Nat) :
    (x.extractLsb' start len).toNat = x.toNat / 2 ^ start % 2 ^ len := by
  rw [BitVec.extractLsb'_toNat, Nat.shiftRight_eq_div_pow]

/-! Words of four bytes. -/

theorem wordOfBytes_toNat (a b c d : Byte) :
    (wordOfBytes a b c d).toNat = a.toNat * 2 ^ 24 + b.toNat * 2 ^ 16 + c.toNat * 2 ^ 8 + d.toNat := by
  have h1 := append_toNat a b
  have h2 := append_toNat (a ++ b) c
  have h3 := append_toNat (a ++ b ++ c) d
  have h4 : (wordOfBytes a b c d).toNat = (a ++ b ++ c ++ d).toNat := rfl
  omega

theorem wordByte_toNat (w : Word) (k : Nat) : (wordByte w k).toNat = w.toNat / 2 ^ (8 * k) % 256 := extract_toNat w _ _

@[simp] theorem wordOfBytes_wordByte (w : Word) :
    wordOfBytes (wordByte w 3) (wordByte w 2) (wordByte w 1) (wordByte w 0) = w := by
  apply BitVec.eq_of_toNat_eq
  simp only [wordOfBytes_toNat, wordByte_toNat]
  have := w.isLt
  omega

theorem wordByte_wordOfBytes (a b c d : Byte) :
    wordByte (wordOfBytes a b c d) 3 = a ∧ wordByte (wordOfBytes a b c d) 2 = b ∧
      wordByte (wordOfBytes a b c d) 1 = c ∧ wordByte (wordOfBytes a b c d) 0 = d := by
  have := a.isLt
  have := b.isLt
  have := c.isLt
  have := d.isLt
  refine ⟨?_, ?_, ?_, ?_⟩ <;> apply BitVec.eq_of_toNat_eq <;> simp only [wordOfBytes_toNat, wordByte_toNat] <;> omega

@[simp] theorem wordBytes_wordOfBytes (a b c d : Byte) : wordBytes (wordOfBytes a b c d) = [a, b, c, d] := by
  obtain ⟨h3, h2, h1, h0⟩ := wordByte_wordOfBytes a b c d
  rw [wordBytes, h3, h2, h1, h0]

/-- A word between two bytes, byte by byte: the 48 bits of a frame (R50). -/
theorem frame_bits (a b c d e f : Byte) :
    (a ++ b ++ c ++ d ++ e ++ f).toNat = (a ++ wordOfBytes b c d e ++ f).toNat := by
  have h1 := append_toNat a b
  have h2 := append_toNat (a ++ b) c
  have h3 := append_toNat (a ++ b ++ c) d
  have h4 := append_toNat (a ++ b ++ c ++ d) e
  have h5 := append_toNat (a ++ b ++ c ++ d ++ e) f
  have g1 := append_toNat a (wordOfBytes b c d e)
  have g2 := append_toNat (a ++ wordOfBytes b c d e) f
  have g3 := wordOfBytes_toNat b c d e
  omega

/-! Offsets of six bytes. -/

theorem offOfBytes_toNat (a b c d e f : Byte) :
    (offOfBytes a b c d e f).toNat =
      a.toNat * 2 ^ 40 + b.toNat * 2 ^ 32 + c.toNat * 2 ^ 24 + d.toNat * 2 ^ 16 + e.toNat * 2 ^ 8 + f.toNat := by
  have h1 := append_toNat a b
  have h2 := append_toNat (a ++ b) c
  have h3 := append_toNat (a ++ b ++ c) d
  have h4 := append_toNat (a ++ b ++ c ++ d) e
  have h5 := append_toNat (a ++ b ++ c ++ d ++ e) f
  have h6 : (offOfBytes a b c d e f).toNat = (a ++ b ++ c ++ d ++ e ++ f).toNat := rfl
  omega

theorem offByte_toNat (w : BitVec 48) (k : Nat) : (offByte w k).toNat = w.toNat / 2 ^ (8 * k) % 256 := extract_toNat w _ _

@[simp] theorem offOfBytes_offByte (w : BitVec 48) :
    offOfBytes (offByte w 5) (offByte w 4) (offByte w 3) (offByte w 2) (offByte w 1) (offByte w 0) = w := by
  apply BitVec.eq_of_toNat_eq
  simp only [offOfBytes_toNat, offByte_toNat]
  have := w.isLt
  omega

@[simp] theorem offBytes_offOfBytes (a b c d e f : Byte) : offBytes (offOfBytes a b c d e f) = [a, b, c, d, e, f] := by
  have := a.isLt
  have := b.isLt
  have := c.isLt
  have := d.isLt
  have := e.isLt
  have := f.isLt
  simp only [offBytes, List.cons.injEq, and_true]
  refine ⟨?_, ?_, ?_, ?_, ?_, ?_⟩ <;> apply BitVec.eq_of_toNat_eq <;> simp only [offOfBytes_toNat, offByte_toNat] <;>
    omega

/-! Two fields side by side. -/

theorem extract_high {m n : Nat} (x : BitVec m) (y : BitVec n) : (x ++ y).extractLsb' n m = x := by
  apply BitVec.eq_of_toNat_eq
  rw [extract_toNat, append_toNat]
  have hx := x.isLt
  have hy := y.isLt
  rw [Nat.add_comm, Nat.add_mul_div_right _ _ (Nat.two_pow_pos n), Nat.div_eq_of_lt hy, Nat.zero_add, Nat.mod_eq_of_lt hx]

theorem extract_low {m n : Nat} (x : BitVec m) (y : BitVec n) : (x ++ y).extractLsb' 0 n = y := by
  apply BitVec.eq_of_toNat_eq
  rw [extract_toNat, append_toNat]
  simp [Nat.add_mod, Nat.mod_eq_of_lt y.isLt]

theorem append_extract {m n : Nat} (w : BitVec (m + n)) : w.extractLsb' n m ++ w.extractLsb' 0 n = w := by
  apply BitVec.eq_of_toNat_eq
  rw [append_toNat, extract_toNat, extract_toNat, Nat.pow_zero, Nat.div_one]
  have hw : w.toNat / 2 ^ n < 2 ^ m := by
    rw [Nat.div_lt_iff_lt_mul (Nat.two_pow_pos n), ← Nat.pow_add]
    exact w.isLt
  rw [Nat.mod_eq_of_lt hw, Nat.mul_comm]
  exact Nat.div_add_mod _ _

/-! The rows of each format. -/

theorem ite_property {α : Type} {p : α → Prop} {c : Prop} [Decidable c] {a b : α} (ha : c → p a) (hb : ¬ c → p b) :
    p (if c then a else b) := by
  by_cases h : c
  · rw [if_pos h]; exact ha h
  · rw [if_neg h]; exact hb h

/-- What `instrOfFrame` can be: a property of it follows from the property of each row. -/
theorem instrOfFrame_elim {p : Instr → Prop} {i : BitVec 6} {a : Word}
    (h0 : i = 0 ∧ a = 0 → p .cmd0) (h1 : i = 1 ∧ a = 0 → p .cmd1) (h8 : i = 8 ∧ a = 0x1AA → p .cmd8)
    (h12 : i = 12 ∧ a = 0 → p .cmd12) (h16 : i = 16 ∧ a = 512 → p .cmd16) (h17 : i = 17 → p (.cmd17 a))
    (h18 : i = 18 → p (.cmd18 a)) (h23 : i = 23 → p (.acmd23 a)) (h24 : i = 24 → p (.cmd24 a))
    (h25 : i = 25 → p (.cmd25 a)) (h41 : i = 41 ∧ a = 0x40000000 → p (.acmd41 true))
    (h41' : i = 41 ∧ a = 0 → p (.acmd41 false)) (h55 : i = 55 ∧ a = 0 → p .cmd55) (h58 : i = 58 ∧ a = 0 → p .cmd58)
    (hg : isNamedFrame i a = false → p (.frameGeneric i a)) : p (instrOfFrame i a) := by
  refine ite_property h0 fun n0 => ite_property h1 fun n1 => ite_property h8 fun n8 => ite_property h12 fun n12 =>
    ite_property h16 fun n16 => ite_property h17 fun n17 => ite_property h18 fun n18 => ite_property h23 fun n23 =>
    ite_property h24 fun n24 => ite_property h25 fun n25 => ite_property h41 fun n41 => ite_property h41' fun n41' =>
    ite_property h55 fun n55 => ite_property h58 fun n58 => hg ?_
  simp only [isNamedFrame, ← Bool.not_eq_true, Bool.and_eq_true, beq_iff_eq, Bool.or_eq_true]
  rintro ((((((((((((h | h) | h) | h) | h) | h) | h) | h) | h) | h) | ⟨h, h' | h'⟩) | h) | h)
  exacts [n0 h, n1 h, n8 h, n12 h, n16 h, n17 h, n18 h, n23 h, n24 h, n25 h,
    n41 ⟨h, h'⟩, n41' ⟨h, h'⟩, n55 h, n58 h]

theorem encode_instrOfFrame (i : BitVec 6) (a : Word) : encode (instrOfFrame i a) = ⟨.frame, frameBytes i a⟩ := by
  refine instrOfFrame_elim (p := fun x => encode x = _) ?_ ?_ ?_ ?_ ?_ ?_ ?_ ?_ ?_ ?_ ?_ ?_ ?_ ?_ fun _ => rfl
  all_goals intro h
  all_goals first | (subst h; rfl) | (obtain ⟨rfl, rfl⟩ := h; rfl)

theorem wf_instrOfFrame (i : BitVec 6) (a : Word) : WellFormed (instrOfFrame i a) = true := by
  refine instrOfFrame_elim (p := fun x => WellFormed x = _) ?_ ?_ ?_ ?_ ?_ ?_ ?_ ?_ ?_ ?_ ?_ ?_ ?_ ?_ 
    fun h => by simp [WellFormed, h]
  all_goals exact fun _ => rfl

theorem instrOfFrame_generic (i : BitVec 6) (a : Word) (h : isNamedFrame i a = false) :
    instrOfFrame i a = .frameGeneric i a := by
  refine instrOfFrame_elim (p := fun x => x = _) ?_ ?_ ?_ ?_ ?_ ?_ ?_ ?_ ?_ ?_ ?_ ?_ ?_ ?_ fun _ => rfl
  all_goals intro h'; exfalso; revert h
  all_goals first | (obtain ⟨rfl, rfl⟩ := h'; decide) | (subst h'; simp [isNamedFrame])

/-! Fields of one bit. -/

theorem extract_bit {m : Nat} (x : BitVec m) (k : Nat) : x.extractLsb' k 1 = BitVec.ofBool (x.getLsbD k) := by
  ext i hi
  have : i = 0 := by omega
  subst this
  simp [BitVec.getElem_extractLsb']

theorem ocrWord_fields (h c : BitVec 1) (l : BitVec 30) :
    (ocrWord h c l).extractLsb' 0 30 = l ∧ (ocrWord h c l).extractLsb' 30 1 = c ∧
      (ocrWord h c l).extractLsb' 31 1 = h := by
  have h1 := append_toNat h c
  have h2 := append_toNat (h ++ c) l
  have e : (ocrWord h c l).toNat = ((h ++ c) ++ l).toNat := rfl
  have := h.isLt
  have := c.isLt
  have := l.isLt
  refine ⟨?_, ?_, ?_⟩ <;> apply BitVec.eq_of_toNat_eq <;> rw [extract_toNat] <;> omega

theorem ocrWord_ccs (h c : BitVec 1) (l : BitVec 30) : (ocrWord h c l).getLsbD 30 = c.getLsbD 0 := by
  have := (ocrWord_fields h c l).2.1
  rw [extract_bit] at this
  generalize (ocrWord h c l).getLsbD 30 = b at this
  subst this
  cases b <;> rfl

theorem ocrWord_of_fields (w : Word) :
    ocrWord (w.extractLsb' 31 1) (w.extractLsb' 30 1) (w.extractLsb' 0 30) = w := by
  apply BitVec.eq_of_toNat_eq
  have h1 := append_toNat (w.extractLsb' 31 1) (w.extractLsb' 30 1)
  have h2 := append_toNat (w.extractLsb' 31 1 ++ w.extractLsb' 30 1) (w.extractLsb' 0 30)
  have e : (ocrWord (w.extractLsb' 31 1) (w.extractLsb' 30 1) (w.extractLsb' 0 30)).toNat =
      ((w.extractLsb' 31 1 ++ w.extractLsb' 30 1) ++ (w.extractLsb' 0 30)).toNat := rfl
  have a1 := extract_toNat w 31 1
  have a2 := extract_toNat w 30 1
  have a3 := extract_toNat w 0 30
  have := w.isLt
  omega

theorem code_fields (c : Command) :
    c.code.getLsbD 7 = c.app ∧ c.code.getLsbD 6 = false ∧ c.code.extractLsb' 0 6 = c.index := by
  obtain ⟨a, i⟩ := c
  revert a i; decide

theorem code_of_byte (b : Byte) (h : b.getLsbD 6 = false) : (Command.code ⟨b.getLsbD 7, b.extractLsb' 0 6⟩) = b := by
  revert b; decide

theorem length_field (l : BitVec 10) :
    ((0 : BitVec 6) ++ l.extractLsb' 8 2).extractLsb' 2 6 = 0 ∧
      ((0 : BitVec 6) ++ l.extractLsb' 8 2).extractLsb' 0 2 ++ l.extractLsb' 0 8 = l := by
  refine ⟨extract_high _ _, ?_⟩
  have := extract_low (0 : BitVec 6) (l.extractLsb' 8 2)
  rw [this]
  exact append_extract (m := 2) (n := 8) l

theorem frameHead_start (i : BitVec 6) : (frameHead i).extractLsb' 6 2 = 1 := extract_high (1 : BitVec 2) i

theorem frameHead_index (i : BitVec 6) : (frameHead i).extractLsb' 0 6 = i := extract_low (1 : BitVec 2) i

theorem decode_frame (i : BitVec 6) (a : Word) : decode ⟨.frame, frameBytes i a⟩ = .ok (instrOfFrame i a) := by
  show decodeFrame _ _ _ _ _ _ = _
  simp only [decodeFrame, frameHead_start, frameHead_index, wordOfBytes_wordByte]
  simp

theorem decode_host (op : BitVec 3) (o : HostOperands) : decode ⟨.hostOp, hostBytes op o⟩ = .ok (instrOfOp op o) := by
  show decodeHost [_, _, _, _, _, _, _, _, _, _, _] = _
  have h1 : (opByte op).extractLsb' 3 5 = 0 := extract_high (0 : BitVec 5) op
  have h2 : (opByte op).extractLsb' 0 3 = op := extract_low (0 : BitVec 5) op
  simp only [decodeHost, h1, h2, wordOfBytes_wordByte]
  simp

theorem top_bit_append {n} (b : Bool) (y : BitVec n) : (BitVec.ofBool b ++ y).getLsbD n = b := by
  rw [BitVec.getLsbD_append]; cases b <;> simp

theorem tokenOfByte_byte (t : Token) : tokenOfByte t.byte = some t := by cases t <;> decide

theorem frameHead_of_start {b0 : Byte} (h : b0.extractLsb' 6 2 = 1) : frameHead (b0.extractLsb' 0 6) = b0 := by
  revert b0; decide

theorem opByte_of_small {b : Byte} (h : b.extractLsb' 3 5 = 0) : opByte (b.extractLsb' 0 3) = b := by
  revert b; decide

theorem encode_instrOfOp (op : BitVec 3) (o : HostOperands) : encode (instrOfOp op o) = ⟨.hostOp, hostBytes op o⟩ := by
  unfold instrOfOp
  iterate 7 (split; next h => subst h; rfl)
  have : op = 7 := by bv_omega
  subst this
  rfl

theorem wf_instrOfOp (op : BitVec 3) (o : HostOperands) : WellFormed (instrOfOp op o) = true := by
  unfold instrOfOp
  iterate 7 (split; next h => rfl)
  rfl

theorem byte_of_tokenOfByte {b : Byte} {t : Token} (h : tokenOfByte b = some t) : t.byte = b := by
  unfold tokenOfByte at h
  split at h
  · cases h; simp_all [Token.byte]
  split at h
  · cases h; simp_all [Token.byte]
  split at h
  · cases h; simp_all [Token.byte]
  · cases h

theorem decodeR1_encode (b : Byte) : WellFormed (decodeR1 b) = true ∧ encode (decodeR1 b) = ⟨.r1, [b]⟩ := by
  have h := extract_bit b 7
  have h2 : b.extractLsb' 7 1 ++ b.extractLsb' 0 7 = b := append_extract (m := 1) (n := 7) b
  unfold decodeR1
  cases hb : b.getLsbD 7 with
  | true =>
    rw [hb] at h
    refine ⟨rfl, ?_⟩
    simp only [if_true, encode]
    rw [← h2, h, extract_low]
    rfl
  | false =>
    rw [hb] at h
    refine ⟨rfl, ?_⟩
    simp only [Bool.false_eq_true, if_false, encode]
    rw [← h2, h, extract_low]
    rfl

end Sys2Proof
end

