-- ==== Sys2Proof/Laws/HostEnds.lean ====
section
/-! SUPPORT. How a host operation ends (60_exceptions R185, R186; 70_reset R211; 40_link R87): from what its body runs, does and leaves
alone to the state it leaves the host with. -/

namespace Sys2Proof.Machine

variable {α : Type}

/-! Every body runs or is aborted. -/

theorem gated_runs {body : Link Result} (h : body.Runs) : (gated body).Runs := .reading fun _ => .ite h (.pure _)

theorem concluding_runs {m : Link Bool} (h : m.Runs) : (concluding m).Runs :=
  .bind h fun _ => .andThen deselect_runs (.pure _)

theorem readBody_runs : readBody.Runs :=
  gated_runs (.reading fun _ => .ite (.pure _) (concluding_runs (.andThen (.silent (silent_addr _))
    (.reading fun _ => .reading fun _ => .ite (cmd17_runs _) (cmd18_runs _)))))

theorem writeBody_runs : writeBody.Runs :=
  gated_runs (.reading fun _ => .ite (.pure _) (concluding_runs (.andThen (.silent (silent_addr _))
    (.reading fun _ => .reading fun _ => .ite (cmd24_runs _) (.reading fun _ => .andThen
      (.ite (.andThen (sendCommand_runs _ _) (.pure _)) (.pure _)) (cmd25_runs _))))))

theorem ioctlBody_runs : ioctlBody.Runs :=
  gated_runs (.reading fun _ => .ite (.andThen select_runs (concluding_runs (waitReady_runs _))) (.pure _))

theorem statusBody_runs : statusBody.Runs := gated_runs (.pure _)

theorem silent_seq (q : Seq) : Silent fun s => { s with seq := q } :=
  ⟨fun _ => rfl, fun _ => rfl, fun _ => rfl, fun _ => rfl, fun _ => rfl, fun _ => rfl⟩

theorem retryCommand_runs {cmd : Link Byte} (h : cmd.Runs) : (retryCommand cmd).Runs := by
  have hloop : ∀ n, (retryLoop cmd n).Runs := by
    intro n
    induction n with
    | zero => exact .pure _
    | succ n ih => exact .andThen (.silent (silent_iter _)) (.bind h fun _ => .ite (.pure _) ih)
  exact .andThen (.silent (silent_iter _)) (hloop _)

theorem phaseOf_runs (q : Seq) : (phaseOf q).Runs := by
  have hq : ∀ q, (setSeq q).Runs := fun q => .silent (silent_seq q)
  have hty : ∀ ct, (setTy ct).Runs := fun ct => .silent (silent_ty ct)
  have hrc : ∀ c, (setRc c).Runs := fun c => .silent (silent_rc c)
  have h16 : (Link.andThen cmd16 (Link.pure ())).Runs := .andThen cmd16_runs (.pure _)
  cases q with
  | reset =>
    rw [phaseOf, phaseReset]
    exact Link.Runs.andThen (hty _) (.andThen select_runs (.andThen (writeBytes_runs _) (hq _)))
  | idleOrFail => exact Link.Runs.bind (sendCommand_runs _ _) fun _ => hq _
  | voltageCheck => exact Link.Runs.bind cmd8_runs fun _ => Link.Runs.ite (.reading fun _ => hq _) (hq _)
  | advancedInit => exact Link.Runs.bind (retryCommand_runs (sendCommand_runs _ _)) fun _ => hq _
  | legacyInit =>
    exact Link.Runs.bind (sendCommand_runs _ _) fun _ => Link.Runs.andThen
      (Link.Runs.ite (.andThen (hty _) (hrc _)) (.andThen (hty _) (hrc _)))
      (Link.Runs.bind (Link.Runs.reading fun _ => retryCommand_runs (sendCommand_runs _ _)) fun _ =>
        Link.Runs.ite (hq _) (.andThen (hty _) (hq _)))
  | capacityCheck =>
    rw [phaseOf, phaseCapacityCheck]
    exact Link.Runs.reading fun _ => Link.Runs.andThen
      (Link.Runs.ite (Link.Runs.bind cmd58_runs fun _ => Link.Runs.ite h16 (.pure _)) h16)
      (Link.Runs.reading fun _ => hq _)
  | ready => exact Link.Runs.pure ()
  | failed => exact Link.Runs.pure ()
  | idle => exact Link.Runs.pure ()
  | transfer => exact Link.Runs.pure ()

theorem initializeCard_runs : initializeCard.Runs := by
  have hn : nextPhase.Runs := .reading phaseOf_runs
  exact .andThen hn (.andThen hn (.andThen hn (.andThen hn (.andThen hn
    (.reading fun _ => .andThen (.silent (silent_cardType _)) (.andThen deselect_runs (.pure _)))))))

/-! The end, from the body. -/

/-- A host operation's end from what its body runs and does, started at `s1` with the link of `s`. -/
theorem Link.hostEnds {body : Link Result} {s s1 : State} {P : State → List Event → Result → Prop} (hruns : body.Runs)
    (hdone : body.wp (fun r t => ∃ ev, P t ev r ∧ Ran s1 t (ev ++ [.des])) anyFault s1)
    (hs : s1.trace = s.trace ∧ s1.cs = s.cs ∧ s1.oracle = s.oracle ∧ s1.draws = s.draws ∧ s1.params = s.params)
    (hP : ∀ t ev r, P t ev r → P (t.returned r) ev r) :
    HostEnds s (body s1).settle (P (body s1).settle) := by
  obtain ⟨ht, hc, ho, hd, hp⟩ := hs
  have hr := hruns.ends s1
  unfold Link.wp at hdone hr
  cases hm : body s1 with
  | ok r t =>
    rw [hm] at hdone
    obtain ⟨ev, hev, hran⟩ := hdone
    have hran' := (hran.of_start ht hc ho hd hp).of_eq (u := t.returned r) rfl rfl rfl rfl rfl
    exact ⟨rfl, by rw [LinkResult.settle, hran'.cs, csAfter_append]; rfl, .inl ⟨ev, r, hP t ev r hev, hran', rfl⟩⟩
  | fault code t =>
    rw [hm] at hr
    obtain ⟨ev, hev⟩ := hr
    exact ⟨rfl, rfl, .inr ⟨ev, code, (hev.congr ⟨ht.symm, hc.symm, ho.symm, hd.symm, hp.symm⟩
      ⟨rfl, rfl, rfl, rfl, rfl⟩).taken⟩⟩

/-! Bounds and chip-select, over the whole operation. -/

/-- From `s`, whose chip-select is `c`, `m` exchanges at most `n` bytes, each while the card is selected, and where it ends
with a value it has deselected the card or done nothing. -/
def Link.ClosedAt (c : ChipSelect) (n : Nat) (m : Link α) (s : State) : Prop :=
  m.wp (fun _ t => ∃ ev, Ran s t ev ∧ exchanges ev ≤ n ∧ selectedThroughout c ev = true ∧
      (ev = [] ∨ csAfter c ev = .deasserted))
    (fun code t => ∃ ev, Aborted s t ev code ∧ exchanges ev ≤ n ∧ selectedThroughout c ev = true) s

theorem Link.ClosedAt.none {c : ChipSelect} {n : Nat} {s : State} (a : α) : (Link.pure a).ClosedAt c n s :=
  ⟨[], Ran.refl s, by simp, rfl, .inl rfl⟩

theorem Link.ClosedAt.gated {c : ChipSelect} {n : Nat} {s : State} {body : Link Result} (h : body.ClosedAt c n s) :
    (gated body).ClosedAt c n s := by
  unfold Link.ClosedAt at *
  by_cases hct : s.cardType = .none
  · rw [gated_wp_absent hct]
    exact ⟨[], Ran.refl s, by simp, rfl, .inl rfl⟩
  · rw [gated_wp hct]
    exact h

theorem Link.ClosedAt.concluding {c : ChipSelect} {n : Nat} {s : State} {m : Link Bool} (h : m.WithinAt c n s) :
    (concluding m).ClosedAt c n s := by
  simp only [Link.ClosedAt, Machine.concluding, Link.wp_bind, Link.wp_andThen, deselect, Link.wp_modify, Link.wp_pure]
  refine Link.wp_mono h ?_ fun _ _ h => h
  rintro ok t ⟨ev, hr, hn, hsel, -⟩
  exact ⟨ev ++ [.des], hr.trans (Ran.des t), by simpa using hn, by simp [hsel, selectedThroughout],
    .inr (by simp [csAfter])⟩

theorem readBody_closed (s : State) : readBody.ClosedAt s.cs (readBound s.count) s := by
  refine .gated ?_
  rw [Link.ClosedAt, Link.wp_reading]
  split
  · exact Link.ClosedAt.none _
  · exact Link.ClosedAt.concluding (readTransfer_within s)

theorem writeBody_closed (s : State) : writeBody.ClosedAt s.cs (writeBound s.count) s := by
  refine .gated ?_
  rw [Link.ClosedAt, Link.wp_reading]
  split
  · exact Link.ClosedAt.none _
  · exact Link.ClosedAt.concluding (writeTransfer_within s)

theorem ioctlBody_closed (s : State) : ioctlBody.ClosedAt s.cs 500 s := by
  refine .gated ?_
  rw [Link.ClosedAt, Link.wp_reading]
  split
  · rw [show Link.andThen select (concluding (waitReady Config.nReady))
      = concluding (Link.andThen select (waitReady Config.nReady)) from (Link.bind_assoc _ _ _).symm]
    exact Link.ClosedAt.concluding (select_within s.cs (waitReady_within 500) s rfl)
  · exact Link.ClosedAt.none _

theorem statusBody_closed (c : ChipSelect) (s : State) : statusBody.ClosedAt c 0 s := .gated (.none _)

theorem reservedBody_closed (c : ChipSelect) (s : State) : reservedBody.ClosedAt c 0 s := .none _

theorem flat_closed (s : State) : initializeFlat.ClosedAt s.cs 1034590 s := by
  have h := flat_within s.cs s rfl
  have e : initializeFlat = Link.andThen (Link.andThen (setTy .none) (Link.andThen select
      (Link.andThen (writeBytes (List.replicate 10 0xFF)) flatIdentify))) flatConclude := by
    rw [initializeFlat_eq]
    simp only [Link.andThen_assoc]
  rw [e, Link.ClosedAt, Link.wp_andThen]
  refine Link.wp_mono h ?_ fun _ _ h => h
  rintro _ t ⟨ev, hr, hn, hsel, -⟩
  have hd : Ran t ({ t with cardType := t.ty } : State).deselected [.des] := (Ran.des t).of_eq rfl rfl rfl rfl rfl
  refine ⟨ev ++ [.des], hr.trans hd, by simpa using hn, by simp [hsel, selectedThroughout], .inr (by simp [csAfter])⟩

/-- What two runs that agree but for `seq` have in common. -/
theorem SamePhased.wp {a b : Link α} {s : State} (h : SamePhased (a s) (b s)) {Q : α → State → Prop}
    {F : Nat → State → Prop} (hQ : ∀ x t u, t.unphased = u.unphased → Q x u → Q x t)
    (hF : ∀ x t u, t.unphased = u.unphased → F x u → F x t) (hb : b.wp Q F s) : a.wp Q F s := by
  unfold Link.wp at *
  unfold SamePhased at h
  cases ha : a s <;> cases hbs : b s <;> rw [ha, hbs] at h <;> simp only [LinkResult.map, LinkResult.ok.injEq,
    LinkResult.fault.injEq, reduceCtorEq] at h <;> rw [hbs] at hb
  · obtain ⟨rfl, h⟩ := h
    exact hQ _ _ _ h hb
  · obtain ⟨rfl, h⟩ := h
    exact hF _ _ _ h hb

theorem State.link_of_unphased {t u : State} (h : t.unphased = u.unphased) :
    t.trace = u.trace ∧ t.cs = u.cs ∧ t.oracle = u.oracle ∧ t.draws = u.draws ∧ t.params = u.params := by
  simp only [State.unphased, State.mk.injEq] at h
  simp_all

theorem initializeCard_closed (s : State) (hq : s.seq = .reset) : initializeCard.ClosedAt s.cs 1034590 s := by
  refine SamePhased.wp (initializeCard_flat s hq) ?_ ?_ (flat_closed s)
  · rintro x t u h ⟨ev, hr, hrest⟩
    obtain ⟨h1, h2, h3, h4, h5⟩ := State.link_of_unphased h
    exact ⟨ev, hr.of_eq h1 h2 h3 h4 h5, hrest⟩
  · rintro x t u h ⟨ev, hr, hrest⟩
    exact ⟨ev, hr.congr ⟨rfl, rfl, rfl, rfl, rfl⟩ (State.link_of_unphased h), hrest⟩

end Sys2Proof.Machine
end

