-- ==== Sys2Proof/Laws/Recognizers.lean ====
section
/-! SUPPORT. What the recognizers read where the card's answers are given (30_encoding R54 to R60; log 9), and the traces of
the tokens the controller sends. -/

namespace Sys2Proof.Machine

/-- A read takes the first of the given answers. -/
theorem readByte_answering (s : State) (b : Byte) (rest : List Byte) :
    readByte (s.answering (b :: rest)) = .ok b ((s.answered b).answering rest) := rfl

theorem answering_nil (s : State) : s.answering [] = s := rfl

theorem readTrail_answering (s : State) (t0 t1 t2 t3 : Byte) :
    readTrail (s.answering [t0, t1, t2, t3]) = .ok () (s.trailed t0 t1 t2 t3) := by
  simp [readTrail, readTrailByte, Link.andThen, Link.bind, setTrailByte, Link.modify, State.answering, State.trailed,
    Trail.set, readByte, xfer, State.nextAnswer, State.drawn]

theorem readOcr_answering (s : State) (t0 t1 t2 t3 : Byte) :
    readOcr (s.answering [t0, t1, t2, t3])
      = .ok () { s.trailed t0 t1 t2 t3 with ty := if t0.getLsbD 6 then .sdc else .sd2 } := by
  simp only [readOcr, Link.andThen, Link.bind, readTrail_answering]
  rfl

/-- Bit 30 of the OCR is bit 6 of its first byte (R56). -/
theorem ocrWord_first {high ccs : BitVec 1} {low : BitVec 30} {t0 t1 t2 t3 : Byte}
    (h : ocrWord high ccs low = wordOfBytes t0 t1 t2 t3) : t0.getLsbD 6 = ccs.getLsbD 0 := by
  have h3 : t0.getLsbD 6 = (wordByte (wordOfBytes t0 t1 t2 t3) 3).getLsbD 6 := by
    rw [(wordByte_wordOfBytes t0 t1 t2 t3).1]
  rw [← ocrWord_ccs high ccs low, h, h3, wordByte, BitVec.getLsbD_extractLsb']
  rfl

theorem r1IsValid_append (bit : Bool) (x : BitVec 7) : r1IsValid (BitVec.ofBool bit ++ x) = !bit := by
  rw [r1IsValid, top_bit_append]

theorem dataAccepted_append (x : BitVec 3) : dataAccepted (x ++ 5#5) = true := by
  revert x
  decide

theorem sendToken_sound (t : Token) : (sendToken t).Sound fun ev _ => ∃ rx, ev = [.xfer t.byte rx] :=
  Link.Sound.afterSilent (setTok_silent _) (writeByte_sound _)

theorem sendToken_keeps_tok (t : Token) (s : State) :
    (sendToken t).wp (fun _ s' => s'.tok = t.byte) anyFault s := by
  simp only [sendToken, setTok, writeByte, Link.wp_andThen, Link.wp_modify, xfer_wp, Link.wp_pure]
  exact ⟨fun _ _ => rfl, fun _ _ => trivial⟩

end Sys2Proof.Machine
end

