-- ==== Sys2Proof/Laws/Exec.lean ====
section
/-! SUPPORT. What exec can do, said once for each of its two shapes: a host operation runs a body and settles it
(`exec_host`), every other row runs a link computation and records it (`exec_row`). What a row changes is one of the
primitive changes of `RowKept`; a relation that these keep is kept by the row. -/

namespace Sys2Proof.Machine

variable {α : Type} {R : State → State → Prop}

/-! The shape of a host operation. -/

theorem hostOperation_idle {op : HostOp} {first : Seq} {body : Link Result} {o : HostOperands} {s : State}
    (h : s.seq = .idle) :
    hostOperation op first body o s = .next (body { s.loadOperands op o with seq := first }).settle := if_pos h

theorem hostOperation_next {op : HostOp} {first : Seq} {body : Link Result} {o : HostOperands} {s t : State}
    (h : hostOperation op first body o s = .next t) :
    s.seq = .idle ∧ t = (body { s.loadOperands op o with seq := first }).settle := by
  unfold hostOperation at h
  split at h
  · next hq =>
    cases h
    exact ⟨hq, rfl⟩
  · cases h

theorem transferOperation_next {op : HostOp} {body : Link Result} {o : HostOperands} {s t : State}
    (h : transferOperation op body o s = .next t) :
    s.seq = .idle ∧ t = (body { s.loadOperands op o with seq := .transfer }).settle := by
  unfold transferOperation at h
  split at h
  · cases h
  · exact hostOperation_next h

theorem gated_absent {body : Link Result} {s : State} (h : s.cardType = .none) :
    gated body s = .ok .notReady s := by
  simp [gated, Link.reading, cardPresent, h, Link.pure]

theorem gated_present {body : Link Result} {s : State} (h : s.cardType ≠ .none) : gated body s = body s := by
  simp [gated, Link.reading, cardPresent, h]

theorem shortBuffer_absent {o : HostOperands} {s : State} (h : s.cardType = .none) : shortBuffer o s = false := by
  simp [shortBuffer, cardPresent, h]

theorem shortBuffer_zero {o : HostOperands} {s : State} (h : o.count = 0) : shortBuffer o s = false := by
  simp [shortBuffer, h]

theorem shortBuffer_enough {o : HostOperands} {s : State} (h : o.count.toNat * 512 ≤ s.buf.size) :
    shortBuffer o s = false := by
  simp only [shortBuffer, transferBytes, Bool.and_eq_false_iff]
  exact .inr (decide_eq_false (Nat.not_lt.mpr h))

/-- An operation that does nothing leaves its latches and its result. -/
theorem returned_loaded (s : State) (op : HostOp) (o : HostOperands) (q : Seq) (r : Result) (h : s.seq = .idle) :
    State.returned { s.loadOperands op o with seq := q } r = { s with
      op := op, drive := o.drive, sector := o.sector, count := o.count, ioctlCmd := o.ioctlCmd, result := r } := by
  cases s
  simp only at h
  subst h
  rfl

/-- What the host operation `i` runs, from which phase, with which operands. -/
inductive HostBody : Instr → HostOp → Seq → Link Result → HostOperands → Prop
  | init (o : HostOperands) : HostBody (.diskInitialize o) .diskInitialize .reset initializeCard o
  | status (o : HostOperands) : HostBody (.diskStatus o) .diskStatus .transfer statusBody o
  | read (o : HostOperands) : HostBody (.diskRead o) .diskRead .transfer readBody o
  | write (o : HostOperands) : HostBody (.diskWrite o) .diskWrite .transfer writeBody o
  | ioctl (o : HostOperands) : HostBody (.diskIoctl o) .diskIoctl .transfer ioctlBody o
  | ctrlSync (o : HostOperands) : o.ioctlCmd = 0 → HostBody .ctrlSync .diskIoctl .transfer ioctlBody o
  | reserved5 (o : HostOperands) : HostBody (.hostReserved5 o) .reserved5 .transfer reservedBody o
  | reserved6 (o : HostOperands) : HostBody (.hostReserved6 o) .reserved6 .transfer reservedBody o
  | reserved7 (o : HostOperands) : HostBody (.hostReserved7 o) .reserved7 .transfer reservedBody o

/-- A host operation that completes ran its body from the Idle controller. -/
theorem exec_host {i : Instr} {op : HostOp} {s t : State} (hi : hostOpOf i = some op) (h : exec i s = .next t) :
    s.seq = .idle ∧ ∃ first body o, HostBody i op first body o ∧
      t = (body { s.loadOperands op o with seq := first }).settle := by
  cases i with
  | diskInitialize o => cases hi; exact ⟨(hostOperation_next h).1, _, _, _, .init o, (hostOperation_next h).2⟩
  | diskStatus o => cases hi; exact ⟨(hostOperation_next h).1, _, _, _, .status o, (hostOperation_next h).2⟩
  | diskRead o => cases hi; exact ⟨(transferOperation_next h).1, _, _, _, .read o, (transferOperation_next h).2⟩
  | diskWrite o => cases hi; exact ⟨(transferOperation_next h).1, _, _, _, .write o, (transferOperation_next h).2⟩
  | diskIoctl o => cases hi; exact ⟨(hostOperation_next h).1, _, _, _, .ioctl o, (hostOperation_next h).2⟩
  | hostReserved5 o => cases hi; exact ⟨(hostOperation_next h).1, _, _, _, .reserved5 o, (hostOperation_next h).2⟩
  | hostReserved6 o => cases hi; exact ⟨(hostOperation_next h).1, _, _, _, .reserved6 o, (hostOperation_next h).2⟩
  | hostReserved7 o => cases hi; exact ⟨(hostOperation_next h).1, _, _, _, .reserved7 o, (hostOperation_next h).2⟩
  | ctrlSync => cases hi; exact ⟨(hostOperation_next h).1, _, _, _, .ctrlSync _ rfl, (hostOperation_next h).2⟩
  | _ => cases hi

/-! What the rows may change. -/

/-- The primitive changes of the rows below the host operations; `stores` says whether the buffer is among them. -/
structure RowKept (stores : Bool) (R : State → State → Prop) : Prop extends SendKept R where
  trail : ∀ s t, R s { s with trail := t }
  ty : ∀ s ct, R s { s with ty := ct }
  tok : ∀ s b, R s { s with tok := b }
  byte : ∀ s n, R s { s with byte := n }
  dresp : ∀ s b, R s { s with dresp := b }
  done : ∀ s n, R s { s with done := n }
  buf : stores = true → ∀ s off v, R s (s.setBufByte off v)

/-- The changes of the host operations besides disk_initialize. -/
structure TransferKept (stores : Bool) (R : State → State → Prop) : Prop extends RowKept stores R where
  addr : ∀ s a, R s { s with addr := a }

theorem RowKept.blockIn (h : RowKept true R) : BlockInKept R := ⟨h.toReadKept, h.tok, h.byte, h.buf rfl⟩

theorem RowKept.blockOut {b : Bool} (h : RowKept b R) : BlockOutKept R := ⟨h.toReadKept, h.tok, h.byte, h.dresp⟩

/-- Does the instruction store to the host buffer (R153, R185)? -/
def storesBuffer : Instr → Bool
  | .diskRead _ | .cmd17 _ | .cmd18 _ | .receiveDatablock _ _ => true
  | _ => false

/-- What a body leaves alone. -/
theorem HostBody.keeps {i : Instr} {op : HostOp} {first : Seq} {body : Link Result} {o : HostOperands}
    (h : HostBody i op first body o) (hi : first = .reset → InitKept R)
    (ht : first = .transfer → TransferKept (storesBuffer i) R) : body.Keeps R := by
  cases h with
  | init o => exact initializeCard_keeps (hi rfl)
  | status o => exact statusBody_keeps (ht rfl).comp
  | read o => exact readBody_keeps ⟨(ht rfl).toSendKept, (ht rfl).blockIn, (ht rfl).addr, (ht rfl).done⟩
  | write o => exact writeBody_keeps ⟨(ht rfl).toSendKept, (ht rfl).blockOut, (ht rfl).addr, (ht rfl).done⟩
  | ioctl o => exact ioctlBody_keeps (ht rfl).toReadKept (ht rfl).sel (ht rfl).des
  | ctrlSync o => exact ioctlBody_keeps (ht rfl).toReadKept (ht rfl).sel (ht rfl).des
  | reserved5 o => exact reservedBody_keeps (ht rfl).comp
  | reserved6 o => exact reservedBody_keeps (ht rfl).comp
  | reserved7 o => exact reservedBody_keeps (ht rfl).comp

/-- A field the body leaves alone is left alone by the operation, if neither its return nor a link fault writes it. -/
theorem settle_same {β : Type} {body : Link Result} {s1 : State} (f : State → β) (hk : body.Keeps (Same f))
    (h1 : ∀ t r, f (State.returned t r) = f t) (h2 : ∀ t c, f (State.takeLinkFault t c) = f t) :
    f (body s1).settle = f s1 := by
  have hs := hk s1
  cases hm : body s1 with
  | ok r t => rw [hm] at hs; exact (h1 t r).trans hs
  | fault c t => rw [hm] at hs; exact (h2 t c).trans hs

/-! How a host operation ends. -/

theorem HostBody.closed {i : Instr} {op : HostOp} {first : Seq} {body : Link Result} {o : HostOperands}
    (h : HostBody i op first body o) (s : State) :
    body.ClosedAt s.cs (maxExchanges op o.count) { s.loadOperands op o with seq := first } := by
  cases h with
  | init o => exact initializeCard_closed _ rfl
  | status o => exact statusBody_closed _ _
  | read o => exact readBody_closed { s.loadOperands .diskRead o with seq := .transfer }
  | write o => exact writeBody_closed { s.loadOperands .diskWrite o with seq := .transfer }
  | ioctl o => exact ioctlBody_closed { s.loadOperands .diskIoctl o with seq := .transfer }
  | ctrlSync o => exact ioctlBody_closed { s.loadOperands .diskIoctl o with seq := .transfer }
  | reserved5 o => exact reservedBody_closed _ _
  | reserved6 o => exact reservedBody_closed _ _
  | reserved7 o => exact reservedBody_closed _ _

/-- One of the four result codes (R67). -/
def Result.isCode (r : Result) : Prop := r = .ok ∨ r = .error ∨ r = .notReady ∨ r = .paramError

theorem gated_isCode {m : Link Result} {s : State} (h : m.wp (fun r _ => r.isCode) anyFault s) :
    (gated m).wp (fun r _ => r.isCode) anyFault s := by
  by_cases hc : s.cardType = .none
  · rw [gated_wp_absent hc]
    exact .inr (.inr (.inl rfl))
  · rw [gated_wp hc]
    exact h

theorem concluding_isCode {m : Link Bool} {s : State} : (concluding m).wp (fun r _ => r.isCode) anyFault s := by
  simp only [concluding, Link.wp_bind, Link.wp_andThen, deselect, Link.wp_modify, Link.wp_pure]
  unfold Link.wp
  cases m s with
  | ok a t => cases a <;> simp [Result.isCode, verdict]
  | fault => trivial

/-- A body that ends by itself gives one of the four codes. -/
theorem HostBody.isCode {i : Instr} {op : HostOp} {first : Seq} {body : Link Result} {o : HostOperands}
    (h : HostBody i op first body o) (s : State) :
    body.wp (fun r _ => r.isCode) anyFault { s.loadOperands op o with seq := first } := by
  have hioctl : ioctlBody.wp (fun r _ => r.isCode) anyFault { s.loadOperands op o with seq := first } := by
    refine gated_isCode ?_
    rw [Link.wp_reading]
    split
    · rw [Link.wp_andThen, select, Link.wp_modify]
      exact concluding_isCode
    · simp [Link.wp_pure, Result.isCode]
  have htransfer : ∀ m : Link Bool, (Link.reading State.count fun count =>
      if count = 0 then Link.pure .paramError else concluding m).wp (fun r _ => r.isCode) anyFault
        { s.loadOperands op o with seq := first } := by
    intro m
    rw [Link.wp_reading]
    split
    · simp [Link.wp_pure, Result.isCode]
    · exact concluding_isCode
  cases h with
  | init o =>
    refine Link.wp_mono (initializeCard_wp _ rfl) ?_ fun _ _ h => h
    rintro r t ⟨ev, ct, -, -, -, rfl⟩
    split <;> simp [Result.isCode]
  | status o => exact gated_isCode (.inl rfl)
  | read o => exact gated_isCode (htransfer _)
  | write o => exact gated_isCode (htransfer _)
  | ioctl o => exact hioctl
  | ctrlSync o => exact hioctl
  | reserved5 o => exact .inr (.inr (.inr rfl))
  | reserved6 o => exact .inr (.inr (.inr rfl))
  | reserved7 o => exact .inr (.inr (.inr rfl))

/-- How a host operation ended: by itself with one of the four codes, or by a link fault taken; either way within its
bound, with every exchange made on a selected card. -/
theorem HostBody.settled {i : Instr} {op : HostOp} {first : Seq} {body : Link Result} {o : HostOperands}
    (h : HostBody i op first body o) (s : State) :
    ∃ ev, exchanges ev ≤ maxExchanges op o.count ∧ selectedThroughout s.cs ev = true ∧
      (((body { s.loadOperands op o with seq := first }).settle.result.isCode ∧
          (ev = [] ∨ csAfter s.cs ev = .deasserted) ∧
          Ran s (body { s.loadOperands op o with seq := first }).settle ev) ∨
        ∃ code, FaultTaken s (body { s.loadOperands op o with seq := first }).settle ev code) := by
  have hc := h.closed s
  have hr := h.isCode s
  unfold Link.ClosedAt at hc
  unfold Link.wp at hc hr
  cases hm : body { s.loadOperands op o with seq := first } with
  | ok r t =>
    rw [hm] at hc hr
    obtain ⟨ev, hran, hn, hsel, hend⟩ := hc
    exact ⟨ev, hn, hsel, .inl ⟨hr, hend,
      (hran.of_start (s := s) rfl rfl rfl rfl rfl).of_eq (u := t.returned r) rfl rfl rfl rfl rfl⟩⟩
  | fault c t =>
    rw [hm] at hc
    obtain ⟨ev, hab, hn, hsel⟩ := hc
    exact ⟨ev, hn, hsel, .inr ⟨c, (hab.congr (s' := s) ⟨rfl, rfl, rfl, rfl, rfl⟩ ⟨rfl, rfl, rfl, rfl, rfl⟩).taken⟩⟩

/-- A link fault during disk_initialize leaves no card type (R186). -/
theorem initializeCard_fault {s1 : State} (h : s1.seq = .reset) {code : Nat}
    (hr : (initializeCard s1).settle.result = .linkFault code) : (initializeCard s1).settle.cardType = .none := by
  have hp : s1.seq.initializing = true → (initializeCard s1).state.seq.initializing = true :=
    initializeCard_keeps initKept_initializing s1
  have hw := initializeCard_wp s1 h
  unfold Link.wp at hw
  cases hm : initializeCard s1 with
  | ok r t =>
    rw [hm] at hw hr
    obtain ⟨ev, ct, -, -, -, rfl⟩ := hw
    exfalso
    simp only [LinkResult.settle, State.returned] at hr
    split at hr <;> cases hr
  | fault c t =>
    rw [hm] at hp
    exact if_pos (hp (by rw [h]; rfl))

/-! The rows below the host operations. -/

/-- A row's computation: it runs or is aborted, and leaves alone what `RowKept` does not name. -/
structure RowBody (stores : Bool) (m : Link α) : Prop where
  runs : m.Runs
  keeps : ∀ R, RowKept stores R → m.Keeps R

theorem RowBody.more {m : Link α} (h : RowBody false m) (b : Bool) : RowBody b m :=
  ⟨h.runs, fun R hR => h.keeps R { hR with buf := nofun }⟩

theorem rowBody_send (cmd : Command) (arg : Word) : RowBody false (sendCommand cmd arg) :=
  ⟨sendCommand_runs _ _, fun _ h => sendCommand_keeps h.toSendKept _ _⟩

theorem rowBody_token (t : Token) : RowBody false (sendToken t) :=
  ⟨.andThen (.silent (silent_tok _)) (writeByte_runs _), fun _ h => sendToken_keeps h.toReadKept h.tok t⟩

theorem rowBody_r1 : RowBody false r1Poll :=
  ⟨.andThen countPoll_runs (.bind readByte_runs fun _ => .andThen (.silent (silent_resp _)) (.pure _)),
    fun _ h => r1Poll_keeps h.toReadKept h.resp⟩

theorem rowBody_idle : RowBody false idlePoll :=
  ⟨.andThen countPoll_runs (.bind readByte_runs fun _ => .pure _), fun _ k => idlePoll_keeps k.toReadKept⟩

theorem rowBody_dresp : RowBody false readDresp :=
  ⟨.bind readByte_runs fun _ => .andThen (.silent (silent_dresp _)) (.pure _),
    fun _ k => readDresp_keeps k.toReadKept k.dresp⟩

theorem rowBody_startToken :
    RowBody false (Link.andThen tokenPoll (Link.reading (fun s => isStartBlock s.tok) Link.pure)) :=
  ⟨.andThen (.andThen countPoll_runs (.bind readByte_runs fun _ => .andThen (.silent (silent_tok _)) (.pure _)))
      (.reading fun _ => .pure _),
    fun _ h => .andThen h.comp (.andThen h.comp (countPoll_keeps h.toReadKept)
      (.bind h.comp (readByte_keeps h.toReadKept) fun b => .andThen h.comp (fun s => h.tok s b) (.pure h.comp _)))
      (.reading fun _ => .pure h.comp _)⟩

theorem rowBody_ocr : RowBody false (Link.andThen readOcr (Link.reading (fun s => ccs s.trail) Link.pure)) :=
  ⟨.andThen (.andThen readTrail_runs (.reading fun _ => .silent (silent_ty _))) (.reading fun _ => .pure _),
    fun _ h => .andThen h.comp (readOcr_keeps h.toReadKept h.trail h.ty) (.reading fun _ => .pure h.comp _)⟩

theorem rowBody_echo : RowBody false (Link.andThen readTrail (Link.reading (fun s => echoOk s.trail) Link.pure)) :=
  ⟨.andThen readTrail_runs (.reading fun _ => .pure _),
    fun _ h => .andThen h.comp (readTrail_keeps h.toReadKept h.trail) (.reading fun _ => .pure h.comp _)⟩

/-- What a row that completes ran: from its own state, or from that state with the card's answers given. -/
def RowRan (i : Instr) (s t : State) : Prop :=
  ∃ (α : Type) (m : Link α) (report : α → MicroResult) (s0 : State), RowBody (storesBuffer i) m ∧
    (s0 = s ∨ ∃ bytes, s0 = s.answering bytes) ∧ t = (m s0).record report

theorem RowRan.micro {i : Instr} {m : Link α} {report : α → MicroResult} {s t : State}
    (hm : RowBody (storesBuffer i) m) (h : microOperation report m s = .next t) : RowRan i s t :=
  ⟨α, m, report, s, hm, .inl rfl, by cases h; rfl⟩

theorem RowRan.recognized {i : Instr} {m : Link Bool} {bytes : List Byte} {s t : State}
    (hm : RowBody (storesBuffer i) m) (h : recognize bytes m s = .next t) : RowRan i s t :=
  ⟨Bool, m, .bool, s.answering bytes, hm, .inr ⟨bytes, rfl⟩, by cases h; rfl⟩

theorem RowRan.buffer {i : Instr} {off n : Nat} {m : Link α} {report : α → MicroResult} {s t : State}
    (hm : RowBody (storesBuffer i) m) (h : bufferOperation off n report m s = .next t) : RowRan i s t := by
  unfold bufferOperation at h
  split at h
  · exact RowRan.micro hm h
  · cases h

/-- Every row below the host operations that completes ran its computation. -/
theorem exec_row {i : Instr} {s t : State} (hi : hostOpOf i = none) (h : exec i s = .next t) : RowRan i s t := by
  cases i with
  | cmd0 => exact RowRan.micro (rowBody_send _ _) h
  | cmd1 => exact RowRan.micro (rowBody_send _ _) h
  | cmd8 => exact RowRan.micro ⟨cmd8_runs, fun _ k => cmd8_keeps k.toSendKept k.trail⟩ h
  | cmd12 => exact RowRan.micro (rowBody_send _ _) h
  | cmd16 => exact RowRan.micro ⟨cmd16_runs, fun _ k => cmd16_keeps k.toSendKept k.ty⟩ h
  | cmd17 a => exact RowRan.buffer ⟨cmd17_runs _, fun _ k => cmd17_keeps k.toSendKept k.blockIn _⟩ h
  | cmd18 a => exact RowRan.buffer ⟨cmd18_runs _, fun _ k => cmd18_keeps k.toSendKept k.blockIn k.done _⟩ h
  | acmd23 n => exact RowRan.micro (rowBody_send _ _) h
  | cmd24 a => exact RowRan.buffer ⟨cmd24_runs _, fun _ k => cmd24_keeps k.toSendKept k.blockOut _⟩ h
  | cmd25 a => exact RowRan.buffer ⟨cmd25_runs _, fun _ k => cmd25_keeps k.toSendKept k.blockOut k.done _⟩ h
  | acmd41 b => exact RowRan.micro (rowBody_send _ _) h
  | cmd55 => exact RowRan.micro (rowBody_send _ _) h
  | cmd58 => exact RowRan.micro ⟨cmd58_runs, fun _ k => cmd58_keeps k.toSendKept k.trail k.ty⟩ h
  | frameGeneric i a => exact RowRan.micro ⟨.silent (silent_frame _), fun _ k s => k.frame s _⟩ h
  | tokenStartBlock d =>
    cases d with
    | toCard => exact RowRan.micro (rowBody_token _) h
    | toController => exact RowRan.recognized rowBody_startToken h
  | tokenStartMultiWrite => exact RowRan.micro (rowBody_token _) h
  | tokenStopTran => exact RowRan.micro (rowBody_token _) h
  | r1Valid x => exact RowRan.recognized rowBody_r1 h
  | r1Pending x => exact RowRan.recognized rowBody_r1 h
  | idleReady => exact RowRan.recognized rowBody_idle h
  | drespAccepted x => exact RowRan.recognized rowBody_dresp h
  | trailCmd8Echo x => exact RowRan.recognized rowBody_echo h
  | trailOcrCcsSet a b => exact RowRan.recognized rowBody_ocr h
  | trailOcrCcsClear a b => exact RowRan.recognized rowBody_ocr h
  | select => exact RowRan.micro ⟨select_runs, fun _ k => k.sel⟩ h
  | deselect => exact RowRan.micro ⟨deselect_runs, fun _ k => k.des⟩ h
  | xfer b => exact RowRan.micro ⟨xfer_runs _, fun _ k => xfer_keeps k.toReadKept _⟩ h
  | readByte => exact RowRan.micro ⟨readByte_runs, fun _ k => readByte_keeps k.toReadKept⟩ h
  | writeByte b => exact RowRan.micro ⟨writeByte_runs _, fun _ k => writeByte_keeps k.toReadKept _⟩ h
  | waitReady n => exact RowRan.micro ⟨waitReady_runs _, fun _ k => waitReady_keeps k.toReadKept _⟩ h
  | sendCommand c a => exact RowRan.micro (rowBody_send _ _) h
  | receiveDatablock o n =>
    exact RowRan.buffer ⟨receiveDatablock_runs _ _, fun _ k => receiveDatablock_keeps k.blockIn _ _⟩ h
  | transmitDatablock o t =>
    exact RowRan.buffer ⟨transmitDatablock_runs _ _, fun _ k => transmitDatablock_keeps k.blockOut _ _⟩ h
  | _ => cases hi

/-- A relation that the primitive changes keep is kept by the row, if recording and taking a link fault keep it. -/
theorem RowRan.keeps {i : Instr} {s t : State} (h : RowRan i s t) (hk : RowKept (storesBuffer i) R)
    (ho : ∀ u x, R u { u with oracle := x }) (hm : ∀ u x, R u { u with microResult := x })
    (hf : ∀ u c, R u (u.takeLinkFault c)) : R s t := by
  obtain ⟨α, m, report, s0, hb, h0, rfl⟩ := h
  have hs : R s s0 := by
    rcases h0 with rfl | ⟨bytes, rfl⟩
    · exact hk.comp.refl _
    · exact ho s _
  have hr := hk.comp.trans _ _ _ hs (hb.keeps R hk s0)
  cases hx : m s0 with
  | ok a t => rw [hx] at hr; exact hk.comp.trans _ _ _ hr (hm t _)
  | fault c t => rw [hx] at hr; exact hk.comp.trans _ _ _ hr (hk.comp.trans _ _ _ (hf t c) (hm _ _))

/-- What a row did to the link: the events it recorded, with one more answer drawn for a link fault. -/
theorem RowRan.link {i : Instr} {s t : State} (h : RowRan i s t) :
    ∃ ev, t.trace = s.trace ++ ev ∧ t.cs = csAfter s.cs ev ∧
      (t.draws = s.draws + exchanges ev ∨ t.draws = s.draws + exchanges ev + 1) := by
  obtain ⟨α, m, report, s0, hb, h0, rfl⟩ := h
  obtain ⟨h1, h2, h3⟩ : s0.trace = s.trace ∧ s0.cs = s.cs ∧ s0.draws = s.draws := by
    rcases h0 with rfl | ⟨bytes, rfl⟩ <;> exact ⟨rfl, rfl, rfl⟩
  have hr := hb.runs.ends s0
  unfold Link.wp at hr
  cases hx : m s0 with
  | ok a t =>
    rw [hx] at hr
    obtain ⟨ev, hr⟩ := hr
    exact ⟨ev, by rw [← h1]; exact hr.trace, by rw [← h2]; exact hr.cs, .inl (by rw [← h3]; exact hr.draws)⟩
  | fault c t =>
    rw [hx] at hr
    obtain ⟨ev, hr⟩ := hr
    refine ⟨ev ++ [.des], ?_, by simp [csAfter, LinkResult.record, State.takeLinkFault], .inr ?_⟩
    · show t.trace ++ [.des] = _
      rw [hr.trace, h1, List.append_assoc]
    · show t.draws = _
      rw [hr.draws, h3]
      simp

end Sys2Proof.Machine
end

