-- ==== Sys2Proof/Laws/Grammar.lean ====
section
/-! SUPPORT. How many exchanges the traces of the grammar hold, and how they use chip-select (41_command_framer R99,
43_block_transfer R141, R146). -/

namespace Sys2Proof.Machine

/-! Traces without SEL and DES. -/

/-- Every event is an exchange. -/
def Plain (ev : List Event) : Prop := ∀ e ∈ ev, e.isExchange = true

theorem Plain.append {a b : List Event} (ha : Plain a) (hb : Plain b) : Plain (a ++ b) := fun e he =>
  (List.mem_append.mp he).elim (ha e) (hb e)

theorem plain_reads (bs : List Byte) : Plain (reads bs) := by
  intro e he
  obtain ⟨b, -, rfl⟩ := List.mem_map.mp he
  rfl

theorem plain_writes (txs rxs : List Byte) : Plain (writes txs rxs) := by
  induction txs generalizing rxs with
  | nil => intro e he; simp at he
  | cons t rest ih =>
    cases rxs with
    | nil => intro e he; simp [writes] at he
    | cons r rs =>
      intro e he
      rcases List.mem_cons.mp he with rfl | he
      · rfl
      · exact ih rs e he

theorem plain_xfer (tx rx : Byte) {ev : List Event} (h : Plain ev) : Plain (.xfer tx rx :: ev) := by
  intro e he
  rcases List.mem_cons.mp he with rfl | he
  · rfl
  · exact h e he

/-- Such a trace leaves chip-select alone and is made while the card is selected if it starts so. -/
theorem Plain.chipSelect {ev : List Event} (h : Plain ev) :
    ev.count .des = 0 ∧ ev.count .sel = 0 ∧ (∀ c, csAfter c ev = c) ∧ selectedThroughout .asserted ev = true := by
  induction ev with
  | nil => exact ⟨rfl, rfl, fun _ => rfl, rfl⟩
  | cons e rest ih =>
    obtain ⟨h1, h2, h3, h4⟩ := ih fun x hx => h x (by simp [hx])
    cases e with
    | sel => exact absurd (h .sel (by simp)) (by decide)
    | des => exact absurd (h .des (by simp)) (by decide)
    | xfer tx rx => exact ⟨by simp [h1], by simp [h2], fun c => h3 c, by simpa [selectedThroughout] using h4⟩

/-! The parts of a command. -/

theorem WaitTrace.plain {n : Nat} {ev : List Event} {ok : Bool} (h : WaitTrace n ev ok) : Plain ev := by
  cases h with
  | ready busy => exact plain_reads _
  | never busy => exact plain_reads _

/-- A wait that succeeds reads at least one byte; one that fails reads `n`. -/
theorem WaitTrace.bounds {n : Nat} {ev : List Event} {ok : Bool} (h : WaitTrace n ev ok) :
    exchanges ev ≤ n ∧ (ok = true → 1 ≤ exchanges ev) ∧ (ok = false → exchanges ev = n) := by
  cases h with
  | ready busy hlen =>
    rw [exchanges_reads, List.length_append, List.length_singleton]
    exact ⟨by omega, fun _ => by omega, nofun⟩
  | never busy hlen =>
    rw [exchanges_reads]
    exact ⟨by omega, nofun, fun _ => hlen⟩

theorem R1Trace.plain {ev : List Event} {r : Byte} (h : R1Trace ev r) : Plain ev := by
  cases h with
  | valid => exact plain_reads _
  | exhausted => exact plain_reads _

theorem R1Trace.bounds {ev : List Event} {r : Byte} (h : R1Trace ev r) : 1 ≤ exchanges ev ∧ exchanges ev ≤ 10 := by
  cases h with
  | valid pending r hlen =>
    rw [exchanges_reads, List.length_append, List.length_singleton]
    omega
  | exhausted pending r hlen =>
    rw [exchanges_reads, List.length_append, List.length_singleton]
    omega

theorem FrameTrace.plain {index : BitVec 6} {arg : Word} {ev : List Event} {r : Byte}
    (h : FrameTrace index arg ev r) : Plain ev := by
  cases h with
  | sent dropped ev r hlen hr => exact (plain_writes _ _).append hr.plain

theorem FrameTrace.bounds {index : BitVec 6} {arg : Word} {ev : List Event} {r : Byte}
    (h : FrameTrace index arg ev r) : 7 ≤ exchanges ev ∧ exchanges ev ≤ 16 := by
  cases h with
  | sent dropped ev r hlen hr =>
    have hb := hr.bounds
    rw [exchanges_append, exchanges_writes (by rw [hlen]; rfl)]
    have : (frameBytes index arg).length = 6 := rfl
    omega

/-- A standard command other than CMD12: between 8 and 516 exchanges, one DES, one SEL, the card left selected (R99). -/
theorem StandardTrace.bounds {index : BitVec 6} {arg : Word} {ev : List Event} {r : Byte} (hi : index ≠ 12)
    (h : StandardTrace index arg ev r) (c : ChipSelect) :
    8 ≤ exchanges ev ∧ exchanges ev ≤ 516 ∧ ev.count .des = 1 ∧ ev.count .sel = 1 ∧ csAfter c ev = .asserted ∧
      selectedThroughout c ev = true := by
  cases h with
  | stopTransmission _ _ h12 => exact absurd h12 hi
  | sent wait ev r _ hw hf =>
    have hb := hw.bounds
    have h1 := hb.2.1 rfl
    have hfb := hf.bounds
    obtain ⟨g1, g2, g3, g4⟩ := (hw.plain.append hf.plain).chipSelect
    refine ⟨?_, ?_, by simp [g1], by simp [g2], ?_, ?_⟩
    · simp only [exchanges_des, exchanges_sel, exchanges_append]
      omega
    · simp only [exchanges_des, exchanges_sel, exchanges_append]
      omega
    · simp only [csAfter, g3]
    · simp only [selectedThroughout, g4]
  | busy wait _ hw =>
    have hb := hw.bounds.2.2 rfl
    obtain ⟨g1, g2, g3, g4⟩ := hw.plain.chipSelect
    refine ⟨?_, ?_, by simp [g1], by simp [g2], ?_, ?_⟩
    · simp only [exchanges_des, exchanges_sel]
      omega
    · simp only [exchanges_des, exchanges_sel]
      omega
    · simp only [csAfter, g3]
    · simp only [selectedThroughout, g4]

/-- CMD12: 7 to 16 exchanges and nothing else (R99, R103). -/
theorem StandardTrace.bounds_stop {arg : Word} {ev : List Event} {r : Byte} (h : StandardTrace 12 arg ev r) :
    Plain ev ∧ 7 ≤ exchanges ev ∧ exchanges ev ≤ 16 := by
  cases h with
  | stopTransmission _ _ _ hf => exact ⟨hf.plain, hf.bounds⟩
  | sent _ _ _ hne => exact absurd rfl hne
  | busy _ hne => exact absurd rfl hne

/-! Packets. -/

theorem BlockInTrace.plain {n : Nat} {ev : List Event} {d : Option (List Byte)} (h : BlockInTrace n ev d) :
    Plain ev := by
  cases h <;> exact plain_reads _

theorem BlockOutTrace.plain {p : List Byte} {t : Token} {ev : List Event} {ok : Bool} (h : BlockOutTrace p t ev ok) :
    Plain ev := by
  cases h with
  | busy _ hw => exact hw.plain
  | stop wait closing rx q _ hw hc => exact hw.plain.append (plain_xfer _ _ hc.plain)
  | block wait closing rx response dropped q _ hw _ hc =>
    exact hw.plain.append (plain_xfer _ _ ((plain_writes _ _).append ((plain_reads _).append hc.plain)))

end Sys2Proof.Machine
end

