-- ==== Sys2Proof/Laws/Partial.lean ====
section
/-! SUPPORT. What a read leaves in the host buffer however it ends (20_memory R35): the blocks that arrived whole, in order,
and the old bytes after them, where a link fault cuts it short too. -/

namespace Sys2Proof.Machine

variable {α : Type}

theorem Link.wp_and {m : Link α} {Q Q' : α → State → Prop} {F F' : Nat → State → Prop} {s : State}
    (h : m.wp Q F s) (h' : m.wp Q' F' s) : m.wp (fun a t => Q a t ∧ Q' a t) (fun c t => F c t ∧ F' c t) s := by
  unfold Link.wp at *
  cases hm : m s with
  | ok a t => rw [hm] at h h'; exact ⟨h, h'⟩
  | fault c t => rw [hm] at h h'; exact ⟨h, h'⟩

/-- A block that a link fault cuts short stores nothing. -/
theorem receiveDatablock_fault (off n : Nat) (s : State) :
    (receiveDatablock off n).wp (fun _ _ => True) (fun _ t => t.buf = s.buf) s := by
  have hread := readKept_buf
  have hb : ∀ t : State, t.buf = s.buf → readByte.wp (fun _ u => u.buf = s.buf) (fun _ u => u.buf = s.buf) t :=
    fun t ht => Link.wp_mono ((readByte_keeps hread).wp t) (fun _ u hu => hu.trans ht) fun _ u hu => hu.trans ht
  rw [receiveDatablock, Link.wp_bind]
  refine Link.wp_mono ((readToken_keeps hread fun _ _ => rfl).wp s) ?_ fun _ _ h => h
  rintro tok t ht
  split
  · simp only [Link.wp_bind, Link.wp_andThen, Link.wp_modify, Link.wp_pure]
    refine Link.wp_mono ((receiveBytes_keeps hread (fun _ _ => rfl) 0 n).wp t) ?_ fun _ u hu => hu.trans ht
    rintro data u hu
    refine Link.wp_mono (hb u (hu.trans ht)) (fun _ v hv => ?_) fun _ _ h => h
    exact Link.wp_mono (hb v hv) (fun _ _ _ => trivial) fun _ _ h => h
  · trivial

theorem cmd17_fault (addr : Word) (s : State) :
    (cmd17 addr).wp (fun _ _ => True) (fun _ t => t.buf = s.buf) s := by
  rw [cmd17, Link.wp_bind]
  refine Link.wp_mono ((sendCommand_keeps sendKept_buf _ _).wp s) (fun r t ht => ?_) fun _ _ h => h
  split
  · exact Link.wp_mono (receiveDatablock_fault _ _ t) (fun _ _ h => h) fun _ u hu => hu.trans ht
  · trivial

/-- The loop of receive_datablocks, started at `s`, is at `t`: so many blocks arrived whole and stand in the buffer. -/
def Arrived (n : Nat) (s t : State) : Prop :=
  ∃ loop rest blocks, t.trace = s.trace ++ (loop ++ rest) ∧ BlocksInTrace blocks.length loop blocks ∧
    blocks.length ≤ n ∧ t.done.toNat = s.done.toNat + blocks.length ∧
    t.buf = ⟨s.buf.size, s.buf.cells.store (s.done.toNat * 512) blocks.flatten⟩

/-- None arrived yet. -/
theorem Arrived.none {n : Nat} {s t : State} {rest : List Event} (ht : t.trace = s.trace ++ rest) (hd : t.done = s.done)
    (hb : t.buf = s.buf) : Arrived n s t :=
  ⟨[], rest, [], ht, .done, by simp, by simp [hd], by simpa [Memory.store] using hb⟩

/-- Whatever follows the loop. -/
theorem Arrived.later {n : Nat} {s t u : State} {rest : List Event} (h : Arrived n s t)
    (ht : u.trace = t.trace ++ rest) (hd : u.done = t.done) (hb : u.buf = t.buf) : Arrived n s u := by
  obtain ⟨loop, rest', blocks, h1, h2, h3, h4, h5⟩ := h
  exact ⟨loop, rest' ++ rest, blocks, by rw [ht, h1]; simp, h2, h3, by rw [hd, h4], by rw [hb, h5]⟩

theorem receiveBlocks_arrived (n : Nat) (s : State) (hn : s.done.toNat + n < 2 ^ 32) :
    (receiveBlocks n).wp (fun _ t => Arrived n s t) (fun _ t => Arrived n s t) s := by
  induction n generalizing s with
  | zero => exact Arrived.none (rest := []) (by simp) rfl rfl
  | succ n ih =>
    simp only [receiveBlocks, Link.wp_bind, Link.wp_reading]
    have hk := Link.wp_keeps (receiveDatablock_keeps blockInKept_done s.blockOffset 512)
      (Link.wp_and (receiveDatablock_wp s.blockOffset 512 s)
        (Link.wp_and (receiveDatablock_fault s.blockOffset 512 s) ((receiveDatablock_runs s.blockOffset 512).ends s)))
    refine Link.wp_mono hk ?_ ?_
    · rintro got t ⟨⟨⟨ev, d, hb, rfl, hr, hbuf⟩, -, -⟩, hd⟩
      replace hd : t.done = s.done := hd
      cases d with
      | none =>
        exact Arrived.none hr.trace hd hbuf
      | some data =>
        simp only [Option.isSome_some, if_true, Link.wp_andThen, Link.wp_reading, setDone, Link.wp_modify]
        have hd1 : (t.done + 1).toNat = s.done.toNat + 1 := by
          rw [hd, BitVec.toNat_add, show (1 : BitVec 32).toNat = 1 from rfl]
          omega
        have hlen : data.length = 512 := by cases hb with | received k _ c0 c1 hk hlen => exact hlen
        have hgo : ∀ u, Arrived n { t with done := t.done + 1 } u → Arrived (n + 1) s u := by
          rintro u ⟨loop, rest, blocks, h1, h2, h3, h4, h5⟩
          refine ⟨ev ++ loop, rest, data :: blocks, ?_, .more _ ev loop data blocks hb h2, by simpa using h3, ?_, ?_⟩
          · rw [h1]
            simp [hr.trace]
          · rw [h4, hd1, List.length_cons]
            omega
          · rw [h5, List.flatten_cons, Memory.store_append, hlen]
            simp only [hbuf, hd1, State.blockOffset, Config.blockSize, Option.getD_some, Nat.add_mul, Nat.one_mul]
        exact Link.wp_mono (ih { t with done := t.done + 1 } (by simp only [hd1]; omega)) (fun _ u hu => hgo u hu)
          fun _ u hu => hgo u hu
    · rintro c t ⟨⟨-, hbuf, ev, hr⟩, hd⟩
      exact Arrived.none hr.trace hd hbuf

/-- CMD18 (R106, R150) however it ends: the command was answered 0 before any block arrived. -/
theorem cmd18_arrived (addr : Word) (s : State) :
    let P := fun t => ∃ sent, Arrived s.count.toNat { s with done := 0, trace := s.trace ++ sent } t ∧
      (t.done = 0 ∨ CommandTrace cmd18Value addr sent 0)
    (cmd18 addr).wp (fun _ t => P t) (fun _ t => P t) s := by
  intro P
  have hsame : ∀ (cmd : Command) (arg : Word) (u : State), (sendCommand cmd arg).wp
      (fun r t => (∃ ev, CommandTrace cmd arg ev r ∧ t.trace = u.trace ++ ev) ∧ t.done = u.done ∧ t.count = u.count ∧
        t.buf = u.buf)
      (fun _ t => (∃ ev, t.trace = u.trace ++ ev) ∧ t.done = u.done ∧ t.count = u.count ∧ t.buf = u.buf) u :=
    fun cmd arg u => Link.wp_mono
      (Link.wp_keeps (sendCommand_keeps sendKept_buf cmd arg) (Link.wp_keeps (sendCommand_keeps sendKept_count cmd arg)
        (Link.wp_keeps (sendCommand_keeps sendKept_done cmd arg)
          (Link.wp_and (sendCommand_sound cmd arg u) ((sendCommand_runs cmd arg).ends u)))))
      (fun r t ⟨⟨⟨⟨⟨ev, h1, h2⟩, _⟩, hd⟩, hc⟩, hb⟩ => ⟨⟨ev, h1, h2.trace⟩, hd, hc, hb⟩)
      fun c t ⟨⟨⟨⟨_, ev, h2⟩, hd⟩, hc⟩, hb⟩ => ⟨⟨ev, h2.trace⟩, hd, hc, hb⟩
  simp only [cmd18, setDone, Link.wp_andThen, Link.wp_modify, Link.wp_bind]
  refine Link.wp_mono (hsame cmd18Value addr { s with done := 0 }) ?_ ?_
  · rintro r t ⟨⟨sent, hsent, ht⟩, hd, hc, hb⟩
    replace hd : t.done = 0 := hd
    replace hc : t.count = s.count := hc
    split
    · next h0 =>
      obtain rfl : r = 0 := (isReady_iff r).mp h0
      simp only [Link.wp_reading, Link.wp_andThen, cmd12, Link.wp_pure]
      have hlt := s.count.isLt
      have hgo : ∀ u, Arrived t.count.toNat t u →
          Arrived s.count.toNat { s with done := 0, trace := s.trace ++ sent } u := by
        rintro u ⟨loop, rest, blocks, h1, h2, h3, h4, h5⟩
        exact ⟨loop, rest, blocks, by rw [h1, ht], h2, by rw [← hc]; exact h3, by rw [h4, hd], by rw [h5, hb, hd]⟩
      refine Link.wp_mono (receiveBlocks_arrived t.count.toNat t (by rw [hd, hc]; simpa using hlt)) ?_
        fun _ u hu => ⟨sent, hgo u hu, .inr hsent⟩
      intro _ u hu
      refine Link.wp_mono (hsame cmd12Value 0 u) ?_ ?_
      · rintro _ v ⟨⟨ev, -, hv⟩, hvd, -, hvb⟩
        exact ⟨sent, (hgo u hu).later hv hvd hvb, .inr hsent⟩
      · rintro _ v ⟨⟨ev, hv⟩, hvd, -, hvb⟩
        exact ⟨sent, (hgo u hu).later hv hvd hvb, .inr hsent⟩
    · exact ⟨sent, Arrived.none (rest := []) (by simpa using ht) hd hb, .inl hd⟩
  · rintro c t ⟨⟨sent, ht⟩, hd, -, hb⟩
    exact ⟨sent, Arrived.none (rest := []) (by simpa using ht) hd hb, .inl hd⟩

/-- What arrived stands in the buffer, and nothing else changed. -/
theorem Arrived.blocks {n : Nat} {s t : State} (h : Arrived n s t) (hd : s.done = 0) (hwf : s.buf.cells.wf) :
    ∃ loop rest, t.trace = s.trace ++ (loop ++ rest) ∧ t.done.toNat ≤ n ∧
      BlocksInTrace t.done.toNat loop (t.blocks t.done.toNat) := by
  obtain ⟨loop, rest, blocks, h1, h2, h3, h4, h5⟩ := h
  have hlen : t.done.toNat = blocks.length := by rw [h4, hd]; simp
  have hst := stored_of_store h2.block_length hwf (by simpa [hd] using h5)
  have heq : t.blocks blocks.length = blocks := by
    refine List.ext_getElem (by simp [State.blocks]) fun k h _ => ?_
    simpa [State.blocks] using hst k (by simpa [State.blocks] using h)
  exact ⟨loop, rest, h1, by omega, by rw [hlen, heq]; exact h2⟩

theorem Arrived.outside {n : Nat} {s t : State} (h : Arrived n s t) (hd : s.done = 0) :
    t.done.toNat ≤ n ∧ ∀ a, t.done.toNat * 512 ≤ a → t.bufByte a = s.bufByte a := by
  obtain ⟨loop, rest, blocks, -, h2, h3, h4, h5⟩ := h
  have hz : s.done.toNat = 0 := by rw [hd]; rfl
  have hlen : t.done.toNat = blocks.length := by rw [h4, hz, Nat.zero_add]
  refine ⟨by omega, fun a ha => ?_⟩
  simp only [State.bufByte, h5]
  exact Memory.read_store_other (.inr (by rw [flatten_blocks_length h2.block_length, hz, ← hlen, Nat.zero_mul, Nat.zero_add]; exact ha))

end Sys2Proof.Machine
end

