-- ==== Sys2Proof/Laws/PerInstr.lean ====
section
/-! SUPPORT. Statements made of every instruction, one lemma per constructor. -/

namespace Sys2Proof.Laws.Shape

/-- The number of bytes of each format: 48 bits of a frame (R50), one byte of a token or response (R54, R57, R58, R60,
R61), four trailing bytes (R55, R56), the operand tuple of a host operation (R68; log 12), the ioctl code (R69), the
operands of each micro-operation (R49; log 12). -/
def formatLength : Format → Nat
  | .frame => 6
  | .token _ | .stopPkt | .r1 | .idle | .dresp => 1
  | .trailCmd8 | .trailCmd58 => 4
  | .hostOp => 11
  | .ioctl => 1
  | .micro .select | .micro .deselect => 0
  | .micro .xfer | .micro .readByte | .micro .writeByte => 1
  | .micro .waitReady => 3
  | .micro .sendCommand => 5
  | .micro .receiveDatablock => 8
  | .micro .transmitDatablock => 7

/-- The encoding of an instruction has the fixed length of its format (R49: "all fixed-length"). -/
def Statement (i : Instr) : Prop := (encode i).bytes.length = formatLength (encode i).fmt

theorem cmd0 : Statement (.cmd0) := rfl

theorem cmd1 : Statement (.cmd1) := rfl

theorem cmd8 : Statement (.cmd8) := rfl

theorem cmd12 : Statement (.cmd12) := rfl

theorem cmd16 : Statement (.cmd16) := rfl

theorem cmd17 (arg : Word) : Statement (.cmd17 arg) := rfl

theorem cmd18 (arg : Word) : Statement (.cmd18 arg) := rfl

theorem acmd23 (count : Word) : Statement (.acmd23 count) := rfl

theorem cmd24 (arg : Word) : Statement (.cmd24 arg) := rfl

theorem cmd25 (arg : Word) : Statement (.cmd25 arg) := rfl

theorem acmd41 (hcs : Bool) : Statement (.acmd41 hcs) := rfl

theorem cmd55 : Statement (.cmd55) := rfl

theorem cmd58 : Statement (.cmd58) := rfl

theorem frameGeneric (index : BitVec 6) (arg : Word) : Statement (.frameGeneric index arg) := rfl

theorem tokenStartBlock (dir : Direction) : Statement (.tokenStartBlock dir) := rfl

theorem tokenStartMultiWrite : Statement (.tokenStartMultiWrite) := rfl

theorem tokenStopTran : Statement (.tokenStopTran) := rfl

theorem r1Valid (status : BitVec 7) : Statement (.r1Valid status) := rfl

theorem r1Pending (ignored : BitVec 7) : Statement (.r1Pending ignored) := rfl

theorem idleReady : Statement (.idleReady) := rfl

theorem drespAccepted (ignored : BitVec 3) : Statement (.drespAccepted ignored) := rfl

theorem trailCmd8Echo (ignored : BitVec 16) : Statement (.trailCmd8Echo ignored) := rfl

theorem trailOcrCcsSet (high : BitVec 1) (low : BitVec 30) : Statement (.trailOcrCcsSet high low) := rfl

theorem trailOcrCcsClear (high : BitVec 1) (low : BitVec 30) : Statement (.trailOcrCcsClear high low) := rfl

theorem diskInitialize (o : HostOperands) : Statement (.diskInitialize o) := rfl

theorem diskStatus (o : HostOperands) : Statement (.diskStatus o) := rfl

theorem diskRead (o : HostOperands) : Statement (.diskRead o) := rfl

theorem diskWrite (o : HostOperands) : Statement (.diskWrite o) := rfl

theorem diskIoctl (o : HostOperands) : Statement (.diskIoctl o) := rfl

theorem hostReserved5 (o : HostOperands) : Statement (.hostReserved5 o) := rfl

theorem hostReserved6 (o : HostOperands) : Statement (.hostReserved6 o) := rfl

theorem hostReserved7 (o : HostOperands) : Statement (.hostReserved7 o) := rfl

theorem ctrlSync : Statement (.ctrlSync) := rfl

theorem select : Statement (.select) := rfl

theorem deselect : Statement (.deselect) := rfl

theorem xfer (tx : Byte) : Statement (.xfer tx) := rfl

theorem readByte : Statement (.readByte) := rfl

theorem writeByte (b : Byte) : Statement (.writeByte b) := rfl

theorem waitReady (n : BitVec 16) : Statement (.waitReady n) := rfl

theorem sendCommand (cmd : Command) (arg : Word) : Statement (.sendCommand cmd arg) := rfl

theorem receiveDatablock (off : BitVec 48) (length : BitVec 10) : Statement (.receiveDatablock off length) := rfl

theorem transmitDatablock (off : BitVec 48) (token : Token) : Statement (.transmitDatablock off token) := rfl

end Sys2Proof.Laws.Shape
end

