-- ==== Sys2Proof/Laws/Step.lean ====
section
/-! SUPPORT. What a step can do, said once: it waits, takes a power cycle, or runs a request: an instruction, or a word that is
no row of the table, which does what a row of the same shape does. -/

namespace Sys2Proof.Machine

/-- An unlisted word that runs is a row that leaves the buffer alone, or disk_ioctl with a reserved code. -/
theorem execUnlisted_next {e : DecodeError} {bytes : List Byte} {s t : State} (h : execUnlisted e bytes s = .next t) :
    (e ∈ [.notStart, .notIdle, .notAccepted, .noEcho, .stopToken, .otherBound] ∧
        ∃ i, hostOpOf i = none ∧ storesBuffer i = false ∧ RowRan i s t) ∨
      (e = .reservedIoctl ∧ ∃ code, exec (.diskIoctl (ioctlOperands code s)) s = .next t) := by
  unfold execUnlisted at h
  split at h
  · exact .inl ⟨by decide, .tokenStartBlock .toController, rfl, rfl, RowRan.recognized rowBody_startToken h⟩
  · exact .inl ⟨by decide, .idleReady, rfl, rfl, RowRan.recognized rowBody_idle h⟩
  · exact .inl ⟨by decide, .drespAccepted 0, rfl, rfl, RowRan.recognized rowBody_dresp h⟩
  · exact .inl ⟨by decide, .trailCmd8Echo 0, rfl, rfl, RowRan.recognized rowBody_echo h⟩
  · exact .inr ⟨rfl, _, h⟩
  · exact .inl ⟨by decide, .tokenStopTran, rfl, rfl, RowRan.micro (rowBody_token _) h⟩
  · next n1 n0 => exact .inl ⟨by decide, .waitReady (n1 ++ n0), rfl, rfl, exec_row rfl h⟩
  · cases h

/-- How a step ends in a next state. -/
theorem step_next {s t : State} (h : step s = .next t) :
    (s.pending = [] ∧ t = s) ∨
    (∃ rest, s.pending = .powerCycle :: rest ∧ s.seq = .idle ∧ t = State.powerCycled { s with pending := rest }) ∨
    ∃ word buf rest, s.pending = .run word buf :: rest ∧
      ((∃ i, decode word = .ok i ∧ exec i (s.latched buf rest) = .next t) ∨
        ∃ e, decode word = .error e ∧ execUnlisted e word.bytes (s.latched buf rest) = .next t) := by
  unfold step at h
  split at h
  · next hp => cases h; exact .inl ⟨hp, rfl⟩
  · next rest hp =>
    split at h
    · next hq => cases h; exact .inr (.inl ⟨rest, hp, hq, rfl⟩)
    · cases h
  · next word buf rest hp =>
    refine .inr (.inr ⟨word, buf, rest, hp, ?_⟩)
    split at h
    · next i hd => exact .inl ⟨i, hd, h⟩
    · next e hd => exact .inr ⟨e, hd, h⟩

end Sys2Proof.Machine
end

