-- ==== Sys2Proof/Tests/Slice0.lean ====
section
/-! SUPPORT. Tests against the spec's worked examples (95_test_vectors; the row is named at each), and a witness for the
hypotheses of every statement that has some. Expected values are the spec's, never the model's own answers. -/

namespace Sys2Proof.Tests

open Sys2Proof Sys2Proof.Machine

/-! Helpers. -/

/-- An idle controller after reset with a card type, a buffer of `size` bytes all 0, and a card script. -/
def idleWith (ct : CardType) (size : Nat) (script : List Byte) : State :=
  { State.reset with cardType := ct, buf := ⟨size, []⟩, oracle := script.map .byte }

/-- The same with a link fault after the script, where link faults exist. -/
def faultyWith (ct : CardType) (size : Nat) (script : List Byte) (code : Nat) : State :=
  { idleWith ct size [] with params := ⟨true, false⟩, oracle := script.map .byte ++ [.fault code] }

/-- Does the instruction answer a next state with this property? -/
def answers (i : Instr) (s : State) (p : State → Bool) : Bool :=
  match exec i s with
  | .next t => p t
  | .fault _ | .refused _ => false

theorem of_answers {i : Instr} {s : State} {p : State → Bool} (h : answers i s p = true) :
    ∃ t, exec i s = .next t ∧ p t = true := by
  unfold answers at h
  split at h
  · exact ⟨_, ‹_›, h⟩
  · cases h
  · cases h

/-- Does the next step answer a next state with this property? -/
def steps (s : State) (p : State → Bool) : Bool :=
  match step s with
  | .next t => p t
  | .fault _ | .refused _ => false

theorem of_steps {s : State} {p : State → Bool} (h : steps s p = true) : ∃ t, step s = .next t ∧ p t = true := by
  unfold steps at h
  split at h
  · exact ⟨_, ‹_›, h⟩
  · cases h
  · cases h

/-- The card ready at the first poll, dropping the frame, answering R1 at the first poll (95 §0). -/
def frameScript (r : Byte) : List Byte := List.replicate 7 0xFF ++ [r]

/-- The events of that, for a frame (95 §2.6 S1). -/
def frameEvents (frame : List Byte) (r : Byte) : List Event :=
  [.des, .sel, .xfer 0xFF 0xFF] ++ writes frame (List.replicate 6 0xFF) ++ [.xfer 0xFF r]

/-- `pat(i)` of 95 §0. -/
def pat (i : Nat) : List Byte := (List.range 512).map fun j => BitVec.ofNat 8 (16 * i + j)

/-- Operands of a host operation with drive 0 and ioctl code 0. -/
def operands (sector count : Word) : HostOperands := ⟨0, sector, count, 0⟩

/-! WellFormed refuses an ill-formed term for each of its checks. -/

theorem test_wf_generic_is_named : WellFormed (.frameGeneric 0 0) = false := by decide
theorem test_wf_generic_is_read : WellFormed (.frameGeneric 17 5) = false := by decide
theorem test_wf_generic_corner : WellFormed (.frameGeneric 63 0xFFFFFFFF) = true := by decide
theorem test_wf_poll_bound : WellFormed (.waitReady 7) = false ∧ WellFormed (.waitReady 1000) = true := by decide

/-! Decoding: words written out from 30_encoding and 95 §2.2. -/

theorem test_decode_cmd1 : decode ⟨.frame, [0x41, 0, 0, 0, 0, 0x01]⟩ = .ok .cmd1 := by decide
theorem test_decode_cmd12 : decode ⟨.frame, [0x4C, 0, 0, 0, 0, 0x01]⟩ = .ok .cmd12 := by decide
theorem test_decode_cmd17 : decode ⟨.frame, [0x51, 0xFF, 0xFF, 0xFE, 0x00, 0x01]⟩ = .ok (.cmd17 0xFFFFFE00) := by decide
theorem test_decode_cmd24 : decode ⟨.frame, [0x58, 0, 0, 0x0E, 0x00, 0x01]⟩ = .ok (.cmd24 3584) := by decide
theorem test_decode_cmd25 : decode ⟨.frame, [0x59, 0x12, 0x34, 0x56, 0x78, 0x01]⟩ = .ok (.cmd25 0x12345678) := by decide
theorem test_decode_acmd41 : decode ⟨.frame, [0x69, 0, 0, 0, 0, 0x01]⟩ = .ok (.acmd41 false) := by decide
theorem test_decode_cmd55 : decode ⟨.frame, [0x77, 0, 0, 0, 0, 0x01]⟩ = .ok .cmd55 := by decide
theorem test_decode_cmd58 : decode ⟨.frame, [0x7A, 0, 0, 0, 0, 0x01]⟩ = .ok .cmd58 := by decide
theorem test_decode_generic :
    decode ⟨.frame, [0x7F, 0xFF, 0xFF, 0xFF, 0xFF, 0x01]⟩ = .ok (.frameGeneric 63 0xFFFFFFFF) ∧
    decode ⟨.frame, [0x40, 0, 0, 0, 0x01, 0x95]⟩ = .ok (.frameGeneric 0 1) ∧
    decode ⟨.frame, [0x48, 0, 0, 0, 0, 0x87]⟩ = .ok (.frameGeneric 8 0) := by decide
theorem test_decode_frame_rejects :
    decode ⟨.frame, [0x00, 0, 0, 0, 0, 0x01]⟩ = .error .badStartBits ∧
    decode ⟨.frame, [0x40, 0, 0, 0, 0, 0x01]⟩ = .error .badCrcByte ∧
    decode ⟨.frame, [0x40]⟩ = .error .badLength := by decide
theorem test_decode_token_card_sends_fe_only :
    decode ⟨.token .toController, [0xFC]⟩ = .error .notStart ∧
    decode ⟨.token .toCard, [0xFD]⟩ = .error .stopToken ∧ decode ⟨.token .toCard, [0xFF]⟩ = .error .badToken ∧
    decode ⟨.token .toCard, [0xFE]⟩ = .ok (.tokenStartBlock .toCard) := by decide
theorem test_decode_dresp_rejects :
    decode ⟨.dresp, [0x15]⟩ = .error .notAccepted ∧ decode ⟨.dresp, [0x04]⟩ = .error .notAccepted := by decide
theorem test_decode_echo_rejects :
    decode ⟨.trailCmd8, [0, 0, 0x01, 0xAB]⟩ = .error .noEcho ∧ decode ⟨.trailCmd8, [0, 0, 0xAA, 0x01]⟩ = .error .noEcho ∧
    decode ⟨.trailCmd8, [0xFF, 0xFF, 0x01, 0xAA]⟩ = .ok (.trailCmd8Echo 0xFFFF) := by decide
theorem test_decode_ocr :
    decode ⟨.trailCmd58, [0xBF, 0, 0, 0]⟩ = .ok (.trailOcrCcsClear 1 0x3F000000) ∧
    decode ⟨.trailCmd58, [0x40, 0, 0, 0]⟩ = .ok (.trailOcrCcsSet 0 0) := by decide
theorem test_decode_host :
    decode ⟨.hostOp, [4, 0, 0, 0, 0, 0, 0, 0, 0, 0, 9]⟩ = .ok (.diskIoctl ⟨0, 0, 0, 9⟩) ∧
    decode ⟨.hostOp, [6, 0, 0, 0, 0, 0, 0, 0, 0, 0, 0]⟩ = .ok (.hostReserved6 ⟨0, 0, 0, 0⟩) ∧
    decode ⟨.hostOp, [8, 0, 0, 0, 0, 0, 0, 0, 0, 0, 0]⟩ = .error .badOpCode ∧
    decode ⟨.ioctl, [1]⟩ = .error .reservedIoctl := by decide
theorem test_decode_micro :
    decode ⟨.micro .waitReady, [0xFF, 0x01, 0xF4]⟩ = .ok (.waitReady 500) ∧
    decode ⟨.micro .sendCommand, [0xA9, 0x40, 0, 0, 0]⟩ = .ok (.sendCommand ⟨true, 41⟩ 0x40000000) ∧
    decode ⟨.micro .transmitDatablock, [0, 0, 0, 0, 2, 0, 0xFD]⟩ = .ok (.transmitDatablock 512 .stopTran) := by decide
theorem test_table_words :
    decodeTableWord 48 0x000000000001 = none ∧ decodeTableWord 48 0x570000000301 = some (.acmd23 3) ∧
    decodeTableWord 3 2 = some (.diskRead ⟨0, 0, 0, 0⟩) ∧ decodeTableWord 8 0xFE = some (.tokenStartBlock .toCard) ∧
    decodeTableWord 8 0x80 = some (.r1Pending 0) ∧ decodeTableWord 32 0x1AA = some (.trailCmd8Echo 0) := by decide

/-! CRC-7 (95 §2.1), translator (95 §2.3). -/

theorem test_crc7 :
    crc7 [] = 0 ∧ crc7 [0x00] = 0 ∧ crc7 [0x01] = 0x09 ∧ crc7 [0x80] = 0x41 ∧ crc7 [0xFF] = 0x79 := by decide
theorem test_crc7_frames :
    crc7 [0xFF, 0xFF, 0xFF, 0xFF, 0xFF] = 0x11 ∧ crc7 [0x51, 0, 0, 0xC8, 0] = 0x4C ∧ crc7 [0x59, 0, 0, 6, 0] = 0x3B ∧
    crc7 [0x77, 0, 0, 0, 0] = 0x32 ∧ crc7 [0x7A, 0, 0, 0, 0] = 0x7E ∧ crc7 [0x40, 0, 0, 0, 1] = 0x43 := by
  decide +kernel
theorem test_translate :
    Machine.translate .sdc 0xFFFFFFFF = 0xFFFFFFFF ∧ Machine.translate .sd2 7 = 0xE00 ∧ Machine.translate .mmc 1 = 0x200 ∧
    Machine.translate .sd2 0x7FFFFF = 0xFFFFFE00 ∧ Machine.translate .sd2 0x800001 = 0x200 ∧
    Machine.translate .sd1 0xFFFFFFFF = 0xFFFFFE00 := by
  decide

/-- R66, R67, R68. -/
theorem test_numeric_codes :
    CardType.code .mmc = 1 ∧ CardType.code .sdc = 4 ∧ Result.code .notReady = some 2 ∧ Result.code .paramError = some 3 ∧
    HostOp.code .diskRead = 2 ∧ instrOfOp (HostOp.code .diskIoctl) (operands 0 0) = .diskIoctl (operands 0 0) := by decide

/-! Link primitives (95 §2.5). -/

theorem test_deselect_when_deasserted :
    answers .deselect (idleWith .none 0 []) (fun t => t.trace == [.des] && t.cs == .deasserted) = true := by decide
theorem test_select :
    answers .select (idleWith .none 0 []) (fun t => t.trace == [.sel] && t.cs == .asserted) = true := by decide
theorem test_xfer :
    answers (.xfer 0x40) (idleWith .none 0 [0xFF]) (fun t => t.trace == [.xfer 0x40 0xFF] && t.microResult == .byte 0xFF)
      = true := by decide
theorem test_readByte :
    answers .readByte (idleWith .none 0 [0x01]) (fun t => t.trace == [.xfer 0xFF 0x01] && t.microResult == .byte 0x01)
      = true := by decide
theorem test_writeByte_drops :
    answers (.writeByte 0x95) (idleWith .none 0 [0x3C]) (fun t => t.trace == [.xfer 0x95 0x3C] && t.microResult == .unit)
      = true := by decide
theorem test_waitReady :
    answers (.waitReady 500) (idleWith .none 0 [0, 0, 0xFF])
      (fun t => t.trace == reads [0, 0, 0xFF] && t.microResult == .bool true) = true := by decide
theorem test_waitReady_only_ff_is_ready :
    answers (.waitReady 500) (idleWith .none 0 (List.replicate 500 0xFE))
      (fun t => exchanges t.trace == 500 && t.microResult == .bool false) = true := by decide +kernel

/-! send_command (95 §2.6) and the wire commands. -/

theorem test_sendCommand_s7 :
    answers (.sendCommand ⟨true, 41⟩ 0x40000000) (idleWith .none 0 (frameScript 0x01 ++ frameScript 0x00))
      (fun t => t.trace == frameEvents [0x77, 0, 0, 0, 0, 0x01] 0x01 ++ frameEvents [0x69, 0x40, 0, 0, 0, 0x01] 0x00 &&
        t.microResult == .byte 0x00 && t.cs == .asserted) = true := by decide +kernel
theorem test_sendCommand_s3 :
    answers (.sendCommand ⟨false, 17⟩ 0) (idleWith .none 0 (List.replicate 17 0xFF ++ [0x00]))
      (fun t => t.microResult == .byte 0xFF && t.oracle == [.byte 0x00]) = true := by decide +kernel
theorem test_cmd0_s1 :
    answers .cmd0 (idleWith .none 0 (frameScript 0x01))
      (fun t => t.trace == frameEvents [0x40, 0, 0, 0, 0, 0x95] 0x01 && t.microResult == .byte 0x01) = true := by
  decide +kernel
theorem test_cmd1 :
    answers .cmd1 (idleWith .none 0 (frameScript 0x00))
      (fun t => t.trace == frameEvents [0x41, 0, 0, 0, 0, 0x01] 0x00) = true := by decide +kernel
theorem test_cmd8_reads_trail :
    answers .cmd8 (idleWith .none 0 (frameScript 0x01 ++ [0, 0, 0x01, 0xAA]))
      (fun t => t.trace == frameEvents [0x48, 0, 0, 0x01, 0xAA, 0x87] 0x01 ++ reads [0, 0, 0x01, 0xAA] &&
        t.trail == ⟨0, 0, 0x01, 0xAA⟩) = true := by decide +kernel
theorem test_cmd8_legacy_reads_no_trail :
    answers .cmd8 (idleWith .none 0 (frameScript 0x05))
      (fun t => t.trace == frameEvents [0x48, 0, 0, 0x01, 0xAA, 0x87] 0x05) = true := by decide +kernel
theorem test_cmd12_s6 :
    answers .cmd12 { idleWith .none 0 [0x55, 0x66, 0x77, 0x88, 0x99, 0xAA, 0x00] with cs := .asserted }
      (fun t => t.trace == writes [0x4C, 0, 0, 0, 0, 0x01] [0x55, 0x66, 0x77, 0x88, 0x99, 0xAA] ++ reads [0x00] &&
        t.cs == .asserted) = true := by decide +kernel
theorem test_cmd16_failure_is_none :
    answers .cmd16 { idleWith .none 0 (frameScript 0x40) with ty := .sdc }
      (fun t => t.trace == frameEvents [0x50, 0, 0, 0x02, 0, 0x01] 0x40 && t.ty == .none) = true := by decide +kernel
theorem test_acmd41_s8_aborted :
    answers (.acmd41 false) (idleWith .none 0 (frameScript 0x05))
      (fun t => t.trace == frameEvents [0x77, 0, 0, 0, 0, 0x01] 0x05 && t.microResult == .byte 0x05) = true := by
  decide +kernel
theorem test_acmd23_s9 :
    answers (.acmd23 2) (idleWith .none 0 (frameScript 0x00 ++ frameScript 0x00))
      (fun t => t.trace == frameEvents [0x77, 0, 0, 0, 0, 0x01] 0x00 ++ frameEvents [0x57, 0, 0, 0, 0x02, 0x01] 0x00)
      = true := by decide +kernel
theorem test_cmd55 :
    answers .cmd55 (idleWith .none 0 (frameScript 0x00))
      (fun t => t.trace == frameEvents [0x77, 0, 0, 0, 0, 0x01] 0x00) = true := by decide +kernel
theorem test_cmd58_sd2 :
    answers .cmd58 (idleWith .none 0 (frameScript 0x00 ++ [0x80, 0xFF, 0x80, 0x00]))
      (fun t => t.ty == .sd2 && t.trail == ⟨0x80, 0xFF, 0x80, 0x00⟩) = true := by decide +kernel
theorem test_cmd58_s11 :
    answers .cmd58 (idleWith .none 0 (frameScript 0x7F))
      (fun t => t.trace == frameEvents [0x7A, 0, 0, 0, 0, 0x01] 0x7F && t.ty == .none) = true := by decide +kernel
theorem test_cmd17_rejected :
    answers (.cmd17 0x200) (idleWith .sd2 512 (frameScript 0x04))
      (fun t => t.trace == frameEvents [0x51, 0, 0, 0x02, 0, 0x01] 0x04 && t.microResult == .bool false) = true := by
  decide +kernel
theorem test_cmd18_stops_after_failed_block :
    answers (.cmd18 0xC800) { idleWith .sd1 1024 (frameScript 0x00 ++ [0x09] ++ List.replicate 6 0xFF ++ [0x00]) with
        count := 2 }
      (fun t => t.trace == frameEvents [0x52, 0, 0, 0xC8, 0, 0x01] 0x00 ++ reads [0x09] ++
        writes [0x4C, 0, 0, 0, 0, 0x01] (List.replicate 6 0xFF) ++ reads [0x00] && t.microResult == .bool false)
      = true := by decide +kernel
theorem test_cmd24_rejected :
    answers (.cmd24 7) (idleWith .sdc 512 (frameScript 0x04))
      (fun t => t.trace == frameEvents [0x58, 0, 0, 0, 0x07, 0x01] 0x04 && t.microResult == .bool false) = true := by
  decide +kernel
theorem test_cmd25_of_no_block_sends_stop :
    answers (.cmd25 512) (idleWith .mmc 0 (frameScript 0x00 ++ [0xFF, 0xFF, 0xFF]))
      (fun t => t.trace == frameEvents [0x59, 0, 0, 0x02, 0, 0x01] 0x00 ++ [.xfer 0xFF 0xFF, .xfer 0xFD 0xFF, .xfer 0xFF 0xFF])
      = true := by decide +kernel
theorem test_frameGeneric :
    answers (.frameGeneric 63 0xFFFFFFFF) State.reset
      (fun t => t.frame.bytes == [0x7F, 0xFF, 0xFF, 0xFF, 0xFF, 0x01] && t.trace == []) = true := by decide

/-! Tokens and received bytes (95 §2.4). -/

theorem test_tokenStartBlock :
    answers (.tokenStartBlock .toController) State.reset (fun t => t.tok == 0xFE && t.microResult == .bool true) = true := by
  decide
theorem test_tokenStartMultiWrite :
    answers .tokenStartMultiWrite (idleWith .none 0 [0xFF]) (fun t => t.trace == [.xfer 0xFC 0xFF]) = true := by decide
theorem test_tokenStopTran :
    answers .tokenStopTran (idleWith .none 0 [0xFF]) (fun t => t.trace == [.xfer 0xFD 0xFF]) = true := by decide
theorem test_r1Valid : answers (.r1Valid 0x7F) State.reset (fun t => t.resp == 0x7F && t.microResult == .bool true) = true := by
  decide
theorem test_r1Pending :
    answers (.r1Pending 0) State.reset (fun t => t.resp == 0x80 && t.microResult == .bool false) = true := by decide
theorem test_idleReady :
    answers .idleReady State.reset (fun t => t.trace == [.xfer 0xFF 0xFF] && t.microResult == .bool true) = true := by decide
theorem test_drespAccepted :
    answers (.drespAccepted 7) State.reset (fun t => t.dresp == 0xE5 && t.microResult == .bool true) = true := by decide
theorem test_dresp_verdicts :
    dataAccepted 0x05 = true ∧ dataAccepted 0x25 = true ∧ dataAccepted 0x0D = false ∧ dataAccepted 0xEB = false ∧
    dataAccepted 0x15 = false ∧ dataAccepted 0x04 = false ∧ dataAccepted 0xFF = false := by decide
theorem test_trailCmd8Echo :
    answers (.trailCmd8Echo 0xFFFF) State.reset (fun t => t.trail == ⟨0xFF, 0xFF, 0x01, 0xAA⟩) = true := by decide
theorem test_trailOcr :
    answers (.trailOcrCcsSet 1 0x00FF8000) State.reset (fun t => t.ty == .sdc && t.trail.t0 == 0xC0) = true ∧
    answers (.trailOcrCcsClear 1 0x3F000000) State.reset (fun t => t.ty == .sd2 && t.trail.t0 == 0xBF) = true := by decide

/-! Data packets (95 §2.7). -/

theorem test_receive_t4 :
    answers (.receiveDatablock 0 512) (idleWith .sdc 512 [0x09])
      (fun t => t.trace == reads [0x09] && t.microResult == .bool false) = true := by decide +kernel
theorem test_receive_t3 :
    answers (.receiveDatablock 0 512) (idleWith .sdc 512 (List.replicate 255 0xFF ++ [0xFE]))
      (fun t => exchanges t.trace == 255 && t.microResult == .bool false && t.oracle == [.byte 0xFE]) = true := by
  decide +kernel
theorem test_transmit_w6 :
    answers (.transmitDatablock 0 .stopTran) (idleWith .sdc 0 [0xFF, 0xFF, 0xFF])
      (fun t => t.trace == [.xfer 0xFF 0xFF, .xfer 0xFD 0xFF, .xfer 0xFF 0xFF] && t.microResult == .bool true) = true := by
  decide +kernel
theorem test_transmit_w8 :
    answers (.transmitDatablock 0 .stopTran) (idleWith .sdc 0 (List.replicate 500 0x00))
      (fun t => exchanges t.trace == 500 && t.microResult == .bool false) = true := by decide +kernel

/-! The initializer (95 §2.8, §3). -/

theorem test_initialize_v6 :
    answers (.diskInitialize (operands 0 0)) (idleWith .sdc 0 (List.replicate 10 0xFF ++ frameScript 0x00))
      (fun t => t.result == .notReady && t.cardType == .none && t.trace ==
        .sel :: reads (List.replicate 10 0xFF) ++ frameEvents [0x40, 0, 0, 0, 0, 0x95] 0x00 ++ [.des]) = true := by
  decide +kernel

/-- The script of program P1, the high-capacity card. -/
def sdcScript : List Byte :=
  List.replicate 10 0xFF ++ frameScript 0x01 ++ (frameScript 0x01 ++ [0, 0, 0x01, 0xAA]) ++ frameScript 0x01 ++
    frameScript 0x00 ++ (frameScript 0x00 ++ [0x40, 0xFF, 0x80, 0x00]) ++ frameScript 0x00

theorem test_initialize_p1 :
    answers (.diskInitialize (operands 0 0)) (idleWith .none 0 sdcScript)
      (fun t => t.result == .ok && t.cardType == .sdc && exchanges t.trace == 66 && t.trace.length == 80) = true := by
  decide +kernel

/-! Host operations (95 §2.9). -/

theorem test_status :
    answers (.diskStatus (operands 0 0)) (idleWith .sd1 0 []) (fun t => t.result == .ok && t.trace == []) = true ∧
    answers (.diskStatus (operands 0 0)) State.reset (fun t => t.result == .notReady) = true := by decide
theorem test_read_h3 :
    answers (.diskRead (operands 0x800001 1)) (idleWith .sd2 512 (frameScript 0x04))
      (fun t => t.result == .error && t.trace == frameEvents [0x51, 0, 0, 0x02, 0, 0x01] 0x04 ++ [.des]) = true := by
  decide +kernel
theorem test_read_h1 :
    answers (.diskRead (operands 100 1)) (idleWith .sdc 512 (frameScript 0x00 ++ [0xFF, 0xFE] ++ pat 5 ++ [0xAB, 0xCD]))
      (fun t => t.result == .ok && t.draws == 524 && t.bufByte 3 == 0x53) = true := by
  decide +kernel
theorem test_write_h6 :
    answers (.diskWrite (operands 7 1))
      (idleWith .sdc 512 (frameScript 0x00 ++ List.replicate 516 0xFF ++ [0xE5, 0x00, 0x00, 0x00, 0xFF]))
      (fun t => t.result == .ok && t.draws == 529) = true := by decide +kernel
theorem test_write_h10 :
    answers (.diskWrite (operands 8 2)) (idleWith .sd2 1024 (frameScript 0x00 ++ frameScript 0x00 ++ frameScript 0x20))
      (fun t => t.result == .error && t.trace == frameEvents [0x77, 0, 0, 0, 0, 0x01] 0x00 ++
        frameEvents [0x57, 0, 0, 0, 0x02, 0x01] 0x00 ++ frameEvents [0x59, 0, 0, 0x10, 0, 0x01] 0x20 ++ [.des]) = true := by
  decide +kernel
theorem test_ioctl_h14 :
    answers (.diskIoctl (operands 0 0)) (idleWith .sd1 0 [0, 0, 0xFF])
      (fun t => t.result == .ok && t.trace == .sel :: reads [0, 0, 0xFF] ++ [.des]) = true := by decide +kernel
theorem test_ioctl_code_255 :
    answers (.diskIoctl ⟨0, 0, 0, 255⟩) (idleWith .sd1 0 []) (fun t => t.result == .paramError && t.trace == []) = true := by
  decide
theorem test_ctrlSync_h16 :
    answers .ctrlSync (idleWith .sd1 0 [0xFF])
      (fun t => t.result == .ok && t.trace == [.sel, .xfer 0xFF 0xFF, .des]) = true := by decide +kernel
theorem test_reserved :
    answers (.hostReserved5 (operands 0 0)) State.reset (fun t => t.result == .paramError) = true ∧
    answers (.hostReserved6 (operands 0 0)) State.reset (fun t => t.result == .paramError) = true ∧
    answers (.hostReserved7 (operands 0 0)) State.reset (fun t => t.result == .paramError) = true := by decide
theorem test_gate_before_parameters :
    answers (.diskRead (operands 5 0)) State.reset (fun t => t.result == .notReady) = true ∧
    answers (.diskRead (operands 5 0)) (idleWith .sdc 0 []) (fun t => t.result == .paramError) = true := by decide

/-! The step. -/

theorem test_step_runs_presented_word :
    steps ((idleWith .none 0 (frameScript 0x01)).withFetchWord 48 0x400000000095)
      (fun t => t.frame.bits == 0x400000000095 && t.pending == []) = true := by decide +kernel

/-- A state with these requests presented. -/
def presented (requests : List Request) : State := { State.reset with pending := requests }

/-- A state with one word presented to it. -/
def givenWord (s : State) (word : InstrWord) : State := { s with pending := [.run word ⟨0, []⟩] }

/-- Received bytes that are no row take their turn (95 §2.4: 0x00 is not idle, 0x0D not accepted, 0x09 no start token). -/
theorem test_step_received_bytes :
    steps (presented [.run ⟨.idle, [0x00]⟩ ⟨0, []⟩]) (fun t => t.microResult == .bool false && t.trace == reads [0]) = true ∧
    steps (presented [.run ⟨.dresp, [0x0D]⟩ ⟨0, []⟩]) (fun t => t.microResult == .bool false && t.dresp == 0x0D) = true ∧
    steps (presented [.run ⟨.token .toController, [0x09]⟩ ⟨0, []⟩])
      (fun t => t.microResult == .bool false && t.tok == 0x09) = true ∧
    steps (presented [.run ⟨.trailCmd8, [0, 0, 0x01, 0xAB]⟩ ⟨0, []⟩])
      (fun t => t.microResult == .bool false && t.trail == ⟨0, 0, 0x01, 0xAB⟩) = true := by decide

/-- A reserved ioctl code alone (R69): PARAM_ERROR past the gate, NOT_READY before it. -/
theorem test_step_reserved_ioctl :
    steps (givenWord (idleWith .sd1 0 []) ⟨.ioctl, [1]⟩) (fun t => t.result == .paramError && t.trace == []) = true ∧
    steps (givenWord State.reset ⟨.ioctl, [1]⟩) (fun t => t.result == .notReady && t.trace == []) = true := by decide

/-- The stop token under TOKEN (R58), and R85's loop with another bound. -/
theorem test_step_other_words :
    steps (givenWord (idleWith .none 0 [0xFF]) ⟨.token .toCard, [0xFD]⟩) (fun t => t.trace == [.xfer 0xFD 0xFF]) = true ∧
    steps (givenWord (idleWith .none 0 [0, 0]) ⟨.micro .waitReady, [0xFF, 0, 2]⟩)
      (fun t => t.trace == reads [0, 0] && t.microResult == .bool false) = true := by decide

/-! Link faults (R186): what a fault inside a block and between the trailing bytes leaves. -/

/-- R35: a block cut short is not stored. -/
theorem test_block_cut_short_is_not_stored :
    answers (.receiveDatablock 0 4) (faultyWith .sdc 512 [0xFE, 1, 2, 3] 9)
      (fun t => t.microResult == .linkFault 9 && t.buf == ⟨512, []⟩ && t.trace == reads [0xFE, 1, 2, 3] ++ [.des]) = true := by
  decide +kernel

/-- R123: each trailing byte is written as it is read. -/
theorem test_trail_written_byte_by_byte :
    answers .cmd8 (faultyWith .none 0 (frameScript 0x01 ++ [0x11, 0x22]) 9)
      (fun t => t.microResult == .linkFault 9 && t.trail == ⟨0x11, 0x22, 0, 0⟩) = true := by decide +kernel

/-! Witnesses: a concrete state and operands that meet a statement's hypotheses, clause by clause. -/

theorem witness_DecodeOfEncode :
    WellFormed (.waitReady 500) = true ∧ WellFormed (.waitReady 1000) = true ∧
    WellFormed (.frameGeneric 63 0xFFFFFFFF) = true ∧ WellFormed (.frameGeneric 0 1) = true := by decide

theorem witness_EncodeOfDecode : decode ⟨.r1, [0x7F]⟩ = .ok (.r1Valid 0x7F) ∧ decode ⟨.r1, [0x80]⟩ = .ok (.r1Pending 0) := by
  decide

theorem witness_StepRunsDecoded :
    (presented [.run ⟨.micro .select, []⟩ ⟨512, []⟩]).pending = .run ⟨.micro .select, []⟩ ⟨512, []⟩ :: [] ∧
    decode ⟨.micro .select, []⟩ = .ok .select := by decide

theorem witness_StepOtherwise :
    State.reset.pending = [] ∧
    ((presented [.powerCycle]).pending = .powerCycle :: [] ∧ (presented [.powerCycle]).seq = .idle) ∧
    (({ presented [.powerCycle] with seq := .transfer } : State).pending = .powerCycle :: [] ∧
      ({ presented [.powerCycle] with seq := .transfer } : State).seq ≠ .idle) ∧
    ((presented [.run ⟨.idle, [0]⟩ ⟨0, []⟩]).pending = .run ⟨.idle, [0]⟩ ⟨0, []⟩ :: [] ∧
      decode ⟨.idle, [0]⟩ = .error .notIdle) ∧
    decode ⟨.token .toController, [0x09]⟩ = .error .notStart ∧ decode ⟨.dresp, [0x0D]⟩ = .error .notAccepted ∧
    decode ⟨.trailCmd8, [0, 0, 0x01, 0xAB]⟩ = .error .noEcho ∧ decode ⟨.ioctl, [255]⟩ = .error .reservedIoctl ∧
    decode ⟨.token .toCard, [0xFD]⟩ = .error .stopToken ∧ decode ⟨.micro .waitReady, [0xFF, 0, 7]⟩ = .error .otherBound ∧
    (decode ⟨.frame, [0x00, 0, 0, 0, 0, 0x01]⟩ = .error .badStartBits ∧ DecodeError.badStartBits ∉
      [.notStart, .notIdle, .notAccepted, .noEcho, .reservedIoctl, .stopToken, .otherBound]) := by decide

theorem witness_AnswersAreTheEnvironments :
    (idleWith .none 0 [0x3C]).oracle = .byte 0x3C :: [] ∧
    ((faultyWith .none 0 [] 5).oracle = .fault 5 :: [] ∧ (faultyWith .none 0 [] 5).params.linkFaults = true) ∧
    State.reset.params.linkFaults = false := by decide

theorem witness_ExchangeRows : (idleWith .none 0 [0x3C]).nextAnswer = .byte 0x3C := by decide

theorem witness_ExchangeFaultRows :
    (faultyWith .none 0 [] 5).nextAnswer = .fault 5 ∧
    (Instr.xfer 0x40 = .readByte ∨ (∃ tx, Instr.xfer 0x40 = .xfer tx) ∨ ∃ b, Instr.xfer 0x40 = .writeByte b) :=
  ⟨by decide, .inr (.inl ⟨0x40, rfl⟩)⟩

/-- The instruction answers a next state with no link fault recorded, and with this property. -/
def completes (i : Instr) (s : State) (p : State → Bool) : Prop :=
  ∃ t, exec i s = .next t ∧ (∀ code, t.microResult ≠ .linkFault code) ∧ p t = true

theorem completes_of {i : Instr} {s : State} {p : State → Bool} (m : MicroResult) (hm : ∀ code, m ≠ .linkFault code)
    (h : answers i s (fun t => t.microResult == m && p t) = true) : completes i s p := by
  obtain ⟨t, ht, hp⟩ := of_answers h
  simp only [Bool.and_eq_true, beq_iff_eq] at hp
  exact ⟨t, ht, by rw [hp.1]; exact hm, hp.2⟩

/-- Each clause at both ends: 8 and 516 exchanges, 500 where the card stays busy; 7 for CMD12; 8 where CMD55 is fatal, and
both frames of an application command. -/
theorem witness_SendCommandBounds :
    completes (.sendCommand ⟨false, 17⟩ 0) (idleWith .none 0 (frameScript 0)) (fun t => exchanges t.trace == 8) ∧
    completes (.sendCommand ⟨false, 17⟩ 0)
      (idleWith .none 0 (List.replicate 499 0 ++ List.replicate 16 0xFF ++ [0])) (fun t => exchanges t.trace == 516) ∧
    completes (.sendCommand ⟨false, 17⟩ 0) (idleWith .none 0 (List.replicate 500 0)) (fun t => exchanges t.trace == 500) ∧
    completes (.sendCommand ⟨false, 12⟩ 0) (idleWith .none 0 (List.replicate 6 0xFF ++ [0])) (fun t => exchanges t.trace == 7) ∧
    completes (.sendCommand ⟨true, 41⟩ 0) (idleWith .none 0 (frameScript 5)) (fun t => exchanges t.trace == 8) ∧
    completes (.sendCommand ⟨true, 41⟩ 0x40000000) (idleWith .none 0 (frameScript 1 ++ frameScript 0))
      (fun t => exchanges t.trace == 16) ∧
    completes (.sendCommand ⟨true, 12⟩ 0) (idleWith .none 0 (frameScript 1 ++ List.replicate 6 0xFF ++ [0]))
      (fun t => exchanges t.trace == 15) :=
  ⟨completes_of (.byte 0) nofun (by decide +kernel), completes_of (.byte 0) nofun (by decide +kernel),
    completes_of (.byte 0xFF) nofun (by decide +kernel), completes_of (.byte 0) nofun (by decide +kernel),
    completes_of (.byte 5) nofun (by decide +kernel), completes_of (.byte 0) nofun (by decide +kernel),
    completes_of (.byte 0) nofun (by decide +kernel)⟩

theorem witness_Cmd17Row : 512 ≤ (idleWith .sdc 512 []).buf.size ∧ (idleWith .sdc 511 []).buf.size < 512 := by decide

/-- The same with a `count` latch. -/
def counting (count : Word) (size : Nat) : State := { idleWith .sdc size [] with count := count }

theorem witness_Cmd18Row :
    (counting 3 1536).count.toNat * 512 ≤ (counting 3 1536).buf.size ∧
    (counting 3 1535).buf.size < (counting 3 1535).count.toNat * 512 := by decide

theorem witness_Cmd24Row : 512 ≤ (idleWith .sdc 512 []).buf.size ∧ (idleWith .sdc 511 []).buf.size < 512 := by decide

theorem witness_Cmd25Row :
    (counting 0 0).count.toNat * 512 ≤ (counting 0 0).buf.size ∧
    (counting 1 511).buf.size < (counting 1 511).count.toNat * 512 := by decide

theorem witness_TrailRows :
    (0xC0 : Byte) ++ (0xFF : Byte) ++ (0x80 : Byte) ++ (0x00 : Byte) = (1 : BitVec 1) ++ 1#1 ++ (0x00FF8000 : BitVec 30) ∧
    (0x80 : Byte) ++ (0xFF : Byte) ++ (0x80 : Byte) ++ (0x00 : Byte) = (1 : BitVec 1) ++ 0#1 ++ (0x00FF8000 : BitVec 30) := by
  decide

theorem witness_SentTokenRows : Instr.tokenStopTran = .tokenStopTran ∧ (0xFD : Byte) = 0xFD := ⟨rfl, rfl⟩

theorem witness_ReceiveDatablockRow :
    (512 : BitVec 48).toNat + (512 : BitVec 10).toNat ≤ (idleWith .sdc 1024 []).buf.size ∧
    (idleWith .sdc 1023 []).buf.size < (512 : BitVec 48).toNat + (512 : BitVec 10).toNat ∧
    (idleWith .sdc 1024 []).buf.cells.wf := by decide

theorem witness_TransmitDatablockRow :
    (Token.stopTran = .stopTran ∨ (0 : BitVec 48).toNat + 512 ≤ State.reset.buf.size) ∧
    (Token.startBlock = .stopTran ∨ (512 : BitVec 48).toNat + 512 ≤ (idleWith .sdc 1024 []).buf.size) ∧
    (Token.startBlock ≠ .stopTran ∧ (idleWith .sdc 1023 []).buf.size < (512 : BitVec 48).toNat + 512) := by decide

/-- Each clause at a bound: 255 and 1 exchanges without a token; 4 for a block of one byte, 515 for one of 512; 500 and
518 for a data packet; 500 and 3 for a stop packet. -/
theorem witness_PacketBounds :
    completes (.receiveDatablock 0 512) (idleWith .sdc 512 (List.replicate 255 0xFF)) (fun t => exchanges t.trace == 255) ∧
    completes (.receiveDatablock 0 512) (idleWith .sdc 512 [0x09]) (fun t => exchanges t.trace == 1) ∧
    completes (.receiveDatablock 0 1) (idleWith .sdc 512 [0xFE, 7, 1, 2]) (fun t => exchanges t.trace == 4) ∧
    completes (.receiveDatablock 0 512) (idleWith .sdc 512 (0xFE :: List.replicate 514 7)) (fun t => exchanges t.trace == 515) ∧
    completes (.transmitDatablock 0 .startBlock) (idleWith .sdc 512 (List.replicate 500 0))
      (fun t => exchanges t.trace == 500) ∧
    completes (.transmitDatablock 0 .startMultiWrite) (idleWith .sdc 512 (List.replicate 516 0xFF ++ [0xE5, 0xFF]))
      (fun t => exchanges t.trace == 518) ∧
    completes (.transmitDatablock 0 .stopTran) (idleWith .sdc 0 (List.replicate 500 0)) (fun t => exchanges t.trace == 500) ∧
    completes (.transmitDatablock 0 .stopTran) (idleWith .sdc 0 [0xFF, 0xFF, 0xFF]) (fun t => exchanges t.trace == 3) :=
  ⟨completes_of (.bool false) nofun (by decide +kernel), completes_of (.bool false) nofun (by decide +kernel),
    completes_of (.bool true) nofun (by decide +kernel), completes_of (.bool true) nofun (by decide +kernel),
    completes_of (.bool false) nofun (by decide +kernel), completes_of (.bool true) nofun (by decide +kernel),
    completes_of (.bool false) nofun (by decide +kernel), completes_of (.bool true) nofun (by decide +kernel)⟩

theorem witness_Translator : CardType.sd1 ≠ .sdc ∧ CardType.none ≠ .sdc := by decide

theorem witness_TranslatorWrap :
    CardType.sd2 ≠ .sdc ∧ (0 : Word).toNat % 2 ^ 23 = (0x800000 : Word).toNat % 2 ^ 23 ∧
    ¬ (0 : Word).toNat % 2 ^ 23 = (0x7FFFFF : Word).toNat % 2 ^ 23 := by decide

theorem witness_BufferReadWrite :
    (⟨512, [(0, 1), (511, 2)]⟩ : HostBuffer).cells.wf ∧ (⟨0, []⟩ : HostBuffer).cells.wf := by decide

theorem witness_DiskStatusRow : State.reset.seq = .idle ∧ (idleWith .sd1 0 []).seq = .idle := by decide

theorem witness_GateRefuses : State.reset.seq = .idle ∧ State.reset.cardType = .none := by decide

theorem witness_OperandsRefused :
    (idleWith .sdc 0 []).seq = .idle ∧ (idleWith .sdc 0 []).cardType ≠ .none ∧ (operands 5 0).count = 0 ∧
    (⟨0, 0, 0, 1⟩ : HostOperands).ioctlCmd ≠ 0 := by decide

theorem witness_ReservedCodes : State.reset.seq = .idle := by decide

theorem witness_CtrlSyncRow :
    (idleWith .sd1 0 []).seq = .idle ∧ (idleWith .sd1 0 []).cardType ≠ .none ∧
    (Instr.diskIoctl (operands 0 0) = .diskIoctl (operands 0 0) ∧ (operands 0 0).ioctlCmd = 0) ∧
    (Instr.ctrlSync = .ctrlSync ∧ operands 0 0 = ⟨(idleWith .sd1 0 []).drive, (idleWith .sd1 0 []).sector,
      (idleWith .sd1 0 []).count, 0⟩) := by decide

theorem witness_DiskReadRow :
    (idleWith .sd1 1536 []).seq = .idle ∧ (idleWith .sd1 1536 []).cardType ≠ .none ∧ (operands 100 3).count ≠ 0 ∧
    (operands 100 3).count.toNat * 512 ≤ (idleWith .sd1 1536 []).buf.size ∧ (idleWith .sd1 1536 []).buf.cells.wf := by decide

theorem witness_DiskWriteRow :
    (idleWith .mmc 512 []).seq = .idle ∧ (idleWith .mmc 512 []).cardType ≠ .none ∧ (operands 1 1).count ≠ 0 ∧
    (operands 1 1).count.toNat * 512 ≤ (idleWith .mmc 512 []).buf.size := by decide

/-- A link fault in the middle of the wake-up bytes. -/
theorem initialize_faults :
    ∃ t, exec (.diskInitialize (operands 0 0)) (faultyWith .sdc 0 [0xFF, 0xFF] 5) = .next t ∧
      (t.result == .linkFault 5 && t.cardType == .none) = true := of_answers (by decide +kernel)

theorem witness_DiskInitializeRow :
    (faultyWith .sdc 0 [0xFF, 0xFF] 5).seq = .idle ∧
    ∃ t, exec (.diskInitialize (operands 0 0)) (faultyWith .sdc 0 [0xFF, 0xFF] 5) = .next t ∧ t.result = .linkFault 5 := by
  obtain ⟨t, h, hp⟩ := initialize_faults
  exact ⟨rfl, t, h, by simp_all⟩

theorem witness_CallsRefused :
    (({ State.reset with seq := .transfer } : State).seq ≠ .idle ∧ hostOpOf (.diskStatus (operands 0 0)) ≠ none) ∧
    ((idleWith .sd2 1023 []).cardType ≠ .none ∧ (operands 8 2).count ≠ 0 ∧
      (idleWith .sd2 1023 []).buf.size < (operands 8 2).count.toNat * 512) := by decide

theorem witness_DriveIgnored :
    (Instr.diskStatus = .diskInitialize ∨ Instr.diskStatus = .diskStatus) ∧
    ∃ t, exec (.diskStatus (operands 0 0)) State.reset = .next t := ⟨.inr rfl, _, rfl⟩

theorem witness_PhasesAreTheOperation : State.reset.seq = .idle := by decide

theorem witness_HostOperationBounds :
    hostOpOf .ctrlSync = some .diskIoctl ∧ ∃ t, exec .ctrlSync (idleWith .sd1 0 [0xFF]) = .next t :=
  ⟨rfl, let ⟨t, h, _⟩ := of_answers test_ctrlSync_h16; ⟨t, h⟩⟩

/-- V6, 18 exchanges; P1, an accepted v2 card; an empty slot, every byte 0xFF, 27 exchanges. -/
theorem empty_slot :
    answers (.diskInitialize (operands 0 0)) (idleWith .none 0 (List.replicate 27 0xFF))
      (fun t => t.result == .notReady && exchanges t.trace == 27) = true := by decide +kernel

theorem witness_InitializeBounds :
    (∃ t, exec (.diskInitialize (operands 0 0)) (idleWith .sdc 0 (List.replicate 10 0xFF ++ frameScript 0x00)) = .next t ∧
      ∀ code, t.result ≠ .linkFault code) ∧
    (∃ t, exec (.diskInitialize (operands 0 0)) (idleWith .none 0 sdcScript) = .next t ∧ t.cardType = .sdc ∧
      ∀ code, t.result ≠ .linkFault code) ∧
    ∃ t, exec (.diskInitialize (operands 0 0)) (idleWith .none 0 (List.replicate 27 0xFF)) = .next t ∧
      ∀ code, t.result ≠ .linkFault code := by
  obtain ⟨t, ht, hp⟩ := of_answers test_initialize_v6
  obtain ⟨u, hu, hq⟩ := of_answers test_initialize_p1
  obtain ⟨v, hv, hr⟩ := of_answers empty_slot
  exact ⟨⟨t, ht, by simp_all⟩, ⟨u, hu, by simp_all⟩, v, hv, by simp_all⟩

theorem witness_SelectedThroughout :
    hostOpOf .ctrlSync ≠ none ∧ (idleWith .sd1 0 [0xFF]).cs = .deasserted ∧
    ∃ t, exec .ctrlSync (idleWith .sd1 0 [0xFF]) = .next t :=
  ⟨by decide, rfl, let ⟨t, h, _⟩ := of_answers test_ctrlSync_h16; ⟨t, h⟩⟩

theorem witness_CardTypeWrittenByInitialize :
    State.reset.seq = .idle ∧ (∃ t, exec .select State.reset = .next t) ∧ ∀ o, Instr.select ≠ .diskInitialize o :=
  ⟨rfl, ⟨_, rfl⟩, nofun⟩

/-- A card identified, and a card lost: V1 from the uninitialized mode, V6 from the ready mode. -/
theorem witness_ModeChanges :
    (idleWith .none 0 sdcScript).seq = .idle ∧
    (∃ t, exec (.diskInitialize (operands 0 0)) (idleWith .none 0 sdcScript) = .next t ∧ t.cardType ≠ .none) ∧
    ∃ t, exec (.diskInitialize (operands 0 0)) (idleWith .sdc 0 (List.replicate 10 0xFF ++ frameScript 0x00)) = .next t ∧
      t.cardType = .none := by
  refine ⟨rfl, ?_, ?_⟩
  · obtain ⟨t, h, hp⟩ := of_answers test_initialize_p1
    exact ⟨t, h, by simp_all⟩
  · obtain ⟨t, h, hp⟩ := of_answers test_initialize_v6
    exact ⟨t, h, by simp_all⟩

/-- A link fault in CTRL_SYNC's wait. -/
theorem ctrlSync_faults :
    ∃ t, exec .ctrlSync (faultyWith .sd1 0 [0x00] 7) = .next t ∧
      (t.result == .linkFault 7 && t.cardType == .sd1 && t.trace == [.sel, .xfer 0xFF 0x00, .des]) = true :=
  of_answers (by decide +kernel)

theorem witness_LinkFaultAborts :
    (hostOpOf .ctrlSync ≠ none ∧ (∃ t, exec .ctrlSync (faultyWith .sd1 0 [0x00] 7) = .next t ∧ t.result = .linkFault 7) ∧
      ∀ o, Instr.ctrlSync ≠ .diskInitialize o) ∧
    (hostOpOf (.diskInitialize (operands 0 0)) ≠ none ∧
      ∃ t, exec (.diskInitialize (operands 0 0)) (faultyWith .sdc 0 [0xFF, 0xFF] 5) = .next t ∧ t.result = .linkFault 5) := by
  obtain ⟨t, h, hp⟩ := ctrlSync_faults
  obtain ⟨u, g, hq⟩ := initialize_faults
  exact ⟨⟨by decide, ⟨t, h, by simp_all⟩, nofun⟩, by decide, u, g, by simp_all⟩

theorem witness_FourResultCodes :
    hostOpOf (.diskStatus (operands 0 0)) ≠ none ∧ State.reset.params.linkFaults = false ∧
    ∃ t, exec (.diskStatus (operands 0 0)) State.reset = .next t := ⟨by decide, rfl, _, rfl⟩

/-- CTRL_SYNC's fault after one read of a busy card. -/
theorem witness_FaultsArePrefixes :
    ∃ t, exec .ctrlSync (faultyWith .sd1 0 [0x00] 7) = .next t ∧
      FaultTaken (faultyWith .sd1 0 [0x00] 7) t [.sel, .xfer 0xFF 0x00] 7 := by
  obtain ⟨t, h, hp⟩ := of_answers (i := .ctrlSync) (s := faultyWith .sd1 0 [0x00] 7)
    (p := fun t => t.trace == [.sel, .xfer 0xFF 0x00, .des] && t.cs == .deasserted && t.oracle == [] && t.draws == 2 &&
      t.result == .linkFault 7 && t.seq == .idle) (by decide +kernel)
  simp only [Bool.and_eq_true, beq_iff_eq] at hp
  obtain ⟨⟨⟨⟨⟨trace, cs⟩, oracle⟩, draws⟩, result⟩, seq⟩ := hp
  exact ⟨t, h, ⟨rfl, ⟨rfl, trivial⟩, by decide, trace, cs, oracle, draws, result, seq⟩⟩

theorem witness_AcceptedSequences :
    ∃ t, exec (.diskInitialize (operands 0 0)) (idleWith .none 0 sdcScript) = .next t ∧ t.result = .ok := by
  obtain ⟨t, h, hp⟩ := of_answers test_initialize_p1
  exact ⟨t, h, by simp_all⟩

/-- An opened write whose first block finds the card busy: the stop packet goes out (R209 b). -/
theorem opened_write :
    answers (.diskWrite (operands 8 2))
      (idleWith .mmc 1024 (frameScript 0x00 ++ List.replicate 500 0x00 ++ [0xFF, 0xFF, 0xFF]))
      (fun t => t.result == .error && t.trace == frameEvents [0x59, 0, 0, 0x10, 0, 0x01] 0x00 ++
        reads (List.replicate 500 0) ++ [.xfer 0xFF 0xFF, .xfer 0xFD 0xFF, .xfer 0xFF 0xFF, .des]) = true := by
  decide +kernel

theorem witness_StopPacketAlways :
    ((idleWith .sd2 1024 []).cardType ≠ .none ∧ 1 < (operands 8 2).count.toNat) ∧
    (∃ t, exec (.diskWrite (operands 8 2)) (idleWith .sd2 1024 (frameScript 0x00 ++ frameScript 0x00 ++ frameScript 0x20)) =
      .next t ∧ ∀ code, t.result ≠ .linkFault code) ∧
    ∃ t, exec (.diskWrite (operands 8 2))
      (idleWith .mmc 1024 (frameScript 0x00 ++ List.replicate 500 0x00 ++ [0xFF, 0xFF, 0xFF])) = .next t ∧
      ∀ code, t.result ≠ .linkFault code := by
  obtain ⟨t, ht, hp⟩ := of_answers test_write_h10
  obtain ⟨u, hu, hq⟩ := of_answers opened_write
  simp only [Bool.and_eq_true, beq_iff_eq] at hp hq
  exact ⟨by decide, ⟨t, ht, by rw [hp.1]; nofun⟩, u, hu, by rw [hq.1]; nofun⟩

/-- H1, a block read, and a multi-block read whose first block never comes. -/
theorem read_fails :
    answers (.diskRead (operands 0 2)) (idleWith .sdc 1024 (frameScript 0x00 ++ [0x09] ++ List.replicate 6 0xFF ++ [0x00]))
      (fun t => t.result == .error && t.done == 0) = true := by decide +kernel

theorem witness_ReadStoresWholeBlocks :
    ((idleWith .sdc 512 []).seq = .idle ∧ (idleWith .sdc 512 []).buf.cells.wf ∧ (operands 100 1).count.toNat * 512 ≤ 512 ∧
      ∃ t, exec (.diskRead (operands 100 1))
        (idleWith .sdc 512 (frameScript 0x00 ++ [0xFF, 0xFE] ++ pat 5 ++ [0xAB, 0xCD])) = .next t ∧ t.result = .ok) ∧
    ((operands 0 2).count.toNat * 512 ≤ 1024 ∧
      ∃ t, exec (.diskRead (operands 0 2))
        (idleWith .sdc 1024 (frameScript 0x00 ++ [0x09] ++ List.replicate 6 0xFF ++ [0x00])) = .next t ∧
        t.result = .error) := by
  obtain ⟨t, h, hp⟩ := of_answers test_read_h1
  obtain ⟨u, hu, hq⟩ := of_answers read_fails
  exact ⟨⟨rfl, by decide, by decide, t, h, by simp_all⟩, by decide, u, hu, by simp_all⟩

theorem witness_NothingElseMoves : ∃ t, exec .select State.reset = .next t := ⟨_, rfl⟩

theorem witness_BufferWrittenByReads :
    (∃ t, exec .select State.reset = .next t) ∧ (∀ o, Instr.select ≠ .diskRead o) ∧ (∀ a, Instr.select ≠ .cmd17 a) ∧
    (∀ a, Instr.select ≠ .cmd18 a) ∧ ∀ off n, Instr.select ≠ .receiveDatablock off n := ⟨⟨_, rfl⟩, nofun, nofun, nofun, nofun⟩

theorem witness_InvKept :
    ∃ s, s.Inv ∧ s.pending ≠ [] ∧ ∃ t, step s = .next t :=
  ⟨presented [.run ⟨.micro .select, []⟩ ⟨512, [(3, 7)]⟩],
    ⟨rfl, rfl, by decide, fun word buf h => by
      simp only [presented, List.mem_singleton, Request.run.injEq] at h
      obtain ⟨rfl, rfl⟩ := h
      decide⟩, by decide, _, rfl⟩

theorem witness_QuiescentKept :
    ∃ s, s.Quiescent ∧ s.pending ≠ [] ∧ ∃ t, step s = .next t :=
  ⟨presented [.run ⟨.hostOp, [1, 0, 0, 0, 0, 0, 0, 0, 0, 0, 0]⟩ ⟨0, []⟩, .powerCycle],
    ⟨rfl, rfl, rfl, rfl, by decide⟩, by decide, _, rfl⟩

end Sys2Proof.Tests
end

section
/-! The sector-address translator on a byte-addressed card (20_memory R36, R37). -/

namespace Sys2Proof.Machine

theorem translate_of_ne_sdc {ct : CardType} (h : ct ≠ .sdc) (s : Word) : translate ct s = s * 512 := by
  cases ct with
  | sdc => exact absurd rfl h
  | none | mmc | sd1 | sd2 => rfl

theorem translate_eq_shiftLeft {ct : CardType} (h : ct ≠ .sdc) (s : Word) : translate ct s = s <<< 9 :=
  (translate_of_ne_sdc h s).trans (BitVec.shiftLeft_eq_mul_twoPow s 9).symm

/-- The address keeps the low 23 bits of the sector and nothing else (R37). -/
theorem toNat_translate {ct : CardType} (h : ct ≠ .sdc) (s : Word) :
    (translate ct s).toNat = s.toNat % 2 ^ 23 * 512 := by
  rw [translate_of_ne_sdc h, BitVec.toNat_mul]
  exact Nat.mul_mod_mul_right 512 s.toNat (2 ^ 23)

theorem translate_eq_translate_iff {ct : CardType} (h : ct ≠ .sdc) (s s' : Word) :
    translate ct s = translate ct s' ↔ s.toNat % 2 ^ 23 = s'.toNat % 2 ^ 23 := by
  rw [← BitVec.toNat_inj, toNat_translate h, toNat_translate h, Nat.mul_left_inj (by decide)]

theorem translate_add_two_pow_23 {ct : CardType} (h : ct ≠ .sdc) (s : Word) :
    translate ct (s + 0x800000) = translate ct s := by
  have hmod : (s + 0x800000).toNat % 2 ^ 23 = s.toNat % 2 ^ 23 := by bv_omega
  exact (translate_eq_translate_iff h _ _).2 hmod

end Sys2Proof.Machine

namespace Sys2Proof

/-- Settles O31: the address is the low 23 bits of the sector, times 512. -/
theorem translatorWrap : Obligations.TranslatorWrap := fun _ s s' h =>
  ⟨Machine.translate_eq_shiftLeft h s, Machine.translate_add_two_pow_23 h s, Machine.translate_eq_translate_iff h s s'⟩

end Sys2Proof
end

section
/-! The two link primitives that exchange nothing (40_link R80, R81). -/

namespace Sys2Proof.Machine

/-- A micro-operation that only writes registers cannot be unwound: it ends in the changed state, its report recorded. -/
theorem microOperation_modify (report : Unit → MicroResult) (f : State → State) (s : State) :
    microOperation report (Link.modify f) s = .next { f s with microResult := report () } := rfl

theorem exec_select (s : State) :
    exec .select s = .next { s with cs := .asserted, trace := s.trace ++ [.sel], microResult := .unit } :=
  microOperation_modify _ _ s

theorem exec_deselect (s : State) : exec .deselect s = .next { s.deselected with microResult := .unit } :=
  microOperation_modify _ _ s

end Sys2Proof.Machine

namespace Sys2Proof

/-- Settles O8: both rows write `cs` and one event whatever `cs` was, and record `unit`. -/
theorem selectDeselectRows : Obligations.SelectDeselectRows := fun s =>
  ⟨⟨.unit, Machine.exec_select s⟩, .unit, Machine.exec_deselect s⟩

end Sys2Proof
end

section
/-! The command-frame composer as a row (41_command_framer R92, 30_encoding R50, R51). -/

namespace Sys2Proof.Machine

theorem composeFrame_bits (index : BitVec 6) (arg : Word) :
    (composeFrame index arg).bits = frameHead index ++ arg ++ frameTail index := by
  apply BitVec.eq_of_toNat_eq
  calc (composeFrame index arg).bits.toNat
    _ = (frameHead index ++ wordOfBytes (wordByte arg 3) (wordByte arg 2) (wordByte arg 1) (wordByte arg 0) ++
          frameTail index).toNat := frame_bits ..
    _ = (frameHead index ++ arg ++ frameTail index).toNat := by rw [wordOfBytes_wordByte]

theorem exec_frameGeneric (index : BitVec 6) (arg : Word) (s : State) :
    exec (.frameGeneric index arg) s = .next { s with frame := composeFrame index arg, microResult := .unit } :=
  microOperation_modify _ _ s

end Sys2Proof.Machine

namespace Sys2Proof

/-- Settles O22: the argument's four bytes, put side by side, are the argument; the index alone gives byte 5. -/
theorem composeFrame : Obligations.ComposeFrame := fun s index arg =>
  ⟨_, Machine.exec_frameGeneric index arg s, rfl, Machine.composeFrame_bits index arg⟩

end Sys2Proof
end

section
/-! Every value of `drive` is ignored (44_disk_facade R171): a host operation's body does the same whatever the latch
holds, so changing the operand changes the latch alone. -/

namespace Sys2Proof.Machine

variable {f : State → State} {d : Byte}

/-! The phases of disk_initialize (R120). -/

/-- A change that no phase of disk_initialize sees: unseen on the link, and apart from the phase. -/
structure UnseenByPhases (f : State → State) : Prop extends Unseen f where
  seq : ∀ s, (f s).seq = s.seq
  setSeq : ∀ q, (setSeq q).Ignores f

section
variable (h : UnseenByPhases f)
include h

theorem phaseReset_ignores : phaseReset.Ignores f :=
  .andThen (h.setTy _) (.andThen h.sel (.andThen (writeBytes_ignores h.toUnseen _) (h.setSeq _)))

theorem phaseIdleOrFail_ignores : phaseIdleOrFail.Ignores f :=
  .bind (sendCommand_ignores h.toUnseen _ _) fun _ => h.setSeq _

theorem cmd8_ignores : cmd8.Ignores f :=
  .bind (sendCommand_ignores h.toUnseen _ _) fun _ => .ite (.andThen (readTrail_ignores h.toUnseen) (.pure _)) (.pure _)

theorem phaseVoltageCheck_ignores : phaseVoltageCheck.Ignores f :=
  .bind (cmd8_ignores h) fun _ =>
    .ite (.reading (fun s => by simp only [h.trail]) fun _ => h.setSeq _) (h.setSeq _)

theorem phaseAdvancedInit_ignores : phaseAdvancedInit.Ignores f :=
  .bind (retryCommand_ignores h.toUnseen (sendCommand_ignores h.toUnseen _ _)) fun _ => h.setSeq _

theorem classifyLegacy_ignores (r : Byte) : (classifyLegacy r).Ignores f :=
  .ite (.andThen (h.setTy _) (h.setRc _)) (.andThen (h.setTy _) (h.setRc _))

theorem phaseLegacyInit_ignores : phaseLegacyInit.Ignores f :=
  .bind (sendCommand_ignores h.toUnseen _ _) fun r => .andThen (classifyLegacy_ignores h r)
    (.bind (.reading h.rc fun _ => retryCommand_ignores h.toUnseen (sendCommand_ignores h.toUnseen _ _)) fun _ =>
      .ite (h.setSeq _) (.andThen (h.setTy _) (h.setSeq _)))

theorem cmd16_ignores : cmd16.Ignores f :=
  .bind (sendCommand_ignores h.toUnseen _ _) fun _ => .ite (.pure _) (.andThen (h.setTy _) (.pure _))

theorem readOcr_ignores : readOcr.Ignores f :=
  .andThen (readTrail_ignores h.toUnseen) (.reading (fun s => by simp only [h.trail]) fun _ => h.setTy _)

theorem cmd58_ignores : cmd58.Ignores f :=
  .bind (sendCommand_ignores h.toUnseen _ _) fun _ => .ite (.andThen (readOcr_ignores h) (.pure _)) (.pure _)

theorem phaseCapacityCheck_ignores : phaseCapacityCheck.Ignores f :=
  have hlength : (Link.andThen cmd16 (Link.pure ())).Ignores f := .andThen (cmd16_ignores h) (.pure _)
  .reading h.ty fun _ => .andThen
    (.ite (.bind (cmd58_ignores h) fun _ => .ite hlength (.pure _)) hlength) (.reading h.ty fun _ => h.setSeq _)

theorem phaseOf_ignores (q : Seq) : (phaseOf q).Ignores f := by
  cases q with
  | reset => exact phaseReset_ignores h
  | idleOrFail => exact phaseIdleOrFail_ignores h
  | voltageCheck => exact phaseVoltageCheck_ignores h
  | advancedInit => exact phaseAdvancedInit_ignores h
  | legacyInit => exact phaseLegacyInit_ignores h
  | capacityCheck => exact phaseCapacityCheck_ignores h
  | ready | failed | idle | transfer => exact .pure ()

theorem nextPhase_ignores : nextPhase.Ignores f := .reading h.seq (phaseOf_ignores h)

/-- The chain ignores what its conclusion does. -/
theorem initializeCard_ignores (hend : phaseConclude.Ignores f) : initializeCard.Ignores f :=
  have hphase := nextPhase_ignores h
  .andThen hphase (.andThen hphase (.andThen hphase (.andThen hphase (.andThen hphase hend))))

end

/-! The `drive` latch and the bodies of the host operations. -/

/-- `drive` holding another value. -/
def State.withDrive (d : Byte) (s : State) : State := { s with drive := d }

theorem unseenByPhases_withDrive (d : Byte) : UnseenByPhases (State.withDrive d) :=
  { unseen_drive d with seq := fun _ => rfl, setSeq := fun _ _ => rfl }

theorem gated_ignores_withDrive {body : Link Result} (h : body.Ignores (State.withDrive d)) :
    (gated body).Ignores (State.withDrive d) := .reading (fun _ => rfl) fun _ => .ite h (.pure _)

theorem concluding_ignores_withDrive {m : Link Bool} (h : m.Ignores (State.withDrive d)) :
    (concluding m).Ignores (State.withDrive d) := .bind h fun _ => .andThen (unseen_drive d).des (.pure _)

theorem readTransfer_ignores_withDrive : readTransfer.Ignores (State.withDrive d) :=
  .andThen (.modify fun _ => rfl) (.reading (unseen_drive d).addr fun _ => .reading (unseen_drive d).count fun _ =>
    .ite (cmd17_ignores (unseen_drive d) _) (cmd18_ignores (unseen_drive d) _))

theorem writeTransfer_ignores_withDrive : writeTransfer.Ignores (State.withDrive d) :=
  have hpre (count : Word) : (Link.andThen (acmd23 count) (Link.pure ())).Ignores (State.withDrive d) :=
    .andThen (sendCommand_ignores (unseen_drive d) _ _) (.pure _)
  .andThen (.modify fun _ => rfl) (.reading (unseen_drive d).addr fun _ => .reading (unseen_drive d).count fun count =>
    .ite (cmd24_ignores (unseen_drive d) _) (.reading (fun _ => rfl) fun _ =>
      .andThen (.ite (hpre count) (.pure _)) (cmd25_ignores (unseen_drive d) _)))

/-- The operand check of the two transfers, past the gate (R175). -/
theorem counted_ignores_withDrive {m : Link Bool} (h : m.Ignores (State.withDrive d)) :
    (gated (Link.reading State.count fun count =>
      if count = 0 then Link.pure .paramError else concluding m)).Ignores (State.withDrive d) :=
  gated_ignores_withDrive (.reading (unseen_drive d).count fun _ => .ite (.pure _) (concluding_ignores_withDrive h))

theorem ioctlBody_ignores_withDrive : ioctlBody.Ignores (State.withDrive d) :=
  gated_ignores_withDrive (.reading (fun _ => rfl) fun _ => .ite
    (.andThen (unseen_drive d).sel (concluding_ignores_withDrive (waitReady_ignores (unseen_drive d) _))) (.pure _))

/-- No body of a host operation looks at `drive`, and none writes it. -/
theorem HostBody.ignores_withDrive {i : Instr} {op : HostOp} {first : Seq} {body : Link Result} {o : HostOperands}
    (h : HostBody i op first body o) : body.Ignores (State.withDrive d) := by
  cases h with
  | init => exact initializeCard_ignores (unseenByPhases_withDrive d) fun _ => rfl
  | status => exact gated_ignores_withDrive (.pure _)
  | read => exact counted_ignores_withDrive readTransfer_ignores_withDrive
  | write => exact counted_ignores_withDrive writeTransfer_ignores_withDrive
  | ioctl | ctrlSync => exact ioctlBody_ignores_withDrive
  | reserved5 | reserved6 | reserved7 => exact .pure _

/-! The operations around the bodies. -/

theorem settle_map_withDrive (r : LinkResult Result) :
    (r.map (State.withDrive d)).settle = r.settle.withDrive d := by
  cases r <;> rfl

theorem hostOperation_withDrive {op : HostOp} {first : Seq} {body : Link Result} {o : HostOperands} {s t : State}
    (hb : body.Ignores (State.withDrive d)) (h : hostOperation op first body o s = .next t) :
    hostOperation op first body { o with drive := d } s = .next (t.withDrive d) := by
  obtain ⟨hidle, rfl⟩ := hostOperation_next h
  have hrun : body { s.loadOperands op { o with drive := d } with seq := first } =
      (body { s.loadOperands op o with seq := first }).map (State.withDrive d) :=
    hb { s.loadOperands op o with seq := first }
  rw [hostOperation_idle hidle, hrun, settle_map_withDrive]

/-- The buffer check of U6 does not read `drive` either. -/
theorem transferOperation_withDrive {op : HostOp} {body : Link Result} {o : HostOperands} {s t : State}
    (hb : body.Ignores (State.withDrive d)) (h : transferOperation op body o s = .next t) :
    transferOperation op body { o with drive := d } s = .next (t.withDrive d) := by
  have hcheck : shortBuffer { o with drive := d } s = shortBuffer o s := rfl
  unfold transferOperation at h ⊢
  rw [hcheck]
  split at h
  · cases h
  · next hbuf => rw [if_neg hbuf, hostOperation_withDrive hb h]

end Sys2Proof.Machine

namespace Sys2Proof

open Machine

/-- Settles O42: loading another `drive` starts the same body from the state changed in that latch alone, and the body,
its end and the buffer check leave the change as it is. -/
theorem driveIgnored : Obligations.DriveIgnored := by
  rintro f (rfl | rfl | rfl | rfl | rfl | rfl | rfl | rfl) o d s t h
  · exact hostOperation_withDrive (HostBody.init o).ignores_withDrive h
  · exact hostOperation_withDrive (HostBody.status o).ignores_withDrive h
  · exact transferOperation_withDrive (HostBody.read o).ignores_withDrive h
  · exact transferOperation_withDrive (HostBody.write o).ignores_withDrive h
  · exact hostOperation_withDrive (HostBody.ioctl o).ignores_withDrive h
  · exact hostOperation_withDrive (HostBody.reserved5 o).ignores_withDrive h
  · exact hostOperation_withDrive (HostBody.reserved6 o).ignores_withDrive h
  · exact hostOperation_withDrive (HostBody.reserved7 o).ignores_withDrive h

end Sys2Proof
end

section
/-! A link fault ends the host operation and nothing else (60_exceptions R186). Every operation but disk_initialize runs
in the phase `transfer`, where its body writes neither `seq` nor `CardType`, so the fault finds both as the body did. -/

namespace Sys2Proof.Machine

theorem Result.isCode.ne_linkFault {r : Result} (h : r.isCode) (code : Nat) : r ≠ .linkFault code := by
  obtain rfl | rfl | rfl | rfl := h <;> nofun

theorem HostBody.first_eq_transfer {i : Instr} {op : HostOp} {first : Seq} {body : Link Result} {o : HostOperands}
    (h : HostBody i op first body o) (hi : ∀ p, i ≠ .diskInitialize p) : first = .transfer := by
  cases h with
  | init => exact absurd rfl (hi o)
  | status | read | write | ioctl | ctrlSync | reserved5 | reserved6 | reserved7 => rfl

/-- The phase and the card type are not among what a transfer changes. -/
theorem transferKept_phaseCard (stores : Bool) : TransferKept stores (Same fun s => (s.seq, s.cardType)) where
  comp := Same.composes _
  drawn _ := rfl
  exchanged _ _ _ := rfl
  poll _ _ := rfl
  frame _ _ := rfl
  resp _ _ := rfl
  sel _ := rfl
  des _ := rfl
  trail _ _ := rfl
  ty _ _ := rfl
  tok _ _ := rfl
  byte _ _ := rfl
  dresp _ _ := rfl
  done _ _ := rfl
  buf _ _ _ _ := rfl
  addr _ _ := rfl

/-- Outside the phases of disk_initialize a link fault does not cost the card type. -/
theorem takeLinkFault_cardType_of_not_initializing {s : State} (h : s.seq.initializing = false) (code : Nat) :
    (s.takeLinkFault code).cardType = s.cardType := by
  simp [h]

theorem settle_cardType {body : Link Result} {s : State} (hk : body.Keeps (Same fun s => (s.seq, s.cardType)))
    (hs : s.seq.initializing = false) : (body s).settle.cardType = s.cardType := by
  have hend := hk s
  cases hm : body s with
  | ok r t =>
    rw [hm] at hend
    exact congrArg Prod.snd hend
  | fault code t =>
    rw [hm] at hend
    obtain ⟨hseq, hct⟩ : t.seq = s.seq ∧ t.cardType = s.cardType := Prod.mk.inj hend
    exact (takeLinkFault_cardType_of_not_initializing (by rw [hseq, hs]) code).trans hct

/-- However it ends, a host operation besides disk_initialize leaves `CardType` as it is. -/
theorem HostBody.settle_cardType {i : Instr} {op : HostOp} {first : Seq} {body : Link Result} {o : HostOperands}
    (h : HostBody i op first body o) (hi : ∀ p, i ≠ .diskInitialize p) (s : State) :
    (body { s.loadOperands op o with seq := first }).settle.cardType = s.cardType := by
  obtain rfl := h.first_eq_transfer hi
  exact Machine.settle_cardType (h.keeps nofun fun _ => transferKept_phaseCard _) rfl

/-- A link fault taken by disk_initialize leaves no card type. -/
theorem HostBody.cardType_of_linkFault {p : HostOperands} {op : HostOp} {first : Seq} {body : Link Result}
    {o : HostOperands} (h : HostBody (.diskInitialize p) op first body o) {s : State} {code : Nat}
    (hr : (body { s.loadOperands op o with seq := first }).settle.result = .linkFault code) :
    (body { s.loadOperands op o with seq := first }).settle.cardType = .none := by
  cases h
  exact initializeCard_fault rfl hr

end Sys2Proof.Machine

namespace Sys2Proof

open Machine

/-- Settles O50: the body either ends with one of the four codes, having drawn only bytes, or is aborted; then what
`CardType` becomes is told by the phase the fault finds. -/
theorem linkFaultAborts : Obligations.LinkFaultAborts := by
  intro i s t hi h
  obtain ⟨op, hop⟩ := Option.ne_none_iff_exists'.mp hi
  obtain ⟨-, first, body, o, hb, rfl⟩ := exec_host hop h
  obtain ⟨ev, -, -, ⟨hcode, -, hran⟩ | ⟨code, hfault⟩⟩ := hb.settled s
  · exact .inl ⟨⟨ev, hran⟩, hcode.ne_linkFault⟩
  · refine .inr ⟨ev, code, hfault, ?_, fun hne => hb.settle_cardType hne s⟩
    rintro ⟨p, rfl⟩
    exact hb.cardType_of_linkFault hfault.result

end Sys2Proof
end

section
/-! The decoder and the encoder undo each other (30_encoding R49 to R69): one lemma per format says what the encoder's
bytes decode to, and one says what the bytes that the decoder accepts encode. -/

namespace Sys2Proof

/-! From the encoder to the decoder. -/

theorem decodeR1_append (bit : Bool) (x : BitVec 7) :
    decodeR1 (BitVec.ofBool bit ++ x) = if bit then .r1Pending x else .r1Valid x := by
  rw [decodeR1, top_bit_append, extract_low]

theorem decodeDresp_append (x : BitVec 3) : decodeDresp (x ++ 5#5) = .ok (.drespAccepted x) := by
  rw [decodeDresp, extract_low, extract_high]
  rfl

theorem decodeEcho_halves (x : BitVec 16) :
    decodeEcho (x.extractLsb' 8 8) (x.extractLsb' 0 8) 0x01 0xAA = .ok (.trailCmd8Echo x) := by
  have hx : x.extractLsb' 8 8 ++ x.extractLsb' 0 8 = x := append_extract (m := 8) (n := 8) x
  rw [decodeEcho, if_pos ⟨rfl, rfl⟩, hx]

theorem decodeOcr_ocrWord (high ccs : BitVec 1) (low : BitVec 30) :
    decodeOcr (ocrWord high ccs low) =
      if ccs.getLsbD 0 then .trailOcrCcsSet high low else .trailOcrCcsClear high low := by
  obtain ⟨hlow, -, hhigh⟩ := ocrWord_fields high ccs low
  rw [decodeOcr, ocrWord_ccs, hlow, hhigh]

theorem decode_ocrBytes (w : Word) : decode ⟨.trailCmd58, wordBytes w⟩ = .ok (decodeOcr w) := by
  show Except.ok (decodeOcr (wordOfBytes _ _ _ _)) = _
  rw [wordOfBytes_wordByte]

theorem decode_waitReadyBytes {n : BitVec 16} (h : isPollBound n = true) :
    decode ⟨.micro .waitReady, [0xFF, n.extractLsb' 8 8, n.extractLsb' 0 8]⟩ = .ok (.waitReady n) := by
  have hn : n.extractLsb' 8 8 ++ n.extractLsb' 0 8 = n := append_extract (m := 8) (n := 8) n
  simp [decode, decodeMicro, hn, h]

theorem decode_sendCommandBytes (cmd : Command) (arg : Word) :
    decode ⟨.micro .sendCommand, cmd.code :: wordBytes arg⟩ = .ok (.sendCommand cmd arg) := by
  obtain ⟨happ, hgap, hindex⟩ := code_fields cmd
  show decodeMicro .sendCommand [_, _, _, _, _] = _
  rw [decodeMicro, happ, hgap, hindex, wordOfBytes_wordByte]
  rfl

theorem decode_receiveBytes (off : BitVec 48) (length : BitVec 10) :
    decode (encode (.receiveDatablock off length)) = .ok (.receiveDatablock off length) := by
  obtain ⟨hgap, hlength⟩ := length_field length
  show decodeMicro .receiveDatablock [_, _, _, _, _, _, _, _] = _
  rw [decodeMicro, offOfBytes_offByte, hlength, if_neg (not_not.mpr hgap)]

theorem decode_transmitBytes (off : BitVec 48) (token : Token) :
    decode (encode (.transmitDatablock off token)) = .ok (.transmitDatablock off token) := by
  show decodeMicro .transmitDatablock [_, _, _, _, _, _, _] = _
  rw [decodeMicro, offOfBytes_offByte, tokenOfByte_byte]

theorem decode_encode {i : Instr} (h : WellFormed i = true) : decode (encode i) = .ok i := by
  cases i with
  | cmd0 | cmd1 | cmd8 | cmd12 | cmd16 | cmd17 | cmd18 | acmd23 | cmd24 | cmd25 | cmd55 | cmd58 =>
    exact decode_frame _ _
  | acmd41 hcs => cases hcs <;> exact decode_frame _ _
  | frameGeneric index arg =>
    have hname : isNamedFrame index arg = false := by simpa [WellFormed] using h
    exact (decode_frame index arg).trans (congrArg Except.ok (instrOfFrame_generic index arg hname))
  | tokenStartBlock | tokenStartMultiWrite | tokenStopTran | idleReady | ctrlSync => rfl
  | r1Valid x => exact congrArg Except.ok (decodeR1_append false x)
  | r1Pending x => exact congrArg Except.ok (decodeR1_append true x)
  | drespAccepted x => exact decodeDresp_append x
  | trailCmd8Echo x => exact decodeEcho_halves x
  | trailOcrCcsSet high low => exact (decode_ocrBytes _).trans (congrArg Except.ok (decodeOcr_ocrWord high 1 low))
  | trailOcrCcsClear high low => exact (decode_ocrBytes _).trans (congrArg Except.ok (decodeOcr_ocrWord high 0 low))
  | diskInitialize o | diskStatus o | diskRead o | diskWrite o | diskIoctl o | hostReserved5 o | hostReserved6 o
  | hostReserved7 o => exact decode_host _ o
  | select | deselect | xfer | readByte | writeByte => rfl
  | waitReady n => exact decode_waitReadyBytes h
  | sendCommand cmd arg => exact decode_sendCommandBytes cmd arg
  | receiveDatablock off length => exact decode_receiveBytes off length
  | transmitDatablock off token => exact decode_transmitBytes off token

/-! From the decoder to the encoder. -/

/-- The word is the encoding of the well-formed instruction. -/
def Encodes (i : Instr) (w : InstrWord) : Prop := WellFormed i = true ∧ encode i = w

theorem encodes_of_decodeFrame {b0 b1 b2 b3 b4 b5 : Byte} {i : Instr} (h : decodeFrame b0 b1 b2 b3 b4 b5 = .ok i) :
    Encodes i ⟨.frame, [b0, b1, b2, b3, b4, b5]⟩ := by
  unfold decodeFrame at h
  split at h
  · cases h
  · next hstart =>
    dsimp only at h
    split at h
    · cases h
    · next htail =>
      cases h
      refine ⟨wf_instrOfFrame _ _, ?_⟩
      rw [encode_instrOfFrame, frameBytes, wordBytes_wordOfBytes, frameHead_of_start (not_not.mp hstart),
        ← not_not.mp htail]
      rfl

theorem encodes_of_decodeToken {d : Direction} {b : Byte} {i : Instr} (h : decodeToken d b = .ok i) :
    Encodes i ⟨.token d, [b]⟩ := by
  by_cases hb : b = 0xFE
  · subst hb
    cases h
    exact ⟨rfl, rfl⟩
  · cases d with
    | toController => simp only [decodeToken, if_neg hb, reduceCtorEq] at h
    | toCard =>
      by_cases hc : b = 0xFC
      · subst hc
        cases h
        exact ⟨rfl, rfl⟩
      · simp only [decodeToken, if_neg hb, if_neg hc] at h
        split at h <;> cases h

theorem encodes_of_decodeDresp {b : Byte} {i : Instr} (h : decodeDresp b = .ok i) : Encodes i ⟨.dresp, [b]⟩ := by
  unfold decodeDresp at h
  split at h
  · next hb =>
    cases h
    have hb' : b.extractLsb' 5 3 ++ 5#5 = b := by
      rw [← show b.extractLsb' 0 5 = 5#5 from hb]
      exact append_extract (m := 3) (n := 5) b
    exact ⟨rfl, congrArg (fun x => InstrWord.mk .dresp [x]) hb'⟩
  · cases h

theorem encodes_of_decodeEcho {b0 b1 b2 b3 : Byte} {i : Instr} (h : decodeEcho b0 b1 b2 b3 = .ok i) :
    Encodes i ⟨.trailCmd8, [b0, b1, b2, b3]⟩ := by
  unfold decodeEcho at h
  split at h
  · next hb =>
    cases h
    obtain ⟨rfl, rfl⟩ := hb
    refine ⟨rfl, ?_⟩
    rw [encode, extract_high, extract_low]
  · cases h

theorem encodes_decodeOcr (b0 b1 b2 b3 : Byte) :
    Encodes (decodeOcr (wordOfBytes b0 b1 b2 b3)) ⟨.trailCmd58, [b0, b1, b2, b3]⟩ := by
  have hw := ocrWord_of_fields (wordOfBytes b0 b1 b2 b3)
  rw [extract_bit _ 30] at hw
  unfold decodeOcr
  cases hccs : (wordOfBytes b0 b1 b2 b3).getLsbD 30 <;> rw [hccs] at hw
  · exact ⟨rfl, congrArg (InstrWord.mk .trailCmd58) ((congrArg wordBytes hw).trans (wordBytes_wordOfBytes ..))⟩
  · exact ⟨rfl, congrArg (InstrWord.mk .trailCmd58) ((congrArg wordBytes hw).trans (wordBytes_wordOfBytes ..))⟩

theorem encodes_of_decodeHost {bytes : List Byte} {i : Instr} (h : decodeHost bytes = .ok i) :
    Encodes i ⟨.hostOp, bytes⟩ := by
  unfold decodeHost at h
  split at h
  · split at h
    · cases h
    · next hop =>
      cases h
      refine ⟨wf_instrOfOp _ _, ?_⟩
      rw [encode_instrOfOp, hostBytes, opByte_of_small (not_not.mp hop), wordBytes_wordOfBytes, wordBytes_wordOfBytes]
      rfl
  · cases h

theorem encodes_of_decodeMicro {m : MicroOp} {bytes : List Byte} {i : Instr} (h : decodeMicro m bytes = .ok i) :
    Encodes i ⟨.micro m, bytes⟩ := by
  unfold decodeMicro at h
  split at h
  · cases h; exact ⟨rfl, rfl⟩
  · cases h; exact ⟨rfl, rfl⟩
  · cases h; exact ⟨rfl, rfl⟩
  · split at h
    · next hb => cases h; exact ⟨rfl, by rw [hb]; rfl⟩
    · cases h
  · cases h; exact ⟨rfl, rfl⟩
  · next b n1 n0 =>
    split at h
    · cases h
    · next hb =>
      split at h
      · next hn =>
        cases h
        exact ⟨hn, by rw [encode, extract_high, extract_low, not_not.mp hb]⟩
      · cases h
  · next c a3 a2 a1 a0 =>
    split at h
    · cases h
    · next hc =>
      cases h
      exact ⟨rfl, by rw [encode, code_of_byte c (by simpa using hc), wordBytes_wordOfBytes]⟩
  · next o5 o4 o3 o2 o1 o0 l1 l0 =>
    split at h
    · cases h
    · next hl =>
      cases h
      have hl1 : (0 : BitVec 6) ++ l1.extractLsb' 0 2 = l1 := by
        rw [← not_not.mp hl]
        exact append_extract (m := 6) (n := 2) l1
      exact ⟨rfl, by rw [encode, offBytes_offOfBytes, extract_high, extract_low, hl1]; rfl⟩
  · split at h
    · next ht =>
      cases h
      exact ⟨rfl, by rw [encode, offBytes_offOfBytes, byte_of_tokenOfByte ht]; rfl⟩
    · cases h
  · cases h

theorem encodes_of_decode {w : InstrWord} {i : Instr} (h : decode w = .ok i) : Encodes i w := by
  obtain ⟨fmt, bytes⟩ := w
  unfold decode at h
  split at h
  · next hf hb => cases hf; cases hb; exact encodes_of_decodeFrame h
  · next hf hb => cases hf; cases hb; exact encodes_of_decodeToken h
  · next hf hb =>
    cases hf; cases hb
    split at h
    · next hb => cases h; exact ⟨rfl, by rw [hb]; rfl⟩
    · cases h
  · next hf hb => cases hf; cases hb; cases h; exact decodeR1_encode _
  · next hf hb =>
    cases hf; cases hb
    split at h
    · next hb => cases h; exact ⟨rfl, by rw [hb]; rfl⟩
    · cases h
  · next hf hb => cases hf; cases hb; exact encodes_of_decodeDresp h
  · next hf hb => cases hf; cases hb; exact encodes_of_decodeEcho h
  · next hf hb => cases hf; cases hb; cases h; exact encodes_decodeOcr ..
  · next hf => cases hf; exact encodes_of_decodeHost h
  · next hf hb =>
    cases hf; cases hb
    split at h
    · next hb => cases h; exact ⟨rfl, by rw [hb]; rfl⟩
    · cases h
  · next hf => cases hf; exact encodes_of_decodeMicro h
  · cases h

/-- Settles O2, format by format. -/
theorem decodeOfEncode : Obligations.DecodeOfEncode := fun _ => decode_encode

/-- Settles O3, format by format: the fields cut out of a word, put side by side, are the word. -/
theorem encodeOfDecode : Obligations.EncodeOfDecode := fun _ _ => encodes_of_decode

/-- Settles O1: nineteen closed words. -/
theorem specWordsDecode : Obligations.SpecWordsDecode := by
  unfold Obligations.SpecWordsDecode
  decide

end Sys2Proof
end

section
/-! What no instruction changes, and which instructions write what (10_state R4, R11, R19; 20_memory R30; 40_link R87;
70_reset R210, R211): one relation between the states before and after, kept by every primitive change. -/

namespace Sys2Proof.Machine

variable {R : State → State → Prop} {stores : Bool}

/-- The operand latches of R14. -/
def State.latches (s : State) : HostOp × HostOperands := (s.op, ⟨s.drive, s.sector, s.count, s.ioctlCmd⟩)

/-- The primitive changes of every body and every row. -/
structure BodyKept (stores : Bool) (R : State → State → Prop) : Prop extends TransferKept stores R where
  rc : ∀ s c, R s { s with rc := c }
  iter : ∀ s n, R s { s with iter := n }
  seq : ∀ s q, R s { s with seq := q }
  cardType : ∀ s ct, R s { s with cardType := ct }

theorem BodyKept.init (h : BodyKept stores R) : InitKept R :=
  { h with seq := fun s q _ => h.seq s q }

/-- A relation that looks at the parameters, the queue, the latches and the buffer only is kept if storing a byte keeps
it: no other change touches any of them. -/
theorem BodyKept.of_eq (hc : Composes R)
    (h : ∀ s t, t.params = s.params → t.pending = s.pending → t.latches = s.latches → t.buf = s.buf → R s t)
    (hbuf : stores = true → ∀ s off v, R s (s.setBufByte off v)) : BodyKept stores R where
  comp := hc
  drawn _ := h _ _ rfl rfl rfl rfl
  exchanged _ _ _ := h _ _ rfl rfl rfl rfl
  poll _ _ := h _ _ rfl rfl rfl rfl
  frame _ _ := h _ _ rfl rfl rfl rfl
  resp _ _ := h _ _ rfl rfl rfl rfl
  sel _ := h _ _ rfl rfl rfl rfl
  des _ := h _ _ rfl rfl rfl rfl
  trail _ _ := h _ _ rfl rfl rfl rfl
  ty _ _ := h _ _ rfl rfl rfl rfl
  tok _ _ := h _ _ rfl rfl rfl rfl
  byte _ _ := h _ _ rfl rfl rfl rfl
  dresp _ _ := h _ _ rfl rfl rfl rfl
  done _ _ := h _ _ rfl rfl rfl rfl
  buf := hbuf
  addr _ _ := h _ _ rfl rfl rfl rfl
  rc _ _ := h _ _ rfl rfl rfl rfl
  iter _ _ := h _ _ rfl rfl rfl rfl
  seq _ _ := h _ _ rfl rfl rfl rfl
  cardType _ _ := h _ _ rfl rfl rfl rfl

theorem HostBody.keeps_of_bodyKept {i : Instr} {op : HostOp} {first : Seq} {body : Link Result} {o : HostOperands}
    (h : HostBody i op first body o) (hk : BodyKept (storesBuffer i) R) : body.Keeps R :=
  h.keeps (fun _ => hk.init) fun _ => hk.toTransferKept

theorem bodyKept_latches : BodyKept stores (Same State.latches) :=
  .of_eq (Same.composes _) (fun _ _ _ _ hl _ => hl) fun _ _ _ _ => rfl

/-- A host operation returns with its operands in the latches (R14; log 28). -/
theorem HostBody.settle_latches {i : Instr} {op : HostOp} {first : Seq} {body : Link Result} {o : HostOperands}
    (h : HostBody i op first body o) (s : State) :
    (body { s.loadOperands op o with seq := first }).settle.latches = (op, o) :=
  settle_same State.latches (h.keeps_of_bodyKept bodyKept_latches) (fun _ _ => rfl) fun _ _ => rfl

/-- What an instruction may do to the parameters, the queue and the buffer: of the three it can only store to the
buffer, and that keeps the size and the canonical form. -/
structure Undisturbed (stores : Bool) (s t : State) : Prop where
  params : t.params = s.params
  pending : t.pending = s.pending
  size : t.buf.size = s.buf.size
  canonical : s.buf.cells.wf → t.buf.cells.wf
  buffer : stores = false → t.buf = s.buf

theorem Undisturbed.of_eq {s t : State} (hp : t.params = s.params) (hq : t.pending = s.pending)
    (hb : t.buf = s.buf) : Undisturbed stores s t :=
  ⟨hp, hq, congrArg _ hb, fun h => hb ▸ h, fun _ => hb⟩

theorem Undisturbed.trans {s t u : State} (h : Undisturbed stores s t) (h' : Undisturbed stores t u) :
    Undisturbed stores s u :=
  ⟨h'.params.trans h.params, h'.pending.trans h.pending, h'.size.trans h.size, fun hs => h'.canonical (h.canonical hs),
    fun hb => (h'.buffer hb).trans (h.buffer hb)⟩

theorem bodyKept_undisturbed : BodyKept stores (Undisturbed stores) :=
  .of_eq ⟨fun _ => .of_eq rfl rfl rfl, fun _ _ _ => .trans⟩ (fun _ _ hp hq _ hb => .of_eq hp hq hb) fun hst _ off v =>
    ⟨rfl, rfl, rfl, fun h => Memory.write_wf h off v, fun hno => absurd hst (by simp [hno])⟩

theorem settle_undisturbed {s : State} {r : LinkResult Result} (h : Undisturbed stores s r.state) :
    Undisturbed stores s r.settle := by
  cases r <;> exact h.trans (.of_eq rfl rfl rfl)

theorem HostBody.undisturbed {i : Instr} {op : HostOp} {first : Seq} {body : Link Result} {o : HostOperands}
    (h : HostBody i op first body o) (s : State) :
    Undisturbed (storesBuffer i) s (body { s.loadOperands op o with seq := first }).settle := by
  have hload : Undisturbed (storesBuffer i) s { s.loadOperands op o with seq := first } := .of_eq rfl rfl rfl
  exact hload.trans (settle_undisturbed (h.keeps_of_bodyKept bodyKept_undisturbed _))

theorem RowRan.undisturbed {i : Instr} {s t : State} (h : RowRan i s t) : Undisturbed (storesBuffer i) s t :=
  h.keeps bodyKept_undisturbed.toRowKept (fun _ _ => .of_eq rfl rfl rfl) (fun _ _ => .of_eq rfl rfl rfl) fun _ _ =>
    .of_eq rfl rfl rfl

theorem exec_undisturbed {i : Instr} {s t : State} (h : exec i s = .next t) : Undisturbed (storesBuffer i) s t := by
  cases hop : hostOpOf i with
  | none => exact (exec_row hop h).undisturbed
  | some op =>
    obtain ⟨-, first, body, o, hb, rfl⟩ := exec_host hop h
    exact hb.undisturbed s

/-! The link. -/

/-- A link fault taken is a run closed by Deselect, with one more answer drawn. -/
theorem FaultTaken.link {s t : State} {ev : List Event} {code : Nat} (h : FaultTaken s t ev code) :
    t.trace = s.trace ++ (ev ++ [.des]) ∧ t.cs = csAfter s.cs (ev ++ [.des]) ∧
      t.draws = s.draws + exchanges (ev ++ [.des]) + 1 :=
  ⟨h.trace, by rw [h.cs, csAfter_append]; rfl, by simpa using h.draws⟩

/-- What a host operation did to the link: within its bound, every exchange on a selected card. -/
theorem exec_host_link {i : Instr} {op : HostOp} {s t : State} (hi : hostOpOf i = some op) (h : exec i s = .next t) :
    ∃ ev, t.trace = s.trace ++ ev ∧ t.cs = csAfter s.cs ev ∧ exchanges ev ≤ maxExchanges op t.count ∧
      selectedThroughout s.cs ev = true ∧ (ev = [] ∨ csAfter s.cs ev = .deasserted) ∧
      (t.draws = s.draws + exchanges ev ∨ t.draws = s.draws + exchanges ev + 1) := by
  obtain ⟨-, first, body, o, hb, rfl⟩ := exec_host hi h
  have hcount : (body { s.loadOperands op o with seq := first }).settle.count = o.count :=
    congrArg (fun l => l.2.count) (hb.settle_latches s)
  rw [hcount]
  obtain ⟨ev, hn, hsel, ⟨-, hend, hran⟩ | ⟨code, hfault⟩⟩ := hb.settled s
  · exact ⟨ev, hran.trace, hran.cs, hn, hsel, hend, .inl hran.draws⟩
  · obtain ⟨htrace, hcs, hdraws⟩ := hfault.link
    exact ⟨ev ++ [.des], htrace, hcs, by simpa using hn, by simp [hsel, selectedThroughout],
      .inr (by simp [csAfter]), .inr hdraws⟩

theorem exec_link {i : Instr} {s t : State} (h : exec i s = .next t) :
    ∃ ev, t.trace = s.trace ++ ev ∧ t.cs = csAfter s.cs ev ∧
      (t.draws = s.draws + exchanges ev ∨ t.draws = s.draws + exchanges ev + 1) := by
  cases hop : hostOpOf i with
  | none => exact (exec_row hop h).link
  | some op =>
    obtain ⟨ev, htrace, hcs, -, -, -, hdraws⟩ := exec_host_link hop h
    exact ⟨ev, htrace, hcs, hdraws⟩

/-! The phase and the card type. -/

/-- A row run between two host operations leaves the controller Idle and the card type as it is: no row writes either,
and the fault it may take finds no phase of disk_initialize. -/
theorem RowRan.idle_cardType {i : Instr} {s t : State} (h : RowRan i s t) (hs : s.seq = .idle) :
    t.seq = .idle ∧ t.cardType = s.cardType := by
  obtain ⟨α, m, report, s0, hb, h0, rfl⟩ := h
  have hk := hb.keeps _ (transferKept_phaseCard _).toRowKept s0
  have hs0 : (s0.seq, s0.cardType) = (.idle, s.cardType) := by
    rcases h0 with rfl | ⟨bytes, rfl⟩ <;> simp [hs]
  cases hm : m s0 with
  | ok a t =>
    rw [hm] at hk
    exact Prod.mk.inj (hk.trans hs0)
  | fault code t =>
    rw [hm] at hk
    obtain ⟨hseq, hct⟩ := Prod.mk.inj (hk.trans hs0)
    exact ⟨rfl, (takeLinkFault_cardType_of_not_initializing (congrArg Seq.initializing hseq) code).trans hct⟩

theorem settle_seq (r : LinkResult Result) : r.settle.seq = .idle := by
  cases r <;> rfl

theorem exec_idle {i : Instr} {s t : State} (hs : s.seq = .idle) (h : exec i s = .next t) : t.seq = .idle := by
  cases hop : hostOpOf i with
  | none => exact ((exec_row hop h).idle_cardType hs).1
  | some op =>
    obtain ⟨-, first, body, o, -, rfl⟩ := exec_host hop h
    exact settle_seq _

theorem exec_cardType {i : Instr} {s t : State} (hs : s.seq = .idle) (h : exec i s = .next t)
    (hi : ∀ o, i ≠ .diskInitialize o) : t.cardType = s.cardType := by
  cases hop : hostOpOf i with
  | none => exact ((exec_row hop h).idle_cardType hs).2
  | some op =>
    obtain ⟨-, first, body, o, hb, rfl⟩ := exec_host hop h
    exact hb.settle_cardType hi s

/-- disk_initialize ends as its trace says, or by a link fault that leaves no card type (R130, R186). -/
theorem exec_diskInitialize_next {o : HostOperands} {s t : State} (h : exec (.diskInitialize o) s = .next t) :
    (∃ ev, InitializeTrace ev t.cardType ∧ Ran s t (ev ++ [.des]) ∧
        t.result = if t.cardType = .none then .notReady else .ok) ∨
      ∃ code, t.result = .linkFault code ∧ t.cardType = .none := by
  obtain ⟨-, rfl⟩ := hostOperation_next h
  have hw := initializeCard_wp { s.loadOperands .diskInitialize o with seq := .reset } rfl
  unfold Link.wp at hw
  cases hm : initializeCard { s.loadOperands .diskInitialize o with seq := .reset } with
  | ok r t =>
    rw [hm] at hw
    obtain ⟨ev, ct, hev, hran, rfl, rfl⟩ := hw
    exact .inl ⟨ev, hev, (hran.of_start (s := s) rfl rfl rfl rfl rfl).of_eq rfl rfl rfl rfl rfl, rfl⟩
  | fault code t =>
    have hfault := initializeCard_fault (s1 := { s.loadOperands .diskInitialize o with seq := .reset }) rfl
      (code := code)
    rw [hm] at hfault
    exact .inr ⟨code, rfl, hfault rfl⟩

theorem diskInitialize_ok_iff {o : HostOperands} {s t : State} (h : exec (.diskInitialize o) s = .next t) :
    t.result = .ok ↔ t.cardType ≠ .none := by
  rcases exec_diskInitialize_next h with ⟨ev, -, -, hr⟩ | ⟨code, hr, hct⟩
  · rw [hr]
    split <;> simp_all
  · simp [hr, hct]

theorem storesBuffer_eq_false {i : Instr} (h1 : ∀ o, i ≠ .diskRead o) (h2 : ∀ a, i ≠ .cmd17 a)
    (h3 : ∀ a, i ≠ .cmd18 a) (h4 : ∀ off n, i ≠ .receiveDatablock off n) : storesBuffer i = false := by
  unfold storesBuffer
  split
  · exact absurd rfl (h1 _)
  · exact absurd rfl (h2 _)
  · exact absurd rfl (h3 _)
  · exact absurd rfl (h4 _ _)
  · rfl

end Sys2Proof.Machine

namespace Sys2Proof

open Machine

/-- Settles O45: the bounds of the loops add up (Laws/Within), and a link fault draws one answer more. -/
theorem hostOperationBounds : Obligations.HostOperationBounds := by
  intro i op s t hi h
  obtain ⟨ev, htrace, -, hn, -, -, hdraws⟩ := exec_host_link hi h
  exact ⟨ev, htrace, hn, by omega⟩

/-- Settles O47: the trace of a host operation is empty or ends deselected, a link fault's Deselect included. -/
theorem selectedThroughout : Obligations.SelectedThroughout := by
  intro i s t hi hcs h
  obtain ⟨op, hop⟩ := Option.ne_none_iff_exists'.mp hi
  obtain ⟨ev, htrace, hend, -, hsel, hclosed, -⟩ := exec_host_link hop h
  have hafter : csAfter .deasserted ev = .deasserted := by
    rcases hclosed with rfl | hclosed
    · rfl
    · rwa [hcs] at hclosed
  rw [hcs] at hend hsel
  exact ⟨hend.trans hafter, ev, htrace, hsel, hafter⟩

/-- Settles O48. -/
theorem cardTypeWrittenByInitialize : Obligations.CardTypeWrittenByInitialize := fun _ _ _ => exec_cardType

/-- Settles O49: only disk_initialize changes the card type, and its result says which type it leaves. -/
theorem modeChanges : Obligations.ModeChanges := by
  intro i s t hs h
  by_cases hi : ∃ o, i = .diskInitialize o
  · obtain ⟨o, rfl⟩ := hi
    have hok := diskInitialize_ok_iff h
    exact ⟨fun hct => ⟨⟨o, rfl⟩, hok.mpr hct.2⟩, fun hct => ⟨⟨o, rfl⟩, fun hr => hok.mp hr hct.2⟩, fun _ => hok⟩
  · have hct := exec_cardType hs h fun o ho => hi ⟨o, ho⟩
    rw [hct]
    exact ⟨fun hne => absurd hne.1 hne.2, fun hne => absurd hne.2 hne.1, fun ho => absurd ho hi⟩

/-- Settles O56. -/
theorem nothingElseMoves : Obligations.NothingElseMoves := fun _ _ _ h =>
  ⟨(exec_undisturbed h).params, (exec_undisturbed h).pending, (exec_undisturbed h).size, exec_link h⟩

/-- Settles O57: `storesBuffer` names the four rows that store. -/
theorem bufferWrittenByReads : Obligations.BufferWrittenByReads := fun _ _ _ h h1 h2 h3 h4 =>
  (exec_undisturbed h).buffer (storesBuffer_eq_false h1 h2 h3 h4)

end Sys2Proof
end

section
/-! The environment's answers and the rows that read a given answer (00_scope R7; 30_encoding R54 to R64; 40_link R82 to
R84): the card's answers are at hand, so each row is evaluated to its next state. -/

namespace Sys2Proof.Machine

/-! One exchange. -/

theorem xfer_of_byte {s : State} {rx : Byte} (h : s.nextAnswer = .byte rx) (tx : Byte) :
    xfer tx s = .ok rx { s.drawn with trace := s.trace ++ [.xfer tx rx] } := by
  simp only [xfer, h]

theorem xfer_of_fault {s : State} {code : Nat} (h : s.nextAnswer = .fault code) (tx : Byte) :
    xfer tx s = .fault code s.drawn := by
  simp only [xfer, h]

theorem writeByte_of_byte {s : State} {rx : Byte} (h : s.nextAnswer = .byte rx) (b : Byte) :
    writeByte b s = .ok () { s.drawn with trace := s.trace ++ [.xfer b rx] } := by
  simp only [writeByte, Link.andThen, Link.bind, xfer_of_byte h, Link.pure]

theorem writeByte_of_fault {s : State} {code : Nat} (h : s.nextAnswer = .fault code) (b : Byte) :
    writeByte b s = .fault code s.drawn := by
  simp only [writeByte, Link.andThen, Link.bind, xfer_of_fault h]

theorem microOperation_of_ok {α : Type} {report : α → MicroResult} {m : Link α} {s t : State} {a : α}
    (h : m s = .ok a t) : microOperation report m s = .next { t with microResult := report a } := by
  rw [microOperation, h, LinkResult.record]

theorem microOperation_of_fault {α : Type} {report : α → MicroResult} {m : Link α} {s t : State} {code : Nat}
    (h : m s = .fault code t) :
    microOperation report m s = .next { t.takeLinkFault code with microResult := .linkFault code } := by
  rw [microOperation, h, LinkResult.record]

/-! The recognizers, each on the byte it reads: what it finds is told by the condition of R16. -/

theorem recognize_r1Poll (b : Byte) (s : State) : recognize [b] r1Poll s =
    .next { s.answered b with poll := s.poll + 1, resp := b, microResult := .bool (r1IsValid b) } := rfl

theorem receiveToken_eq (b : Byte) (s : State) : receiveToken b s =
    .next { s.answered b with poll := s.poll + 1, tok := b, microResult := .bool (isStartBlock b) } := rfl

theorem receiveIdle_eq (b : Byte) (s : State) : receiveIdle b s =
    .next { s.answered b with poll := s.poll + 1, microResult := .bool (isIdle b) } := rfl

theorem receiveDresp_eq (b : Byte) (s : State) : receiveDresp b s =
    .next { s.answered b with dresp := b, microResult := .bool (dataAccepted b) } := rfl

theorem receiveEcho_eq (b0 b1 b2 b3 : Byte) (s : State) : receiveEcho b0 b1 b2 b3 s =
    .next { s.trailed b0 b1 b2 b3 with microResult := .bool (echoOk ⟨b0, b1, b2, b3⟩) } :=
  microOperation_of_ok (by
    simp only [Link.andThen, Link.bind, readTrail_answering]
    rfl)

/-- The OCR (R56): the condition is bit 6 of the first byte. -/
theorem recognizeOcr_eq {w : Word} {t0 t1 t2 t3 : Byte} (h : wordBytes w = [t0, t1, t2, t3]) (s : State) :
    recognizeOcr w s = .next { s.trailed t0 t1 t2 t3 with
      ty := if t0.getLsbD 6 then .sdc else .sd2, microResult := .bool (t0.getLsbD 6) } := by
  have hread : Link.andThen readOcr (Link.reading (fun s => ccs s.trail) Link.pure) (s.answering [t0, t1, t2, t3]) =
      .ok (t0.getLsbD 6) { s.trailed t0 t1 t2 t3 with ty := if t0.getLsbD 6 then .sdc else .sd2 } := by
    simp only [Link.andThen, Link.bind, readOcr_answering]
    rfl
  rw [recognizeOcr, recognize, h]
  exact microOperation_of_ok hread

theorem wordBytes_of_append {t0 t1 t2 t3 : Byte} {w : Word} (h : t0 ++ t1 ++ t2 ++ t3 = w) :
    wordBytes w = [t0, t1, t2, t3] := h ▸ wordBytes_wordOfBytes t0 t1 t2 t3

end Sys2Proof.Machine

namespace Sys2Proof

open Machine

/-- Settles O7: the script's head is the answer, and a fault needs LINK_FAULTS. -/
theorem answersAreTheEnvironments : Obligations.AnswersAreTheEnvironments := by
  refine ⟨fun s b rest h => ?_, fun s code rest h hlf => ?_, fun s h => State.nextAnswer_byte h⟩
  · simp only [State.nextAnswer, h]
  · simp only [State.nextAnswer, h, hlf, if_true]

/-- Settles O9. -/
theorem exchangeRows : Obligations.ExchangeRows := fun _ _ h =>
  ⟨fun tx => microOperation_of_ok (xfer_of_byte h tx), microOperation_of_ok (xfer_of_byte h Config.fill), fun b =>
    microOperation_of_ok (writeByte_of_byte h b)⟩

/-- Settles O10: the fault is drawn without an event, then taken. -/
theorem exchangeFaultRows : Obligations.ExchangeFaultRows := by
  rintro s code h i (rfl | ⟨tx, rfl⟩ | ⟨b, rfl⟩)
  · exact microOperation_of_fault (xfer_of_fault h Config.fill)
  · exact microOperation_of_fault (xfer_of_fault h tx)
  · exact microOperation_of_fault (writeByte_of_fault h b)

/-- Settles O24: each recognizer on its row's byte, where the condition of R16 is known. -/
theorem receivedByteRows : Obligations.ReceivedByteRows := by
  refine fun s => ⟨fun status => ?_, fun ignored => ?_, receiveIdle_eq 0xFF s, receiveToken_eq 0xFE s,
    fun ignored => ?_⟩
  · refine (recognize_r1Poll (0#1 ++ status) s).trans ?_
    rw [show r1IsValid (0#1 ++ status) = true from r1IsValid_append false status]
  · refine (recognize_r1Poll (1#1 ++ ignored) s).trans ?_
    rw [show r1IsValid (1#1 ++ ignored) = false from r1IsValid_append true ignored]
  · refine (receiveDresp_eq (ignored ++ 5#5) s).trans ?_
    rw [dataAccepted_append]

/-- Settles O25: the echo does not look at its first two bytes, and bit 30 of the OCR is bit 6 of its first byte. -/
theorem trailRows : Obligations.TrailRows := by
  refine fun s => ⟨fun b0 b1 => ?_, fun high low t0 t1 t2 t3 h => ?_, fun high low t0 t1 t2 t3 h => ?_⟩
  · show receiveEcho ((b0 ++ b1).extractLsb' 8 8) ((b0 ++ b1).extractLsb' 0 8) 0x01 0xAA s = _
    rw [extract_high, extract_low, receiveEcho_eq]
    rfl
  · refine (recognizeOcr_eq (wordBytes_of_append h) s).trans ?_
    rw [show t0.getLsbD 6 = true from ocrWord_first h.symm]
    rfl
  · refine (recognizeOcr_eq (wordBytes_of_append h) s).trans ?_
    rw [show t0.getLsbD 6 = false from ocrWord_first h.symm]
    rfl

end Sys2Proof
end

section
/-! The step (10_state R18, R19; 70_reset R200, R201; 30_encoding R57 to R64, R69): what each request does, and the two
invariants, which hold at reset and which every step keeps. -/

namespace Sys2Proof.Machine

/-! The request presented next. -/

theorem step_of_decode {s : State} {word : InstrWord} {buf : HostBuffer} {rest : List Request} {i : Instr}
    (h : s.pending = .run word buf :: rest) (hd : decode word = .ok i) : step s = exec i (s.latched buf rest) := by
  simp only [step, h, hd]

theorem step_of_unlisted {s : State} {word : InstrWord} {buf : HostBuffer} {rest : List Request} {e : DecodeError}
    (h : s.pending = .run word buf :: rest) (hd : decode word = .error e) :
    step s = execUnlisted e word.bytes (s.latched buf rest) := by
  simp only [step, h, hd]

theorem step_of_powerCycle {s : State} {rest : List Request} (h : s.pending = .powerCycle :: rest) :
    step s = if s.seq = .idle then .next (State.powerCycled { s with pending := rest })
      else .refused .resetDuringOperation := by
  simp only [step, h]

/-! Why a word of each format is no row. -/

theorem decode_token_error {b : Byte} {e : DecodeError} (h : decode ⟨.token .toController, [b]⟩ = .error e) :
    e = .notStart ∧ isStartBlock b = false := by
  by_cases hb : b = 0xFE
  · subst hb
    cases h
  · have hd : decode ⟨.token .toController, [b]⟩ = .error .notStart := if_neg hb
    rw [hd] at h
    cases h
    exact ⟨rfl, beq_eq_false_iff_ne.mpr hb⟩

theorem decode_idle_error {b : Byte} {e : DecodeError} (h : decode ⟨.idle, [b]⟩ = .error e) :
    e = .notIdle ∧ isIdle b = false := by
  by_cases hb : b = 0xFF
  · subst hb
    cases h
  · have hd : decode ⟨.idle, [b]⟩ = .error .notIdle := if_neg hb
    rw [hd] at h
    cases h
    exact ⟨rfl, beq_eq_false_iff_ne.mpr hb⟩

/-- R60's mask is the low five bits. -/
theorem dataAccepted_iff (b : Byte) : dataAccepted b = true ↔ b.extractLsb' 0 5 = 5 := by
  revert b
  decide

theorem decode_dresp_error {b : Byte} {e : DecodeError} (h : decode ⟨.dresp, [b]⟩ = .error e) :
    e = .notAccepted ∧ dataAccepted b = false := by
  change decodeDresp b = _ at h
  unfold decodeDresp at h
  split at h
  · cases h
  · next hb =>
    cases h
    exact ⟨rfl, Bool.eq_false_iff.mpr (mt (dataAccepted_iff b).mp hb)⟩

theorem decode_echo_error {b0 b1 b2 b3 : Byte} {e : DecodeError}
    (h : decode ⟨.trailCmd8, [b0, b1, b2, b3]⟩ = .error e) :
    e = .noEcho ∧ echoOk ⟨b0, b1, b2, b3⟩ = false := by
  change decodeEcho b0 b1 b2 b3 = _ at h
  unfold decodeEcho at h
  split at h
  · cases h
  · next hb =>
    cases h
    exact ⟨rfl, by simpa [echoOk] using hb⟩

theorem decode_ioctl_error {b : Byte} {e : DecodeError} (h : decode ⟨.ioctl, [b]⟩ = .error e) :
    e = .reservedIoctl := by
  by_cases hb : b = 0
  · subst hb
    cases h
  · have hd : decode ⟨.ioctl, [b]⟩ = .error .reservedIoctl := if_neg hb
    rw [hd] at h
    cases h
    rfl

theorem decode_waitReady_error {n1 n0 : Byte} {e : DecodeError}
    (h : decode ⟨.micro .waitReady, [0xFF, n1, n0]⟩ = .error e) : e = .otherBound := by
  change decodeMicro .waitReady [0xFF, n1, n0] = _ at h
  rw [decodeMicro, if_neg (not_not.mpr rfl)] at h
  split at h
  · cases h
  · cases h
    rfl

/-- Only these reasons give a word an effect. -/
theorem execUnlisted_refused {e : DecodeError}
    (h : e ∉ [.notStart, .notIdle, .notAccepted, .noEcho, .reservedIoctl, .stopToken, .otherBound]) (bytes : List Byte)
    (s : State) : execUnlisted e bytes s = .refused (.notAnInstruction e) := by
  unfold execUnlisted
  split
  case h_8 => rfl
  all_goals exact absurd (by decide) h

/-! The invariants. -/

theorem State.Inv.latched {s : State} {word : InstrWord} {buf : HostBuffer} {rest : List Request}
    (h : s.Inv) (hp : s.pending = .run word buf :: rest) : (s.latched buf rest).Inv := by
  obtain ⟨hseq, hcs, -, hreq⟩ := h
  refine ⟨hseq, hcs, hreq word buf (by simp [hp]), fun w b hb => hreq w b ?_⟩
  rw [hp]
  exact List.mem_cons_of_mem _ hb

/-- What keeps the invariant: the link records what it did, and neither the phase nor the canonical form is lost. -/
theorem State.Inv.next {s t : State} {stores : Bool} (h : s.Inv) (hseq : t.seq = .idle)
    (hlink : ∃ ev, t.trace = s.trace ++ ev ∧ t.cs = csAfter s.cs ev) (hbuf : Undisturbed stores s t) : t.Inv := by
  obtain ⟨-, hcs, hcanon, hreq⟩ := h
  obtain ⟨ev, htrace, hend⟩ := hlink
  refine ⟨hseq, ?_, hbuf.canonical hcanon, ?_⟩
  · rw [hend, htrace, hcs, csAfter_append]
  · rw [hbuf.pending]
    exact hreq

theorem State.Inv.idle {s : State} (h : s.Inv) : s.seq = .idle := by
  obtain ⟨hidle, -⟩ := h
  exact hidle

theorem State.Inv.exec {i : Instr} {s t : State} (h : s.Inv) (ht : exec i s = .next t) : t.Inv := by
  obtain ⟨ev, htrace, hcs, -⟩ := exec_link ht
  exact h.next (exec_idle h.idle ht) ⟨ev, htrace, hcs⟩ (exec_undisturbed ht)

theorem State.Inv.row {i : Instr} {s t : State} (h : s.Inv) (ht : RowRan i s t) : t.Inv := by
  obtain ⟨ev, htrace, hcs, -⟩ := ht.link
  obtain ⟨hidle, -⟩ := ht.idle_cardType h.idle
  exact h.next hidle ⟨ev, htrace, hcs⟩ ht.undisturbed

theorem State.Inv.powerCycled {s : State} {rest : List Request} (h : s.Inv) (hp : s.pending = .powerCycle :: rest) :
    (State.powerCycled { s with pending := rest }).Inv := by
  obtain ⟨-, -, -, hreq⟩ := h
  refine ⟨rfl, rfl, Memory.wf_nil, fun w b hb => hreq w b ?_⟩
  rw [hp]
  exact List.mem_cons_of_mem _ hb

theorem State.Inv.step {s t : State} (h : s.Inv) (ht : step s = .next t) : t.Inv := by
  rcases step_next ht with ⟨-, rfl⟩ | ⟨rest, hp, -, rfl⟩ | ⟨word, buf, rest, hp, ⟨i, -, hx⟩ | ⟨e, -, hx⟩⟩
  · exact h
  · exact h.powerCycled hp
  · exact (h.latched hp).exec hx
  · rcases execUnlisted_next hx with ⟨-, i, -, -, hrow⟩ | ⟨-, code, hx⟩
    · exact (h.latched hp).row hrow
    · exact (h.latched hp).exec hx

/-- What the host can present decodes to a host operation or to nothing that a row answers. -/
theorem hostOpOf_of_decode {word : InstrWord} {i : Instr} (hw : word.fmt = .hostOp ∨ word.fmt = .ioctl)
    (h : decode word = .ok i) : hostOpOf i ≠ none := by
  obtain ⟨-, rfl⟩ := encodes_of_decode h
  cases i with
  | diskInitialize | diskStatus | diskRead | diskWrite | diskIoctl | hostReserved5 | hostReserved6 | hostReserved7
  | ctrlSync => nofun
  | _ => simp [encode] at hw

theorem unlisted_of_host {word : InstrWord} {e : DecodeError} (hw : word.fmt = .hostOp ∨ word.fmt = .ioctl)
    (h : decode word = .error e) : e ∉ [.notStart, .notIdle, .notAccepted, .noEcho, .stopToken, .otherBound] := by
  obtain ⟨fmt, bytes⟩ := word
  rcases hw with rfl | rfl
  · change decodeHost bytes = _ at h
    unfold decodeHost at h
    split at h
    · split at h <;> cases h
      decide
    · cases h
      decide
  · rcases bytes with _ | ⟨b, _ | ⟨c, rest⟩⟩
    · cases h
      decide
    · obtain rfl := decode_ioctl_error h
      decide
    · cases h
      decide

theorem State.Quiescent.presents_host {s : State} {word : InstrWord} {buf : HostBuffer} {rest : List Request}
    (h : s.Quiescent) (hp : s.pending = .run word buf :: rest) : word.fmt = .hostOp ∨ word.fmt = .ioctl := by
  obtain ⟨-, -, -, -, hreq⟩ := h
  simpa [Request.isHosts] using hreq (.run word buf) (by simp [hp])

theorem State.Quiescent.latched {s : State} {word : InstrWord} {buf : HostBuffer} {rest : List Request}
    (h : s.Quiescent) (hp : s.pending = .run word buf :: rest) : (s.latched buf rest).Quiescent := by
  obtain ⟨hseq, hcs, hsel, hafter, hreq⟩ := h
  refine ⟨hseq, hcs, hsel, hafter, fun r hr => hreq r ?_⟩
  rw [hp]
  exact List.mem_cons_of_mem _ hr

theorem State.Quiescent.host {i : Instr} {s t : State} (h : s.Quiescent) (hi : hostOpOf i ≠ none)
    (ht : exec i s = .next t) : t.Quiescent := by
  obtain ⟨hseq, hcs, hsel, hafter, hreq⟩ := h
  obtain ⟨hend, ev, htrace, hsel', hafter'⟩ := Sys2Proof.selectedThroughout i s t hi hcs ht
  refine ⟨exec_idle hseq ht, hend, ?_, ?_, ?_⟩
  · rw [htrace, selectedThroughout_append, hsel, hafter, hsel']
    rfl
  · rw [htrace, csAfter_append, hafter, hafter']
  · rw [(exec_undisturbed ht).pending]
    exact hreq

theorem State.Quiescent.powerCycled {s : State} {rest : List Request} (h : s.Quiescent)
    (hp : s.pending = .powerCycle :: rest) : (State.powerCycled { s with pending := rest }).Quiescent := by
  obtain ⟨-, -, -, -, hreq⟩ := h
  refine ⟨rfl, rfl, rfl, rfl, fun r hr => hreq r ?_⟩
  rw [hp]
  exact List.mem_cons_of_mem _ hr

theorem State.Quiescent.step {s t : State} (h : s.Quiescent) (ht : step s = .next t) : t.Quiescent := by
  rcases step_next ht with ⟨-, rfl⟩ | ⟨rest, hp, -, rfl⟩ | ⟨word, buf, rest, hp, hrun⟩
  · exact h
  · exact h.powerCycled hp
  · have hhost : word.fmt = .hostOp ∨ word.fmt = .ioctl := h.presents_host hp
    rcases hrun with ⟨i, hd, hx⟩ | ⟨e, hd, hx⟩
    · exact (h.latched hp).host (hostOpOf_of_decode hhost hd) hx
    · rcases execUnlisted_next hx with ⟨he, -⟩ | ⟨-, code, hx⟩
      · exact absurd he (unlisted_of_host hhost hd)
      · exact (h.latched hp).host (by simp [hostOpOf]) hx

end Sys2Proof.Machine

namespace Sys2Proof

open Machine

/-- Settles O59. -/
theorem invKept : Obligations.InvKept := fun _ _ => State.Inv.step

/-- Settles O60: what the host can present is a host operation, and each closes what it opened. -/
theorem quiescentKept : Obligations.QuiescentKept := fun _ _ => State.Quiescent.step

/-- Settles O58. -/
theorem invariantsAtReset : Obligations.InvariantsAtReset :=
  ⟨⟨rfl, rfl, Memory.wf_nil, nofun⟩, ⟨rfl, rfl, rfl, rfl, nofun⟩, rfl⟩

/-- Settles O4. -/
theorem stepRunsDecoded : Obligations.StepRunsDecoded := fun _ _ _ _ _ => step_of_decode

/-- Settles O6. -/
theorem resetValues : Obligations.ResetValues := ⟨rfl, rfl, rfl, rfl, rfl⟩

/-- Settles O5: the reason the decoder gives tells which recognizer, or which row of the same shape, takes the word. -/
theorem stepOtherwise : Obligations.StepOtherwise := by
  refine ⟨fun s h => ?_, fun s rest h hidle => ?_, fun s rest h hbusy => ?_, ?_⟩
  · simp only [step, h]
  · rw [step_of_powerCycle h, if_pos hidle]
    rfl
  · rw [step_of_powerCycle h, if_neg hbusy]
  rintro s _ word buf rest e h rfl hd
  have hstep := step_of_unlisted h hd
  refine ⟨?_, ?_, ?_, ?_, ?_, ?_, ?_, fun he => hstep.trans (execUnlisted_refused he _ _)⟩
  · rintro b rfl
    obtain ⟨rfl, hb⟩ := decode_token_error hd
    rw [hstep, execUnlisted, receiveToken_eq, hb]
    rfl
  · rintro b rfl
    obtain ⟨rfl, hb⟩ := decode_idle_error hd
    rw [hstep, execUnlisted, receiveIdle_eq, hb]
    rfl
  · rintro b rfl
    obtain ⟨rfl, hb⟩ := decode_dresp_error hd
    rw [hstep, execUnlisted, receiveDresp_eq, hb]
    rfl
  · rintro b0 b1 b2 b3 rfl
    obtain ⟨rfl, hb⟩ := decode_echo_error hd
    rw [hstep, execUnlisted, receiveEcho_eq, hb]
    rfl
  · rintro code rfl
    obtain rfl := decode_ioctl_error hd
    exact hstep
  · rintro rfl
    cases hd
    exact hstep
  · rintro n1 n0 rfl
    obtain rfl := decode_waitReady_error hd
    exact hstep

end Sys2Proof
end

section
/-! The rows that exchange bytes until the card answers: wait_ready, the tokens sent, send_command and the wire commands
without a data phase (40_link R85, 41_command_framer R96 to R112, 43_block_transfer R143), and the bounds of R99. -/

namespace Sys2Proof.Machine

variable {α : Type}

/-! How such a row ends. -/

/-- What holds of the state a computation ends in holds however it ends. -/
theorem Link.wp_state {m : Link α} {p : State → Prop} {s : State} (h : p (m s).state) :
    m.wp (fun _ t => p t) (fun _ t => p t) s := by
  unfold Link.wp
  cases hm : m s <;> rwa [hm] at h

/-- A row that only writes the micro-result after its computation, with a trace and a value `P` admits, which does not
look at the micro-result. -/
theorem micro_rowEnds {m : Link α} {report : α → MicroResult} {blank : State → State} {s : State}
    {P : State → List Event → MicroResult → Prop} (hb : RowBlank blank) (hc : ShowsCard blank) (hruns : m.Runs)
    (hkeep : m.Keeps (Same blank)) (hdone : m.wp (fun a t => ∃ ev, P t ev (report a) ∧ Ran s t ev) anyFault s)
    (hP : ∀ t ev r x, P t ev r → P { t with microResult := x } ev r) :
    ∃ t, microOperation report m s = .next t ∧ RowEnds blank s t (P t) :=
  ⟨_, rfl, Link.rowEnds hb hc hruns hkeep hdone hP⟩

/-- A row without a link fault recorded ended with its value. -/
theorem micro_completed {m : Link α} {report : α → MicroResult} {s t : State} {Q : α → State → Prop}
    (h : microOperation report m s = .next t) (hno : ∀ code, t.microResult ≠ .linkFault code)
    (hw : m.wp Q anyFault s) : ∃ a u, Q a u ∧ t = { u with microResult := report a } := by
  unfold Link.wp at hw
  cases hm : m s with
  | ok a u =>
    rw [hm] at hw
    rw [microOperation_of_ok hm] at h
    cases h
    exact ⟨a, u, hw, rfl⟩
  | fault code u =>
    rw [microOperation_of_fault hm] at h
    cases h
    exact absurd rfl (hno code)

theorem showsCard_link : ShowsCard State.linkBlank := ⟨fun _ => rfl, fun _ => rfl⟩
theorem showsCard_send : ShowsCard State.sendBlank := ⟨fun _ => rfl, fun _ => rfl⟩
theorem showsCard_token : ShowsCard State.tokenBlank := ⟨fun _ => rfl, fun _ => rfl⟩
theorem showsCard_echo : ShowsCard State.echoBlank := ⟨fun _ => rfl, fun _ => rfl⟩
theorem showsCard_length : ShowsCard State.lengthBlank := ⟨fun _ => rfl, fun _ => rfl⟩
theorem showsCard_ocr : ShowsCard State.ocrBlank := ⟨fun _ => rfl, fun _ => rfl⟩

/-! wait_ready and the tokens. -/

/-- `wait_ready` with its counter: `poll` is the number of its reads (R85). -/
theorem waitReady_wp (n : Nat) (s : State) :
    (waitReady n).wp (fun ok t => ∃ ev, (WaitTrace n ev ok ∧ t.poll = BitVec.ofNat 10 (exchanges ev)) ∧ Ran s t ev)
      anyFault s := by
  refine Link.wp_mono (Link.wp_and (waitReady_sound n s) (Link.wp_state
    (p := fun t => t.poll + BitVec.ofNat 10 s.draws = BitVec.ofNat 10 t.draws) (waitReady_poll n s))) ?_
    fun _ _ _ => trivial
  rintro ok t ⟨⟨ev, hev, hran⟩, hpoll⟩
  refine ⟨ev, ⟨hev, ?_⟩, hran⟩
  rw [hran.draws, BitVec.ofNat_add] at hpoll
  bv_omega

theorem sendToken_wp (t : Token) (s : State) :
    (sendToken t).wp (fun _ u => ∃ ev, (u.tok = t.byte ∧ ∃ rx, ev = [.xfer t.byte rx]) ∧ Ran s u ev) anyFault s :=
  Link.wp_mono (Link.wp_and (sendToken_sound t s) (sendToken_keeps_tok t s))
    (fun _ _ ⟨⟨ev, hev, hran⟩, htok⟩ => ⟨ev, ⟨htok, hev⟩, hran⟩) fun _ _ _ => trivial

theorem sendToken_row (tok : Token) (s : State) :
    ∃ t, microOperation (fun _ => .unit) (sendToken tok) s = .next t ∧
      RowEnds State.tokenBlank s t fun ev m => m = .unit ∧ t.tok = tok.byte ∧ ∃ rx, ev = [.xfer tok.byte rx] :=
  micro_rowEnds (P := fun t ev m => m = .unit ∧ t.tok = tok.byte ∧ ∃ rx, ev = [.xfer tok.byte rx])
    rowBlank_token showsCard_token (rowBody_token tok).runs
    (sendToken_keeps readKept_token (fun _ _ => rfl) tok)
    (Link.wp_mono (sendToken_wp tok s) (fun _ _ ⟨ev, hev, hran⟩ => ⟨ev, ⟨rfl, hev⟩, hran⟩) fun _ _ _ => trivial)
    fun _ _ _ _ h => h

/-! Commands. -/

theorem sendCommand_row (cmd : Command) (arg : Word) (s : State) :
    ∃ t, microOperation .byte (sendCommand cmd arg) s = .next t ∧
      RowEnds State.sendBlank s t fun ev m => ∃ r, m = .byte r ∧ CommandTrace cmd arg ev r :=
  micro_rowEnds (P := fun _ ev m => ∃ r, m = .byte r ∧ CommandTrace cmd arg ev r) rowBlank_send showsCard_send
    (sendCommand_runs cmd arg) (sendCommand_keeps sendKept_blank cmd arg)
    (Link.wp_mono (sendCommand_sound cmd arg s) (fun r _ ⟨ev, hev, hran⟩ => ⟨ev, ⟨r, rfl, hev⟩, hran⟩)
      fun _ _ _ => trivial)
    fun _ _ _ _ h => h

/-! The parts of a frame attempt (R99). -/

theorem WaitTrace.reads {n : Nat} {ev : List Event} {ok : Bool} (h : WaitTrace n ev ok) :
    ∃ wait : List Byte, ev = reads wait ∧ wait.length ≤ n ∧ (ok = true → 1 ≤ wait.length) := by
  obtain ⟨hle, hone, -⟩ := h.bounds
  cases h <;> exact ⟨_, rfl, by simpa only [exchanges_reads] using hle, by simpa only [exchanges_reads] using hone⟩

theorem R1Trace.reads {ev : List Event} {r : Byte} (h : R1Trace ev r) :
    ∃ poll : List Byte, ev = reads poll ∧ 1 ≤ poll.length ∧ poll.length ≤ 10 := by
  have hb := h.bounds
  cases h <;> exact ⟨_, rfl, by simpa only [exchanges_reads] using hb⟩

theorem StandardTrace.frameAttempt {index : BitVec 6} {arg : Word} {ev : List Event} {r : Byte} (hi : index ≠ 12)
    (h : StandardTrace index arg ev r) : FrameAttempt index arg ev := by
  obtain ⟨hlo, hhi, hdes, hsel, -, -⟩ := h.bounds hi .asserted
  refine ⟨hdes, hsel, ?_⟩
  cases h with
  | stopTransmission _ _ h12 => exact absurd h12 hi
  | sent wait ev r _ hw hf =>
    obtain ⟨waited, rfl, hmost, hleast⟩ := hw.reads
    cases hf with
    | sent dropped ev r hlen hr =>
      obtain ⟨poll, rfl, hpoll, hpolls⟩ := hr.reads
      exact .inl ⟨waited, dropped, poll, rfl, hleast rfl, hmost, hlen, hpoll, hpolls, hlo, hhi⟩
  | busy wait _ hw =>
    obtain ⟨-, -, hall⟩ := hw.bounds
    obtain ⟨waited, rfl, -⟩ := hw.reads
    exact .inr ⟨waited, rfl, by simpa using hall rfl⟩

theorem StandardTrace.stopAttempt {arg : Word} {ev : List Event} {r : Byte} (h : StandardTrace 12 arg ev r) :
    StopAttempt ev := by
  obtain ⟨hplain, hbounds⟩ := h.bounds_stop
  obtain ⟨hdes, hsel, -⟩ := hplain.chipSelect
  exact ⟨hdes, hsel, hbounds⟩

/-- Whatever the command is, from a selected card its frame leaves the card selected (R99). -/
theorem StandardTrace.selected {index : BitVec 6} {arg : Word} {ev : List Event} {r : Byte}
    (h : StandardTrace index arg ev r) :
    7 ≤ exchanges ev ∧ exchanges ev ≤ 516 ∧ csAfter .asserted ev = .asserted ∧
      selectedThroughout .asserted ev = true := by
  by_cases hi : index = 12
  · subst hi
    obtain ⟨hplain, hlo, hhi⟩ := h.bounds_stop
    obtain ⟨-, -, hcs, hsel⟩ := hplain.chipSelect
    exact ⟨hlo, by omega, hcs _, hsel⟩
  · obtain ⟨hlo, hhi, -, -, hcs, hsel⟩ := h.bounds hi .asserted
    exact ⟨by omega, hhi, hcs, hsel⟩

/-- The two frames of an application command, CMD55's first. -/
theorem StandardTrace.application_bounds {index : BitVec 6} {arg : Word} {first second : List Event} {r55 r : Byte}
    (h1 : StandardTrace 55 0 first r55) (h2 : StandardTrace index arg second r) (c : ChipSelect) :
    8 ≤ exchanges (first ++ second) ∧ exchanges (first ++ second) ≤ 1032 ∧ csAfter c (first ++ second) = .asserted ∧
      selectedThroughout c (first ++ second) = true := by
  obtain ⟨hlo, hhi, -, -, hcs, hsel⟩ := h1.bounds (by decide) c
  obtain ⟨-, hhi', hcs', hsel'⟩ := h2.selected
  rw [exchanges_append, csAfter_append, selectedThroughout_append, hcs, hsel, hcs', hsel']
  exact ⟨by omega, by omega, rfl, rfl⟩

end Sys2Proof.Machine

namespace Sys2Proof

open Machine

/-- Settles O11. -/
theorem waitReadyRow : Obligations.WaitReadyRow := fun s n =>
  micro_rowEnds
    (P := fun t ev m => ∃ ok, m = .bool ok ∧ WaitTrace n.toNat ev ok ∧ t.poll = BitVec.ofNat 10 (exchanges ev))
    rowBlank_link showsCard_link (waitReady_runs n.toNat) (waitReady_keeps readKept_link n.toNat)
    (Link.wp_mono (waitReady_wp n.toNat s) (fun ok _ ⟨ev, hev, hran⟩ => ⟨ev, ⟨ok, rfl, hev⟩, hran⟩)
      fun _ _ _ => trivial)
    fun _ _ _ _ h => h

/-- Settles O26. -/
theorem sentTokenRows : Obligations.SentTokenRows := by
  rintro s i b (⟨rfl, rfl⟩ | ⟨rfl, rfl⟩ | ⟨rfl, rfl⟩)
  · exact sendToken_row .startBlock s
  · exact sendToken_row .startMultiWrite s
  · exact sendToken_row .stopTran s

/-- Settles O12. -/
theorem sendCommandRow : Obligations.SendCommandRow := fun s cmd arg => sendCommand_row cmd arg s

/-- Settles O14: each of these rows is send_command. -/
theorem plainCommandRows : Obligations.PlainCommandRows :=
  ⟨sendCommand_row _ _, sendCommand_row _ _, sendCommand_row _ _, sendCommand_row _ _, fun _ => sendCommand_row _ _,
    sendCommand_row _ _, sendCommand_row _ _⟩

/-- Settles O15. -/
theorem cmd8Row : Obligations.Cmd8Row := by
  intro s
  refine micro_rowEnds (P := fun t ev m => ∃ r, m = .byte r ∧
      ((r ≠ 1 ∧ CommandTrace ⟨false, 8⟩ 0x1AA ev r ∧ t.trail = s.trail) ∨
        ∃ sent t0 t1 t2 t3, r = 1 ∧ CommandTrace ⟨false, 8⟩ 0x1AA sent 1 ∧ ev = sent ++ reads [t0, t1, t2, t3] ∧
          t.trail = ⟨t0, t1, t2, t3⟩))
    rowBlank_echo showsCard_echo cmd8_runs (cmd8_keeps sendKept_echo fun _ _ => rfl)
    (Link.wp_mono (cmd8_wp s) ?_ fun _ _ _ => trivial) fun _ _ _ _ h => h
  rintro r t ⟨ev, hev, ⟨hr, hran, htrail⟩ | ⟨t0, t1, t2, t3, rfl, hran, htrail⟩⟩
  · exact ⟨ev, ⟨r, rfl, .inl ⟨hr, hev, htrail⟩⟩, hran⟩
  · exact ⟨_, ⟨1, rfl, .inr ⟨ev, t0, t1, t2, t3, rfl, hev, rfl, htrail⟩⟩, hran⟩

/-- Settles O16. -/
theorem cmd16Row : Obligations.Cmd16Row := by
  intro s
  refine micro_rowEnds (P := fun t ev m => ∃ r, m = .byte r ∧ CommandTrace ⟨false, 16⟩ 512 ev r ∧
      t.ty = if r = 0 then s.ty else .none)
    rowBlank_length showsCard_length cmd16_runs (cmd16_keeps sendKept_length fun _ _ => rfl)
    (Link.wp_mono (cmd16_wp s) ?_ fun _ _ _ => trivial) fun _ _ _ _ h => h
  rintro r t ⟨ev, hev, hran, hty⟩
  exact ⟨ev, ⟨r, rfl, hev, hty⟩, hran⟩

/-- Settles O17. -/
theorem cmd58Row : Obligations.Cmd58Row := by
  intro s
  refine micro_rowEnds (P := fun t ev m => ∃ r, m = .byte r ∧
      ((r ≠ 0 ∧ CommandTrace ⟨false, 58⟩ 0 ev r ∧ t.trail = s.trail ∧ t.ty = s.ty) ∨
        ∃ sent t0 t1 t2 t3, r = 0 ∧ CommandTrace ⟨false, 58⟩ 0 sent 0 ∧ ev = sent ++ reads [t0, t1, t2, t3] ∧
          t.trail = ⟨t0, t1, t2, t3⟩ ∧ t.ty = if t0.getLsbD 6 then .sdc else .sd2))
    rowBlank_ocr showsCard_ocr cmd58_runs (cmd58_keeps sendKept_ocr (fun _ _ => rfl) fun _ _ => rfl)
    (Link.wp_mono (cmd58_wp s) ?_ fun _ _ _ => trivial) fun _ _ _ _ h => h
  rintro r t ⟨ev, hev, ⟨hr, hran, hty, htrail⟩ | ⟨t0, t1, t2, t3, rfl, hran, htrail, hty⟩⟩
  · exact ⟨ev, ⟨r, rfl, .inl ⟨hr, hev, htrail, hty⟩⟩, hran⟩
  · exact ⟨_, ⟨0, rfl, .inr ⟨ev, t0, t1, t2, t3, rfl, hev, rfl, htrail, hty⟩⟩, hran⟩

/-- Settles O13: the row's trace is one of the grammar, whose frames have these bounds. -/
theorem sendCommandBounds : Obligations.SendCommandBounds := by
  intro s t cmd arg h hno
  obtain ⟨r, u, ⟨ev, hev, hran⟩, rfl⟩ := micro_completed h hno (sendCommand_sound cmd arg s)
  refine ⟨ev, hran.trace, ?_⟩
  cases hev with
  | standard ev r happ hstd =>
    refine ⟨fun _ hi => hstd.frameAttempt hi, fun _ hi => ?_, fun h => absurd (happ.symm.trans h) nofun, fun hor => ?_⟩
    · rw [hi] at hstd
      obtain ⟨hplain, -⟩ := hstd.bounds_stop
      obtain ⟨-, -, hcs, -⟩ := hplain.chipSelect
      exact ⟨hstd.stopAttempt, hran.cs.trans (hcs s.cs)⟩
    · have hi : cmd.index ≠ 12 := hor.resolve_left fun h => absurd (happ.symm.trans h) nofun
      obtain ⟨-, -, -, -, hcs, hsel⟩ := hstd.bounds hi s.cs
      exact ⟨hran.cs.trans hcs, hsel⟩
  | aborted ev r happ hstd hfatal =>
    obtain ⟨hlo, hhi, -, -, hcs, hsel⟩ := hstd.bounds (by decide) s.cs
    exact ⟨fun h => absurd (happ.symm.trans h) nofun, fun h => absurd (happ.symm.trans h) nofun,
      fun _ => ⟨hlo, by omega, .inl ⟨r, rfl, hfatal, hstd.frameAttempt (by decide)⟩⟩,
      fun _ => ⟨hran.cs.trans hcs, hsel⟩⟩
  | application first second r55 r happ h55 hr55 hstd =>
    obtain ⟨hlo, hhi, hcs, hsel⟩ := h55.application_bounds hstd s.cs
    refine ⟨fun h => absurd (happ.symm.trans h) nofun, fun h => absurd (happ.symm.trans h) nofun,
      fun _ => ⟨hlo, hhi, .inr ⟨first, second, rfl, h55.frameAttempt (by decide), ⟨r55, hr55, .standard _ _ rfl h55⟩,
        fun hi => hstd.frameAttempt hi, fun hi => ?_⟩⟩,
      fun _ => ⟨hran.cs.trans hcs, hsel⟩⟩
    rw [hi] at hstd
    exact hstd.stopAttempt

end Sys2Proof
end

section
/-! The rows that move blocks: the two packets and the four data commands with their data phases (41_command_framer R105
to R109, 43_block_transfer R140 to R146), how each ends, what it stores, and the bounds of R141 and R146. -/

namespace Sys2Proof.Machine

variable {α : Type}

/-! Rows that need buffer bytes (R30). -/

theorem bufferOperation_within {off n : Nat} {s : State} (h : off + n ≤ s.buf.size) (report : α → MicroResult)
    (m : Link α) : bufferOperation off n report m s = microOperation report m s := if_pos h

theorem bufferOperation_beyond {off n : Nat} {s : State} (h : s.buf.size < off + n) (report : α → MicroResult)
    (m : Link α) : bufferOperation off n report m s = .fault .bufferRange := if_neg (by omega)

theorem bufferOperation_next {off n : Nat} {s t : State} {report : α → MicroResult} {m : Link α}
    (h : bufferOperation off n report m s = .next t) : microOperation report m s = .next t := by
  unfold bufferOperation at h
  split at h
  · exact h
  · cases h

/-- What holds where a link fault unwinds holds of the row that records it. -/
theorem record_of_linkFault {m : Link Bool} {s : State} {p : State → Prop}
    (h : m.wp (fun _ _ => True) (fun _ t => p t) s)
    (hp : ∀ t code, p t → p { t.takeLinkFault code with microResult := .linkFault code }) {code : Nat}
    (hr : ((m s).record MicroResult.bool).microResult = .linkFault code) : p ((m s).record MicroResult.bool) := by
  unfold Link.wp at h
  cases hm : m s with
  | ok b t =>
    rw [hm] at hr
    cases hr
  | fault c t =>
    rw [hm] at h
    exact hp t c h

theorem showsCard_blockIn : ShowsCard State.blockInBlank := ⟨fun _ => rfl, fun _ => rfl⟩
theorem showsCard_blockOut : ShowsCard State.blockOutBlank := ⟨fun _ => rfl, fun _ => rfl⟩
theorem showsCard_readOne : ShowsCard State.readOneBlank := ⟨fun _ => rfl, fun _ => rfl⟩
theorem showsCard_readMany : ShowsCard State.readManyBlank := ⟨fun _ => rfl, fun _ => rfl⟩
theorem showsCard_writeOne : ShowsCard State.writeOneBlank := ⟨fun _ => rfl, fun _ => rfl⟩
theorem showsCard_writeMany : ShowsCard State.writeManyBlank := ⟨fun _ => rfl, fun _ => rfl⟩

/-! receive_datablock (R141). -/

/-- What one block leaves in the buffer of `t`, started at `s`. -/
def BlockStored (off : Nat) (s t : State) (data : Option (List Byte)) : Prop :=
  (data = none → t.buf = s.buf) ∧
    ∀ bytes, data = some bytes → s.buf.cells.wf → ∀ (j : Nat) (h : j < bytes.length), t.bufByte (off + j) = bytes[j]

theorem blockStored_of_store {off : Nat} {s t : State} {data : Option (List Byte)}
    (h : t.buf = ⟨s.buf.size, s.buf.cells.store off (data.getD [])⟩) : BlockStored off s t data := by
  constructor
  · rintro rfl
    exact h
  · rintro bytes rfl hwf j hj
    rw [State.bufByte, h]
    exact Memory.read_store_same hwf hj

theorem receiveDatablock_row (off length : Nat) (s : State) :
    ∃ t, microOperation .bool (receiveDatablock off length) s = .next t ∧
      (RowEnds State.blockInBlank s t fun ev m => ∃ data, m = .bool data.isSome ∧
        BlockInTrace length ev data ∧ BlockStored off s t data) ∧
      (∀ code, t.microResult = .linkFault code → t.buf = s.buf) ∧
      ∀ a, (a < off ∨ off + length ≤ a) → t.bufByte a = s.bufByte a := by
  obtain ⟨t, ht, hends⟩ := micro_rowEnds
    (P := fun t ev m => ∃ data, m = .bool data.isSome ∧ BlockInTrace length ev data ∧ BlockStored off s t data)
    rowBlank_blockIn showsCard_blockIn (receiveDatablock_runs off length)
    (receiveDatablock_keeps blockInKept_blank off length)
    (Link.wp_mono (receiveDatablock_wp off length s)
      (fun _ _ ⟨ev, data, hev, hgot, hran, hbuf⟩ =>
        ⟨ev, ⟨data, congrArg MicroResult.bool hgot, hev, blockStored_of_store hbuf⟩, hran⟩)
      fun _ _ _ => trivial)
    fun _ _ _ _ h => h
  refine ⟨t, ht, hends, ?_⟩
  cases ht
  exact ⟨fun code hr => record_of_linkFault (p := fun t => t.buf = s.buf) (receiveDatablock_fault off length s)
      (fun _ _ h => h) hr,
    Outside.record ((receiveDatablock_outside off (off + length) off length le_rfl le_rfl).wp s) .bool⟩

theorem BlockInTrace.bounds {length : Nat} {ev : List Event} {data : Option (List Byte)}
    (h : BlockInTrace length ev data) :
    (data.isSome = false → 1 ≤ exchanges ev ∧ exchanges ev ≤ 255) ∧
      (data.isSome = true → length + 3 ≤ exchanges ev ∧ exchanges ev ≤ length + 257) := by
  cases h with
  | received k data c0 c1 hk hlen =>
    rw [exchanges_reads]
    simp only [List.length_append, List.length_replicate, List.length_cons, List.length_nil, hlen]
    exact ⟨nofun, fun _ => by omega⟩
  | wrongToken k tok hk =>
    rw [exchanges_reads]
    simp only [List.length_append, List.length_replicate, List.length_cons, List.length_nil]
    exact ⟨fun _ => by omega, nofun⟩
  | noToken =>
    rw [exchanges_reads, List.length_replicate]
    exact ⟨fun _ => by omega, nofun⟩

/-! transmit_datablock (R146). -/

/-- The 512 bytes of the buffer from `off` on (R144). -/
def State.payload (s : State) (off : Nat) : List Byte := (List.range 512).map fun j => s.bufByte (off + j)

theorem State.payload_length (s : State) (off : Nat) : (s.payload off).length = 512 := by
  simp [State.payload]

theorem transmitDatablock_row (off : Nat) (token : Token) (s : State) :
    ∃ t, microOperation .bool (transmitDatablock off token) s = .next t ∧
      RowEnds State.blockOutBlank s t fun ev m => ∃ ok, m = .bool ok ∧ BlockOutTrace (s.payload off) token ev ok :=
  micro_rowEnds (P := fun _ ev m => ∃ ok, m = .bool ok ∧ BlockOutTrace (s.payload off) token ev ok)
    rowBlank_blockOut showsCard_blockOut (transmitDatablock_runs off token)
    (transmitDatablock_keeps blockOutKept_blank off token)
    (Link.wp_mono (transmitDatablock_wp off token s) (fun ok _ ⟨ev, hev, hran⟩ => ⟨ev, ⟨ok, rfl, hev⟩, hran⟩)
      fun _ _ _ => trivial)
    fun _ _ _ _ h => h

theorem BlockOutTrace.data_bounds {payload : List Byte} {token : Token} {ev : List Event} {ok : Bool}
    (h : BlockOutTrace payload token ev ok) (ht : token ≠ .stopTran) (hp : payload.length = 512) :
    (exchanges ev = 500 ∧ ok = false) ∨ (518 ≤ exchanges ev ∧ exchanges ev ≤ 2016) := by
  cases h with
  | busy _ hw =>
    obtain ⟨-, -, hall⟩ := hw.bounds
    exact .inl ⟨hall rfl, rfl⟩
  | stop _ _ _ _ hstop => exact absurd hstop ht
  | block wait closing rx response dropped q _ hw hd hc =>
    obtain ⟨hwait, hone, -⟩ := hw.bounds
    obtain ⟨hclose, hsome, hall⟩ := hc.bounds
    have hleast : 1 ≤ exchanges closing := by
      cases q with
      | false => rw [hall rfl]; decide
      | true => exact hsome rfl
    have hone := hone rfl
    have hdata : exchanges (writes (payload ++ [0xFF, 0xFF]) dropped) = 514 := by
      rw [exchanges_writes (by simp [hd])]
      simp [hp]
    rw [exchanges_append, exchanges_xfer, exchanges_append, exchanges_append, hdata, exchanges_reads,
      List.length_singleton]
    exact .inr (by omega)

theorem BlockOutTrace.stop_bounds {payload : List Byte} {ev : List Event} {ok : Bool}
    (h : BlockOutTrace payload .stopTran ev ok) :
    (exchanges ev = 500 ∧ ok = false) ∨ (3 ≤ exchanges ev ∧ exchanges ev ≤ 1501 ∧ ok = true) := by
  cases h with
  | busy _ hw =>
    obtain ⟨-, -, hall⟩ := hw.bounds
    exact .inl ⟨hall rfl, rfl⟩
  | stop wait closing rx q _ hw hc =>
    obtain ⟨hwait, hone, -⟩ := hw.bounds
    obtain ⟨hclose, hsome, hall⟩ := hc.bounds
    have hleast : 1 ≤ exchanges closing := by
      cases q with
      | false => rw [hall rfl]; decide
      | true => exact hsome rfl
    have hone := hone rfl
    rw [exchanges_append, exchanges_xfer]
    exact .inr ⟨by omega, by omega, rfl⟩
  | block _ _ _ _ _ _ hstop => exact absurd rfl hstop

/-! The data commands. -/

theorem cmd17_row (addr : Word) (s : State) :
    ∃ t, microOperation .bool (cmd17 addr) s = .next t ∧
      (RowEnds State.readOneBlank s t fun ev m => ∃ ok blocks, m = .bool ok ∧ SingleReadTrace addr ev blocks ok ∧
        (s.buf.cells.wf → Stored t blocks) ∧ (blocks = [] → t.buf = s.buf)) ∧
      (∀ code, t.microResult = .linkFault code → t.buf = s.buf) ∧
      ∀ a, 512 ≤ a → t.bufByte a = s.bufByte a := by
  have hdone : (cmd17 addr).wp (fun ok t => ∃ ev, (∃ ok' blocks, MicroResult.bool ok = .bool ok' ∧
      SingleReadTrace addr ev blocks ok' ∧ (s.buf.cells.wf → Stored t blocks) ∧ (blocks = [] → t.buf = s.buf)) ∧
      Ran s t ev) anyFault s := by
    refine Link.wp_mono (cmd17_wp addr s) ?_ fun _ _ _ => trivial
    rintro ok t ⟨ev, blocks, hev, hran, hbuf⟩
    obtain ⟨hlen, -⟩ := hev.blocks_length
    refine ⟨ev, ⟨ok, blocks, rfl, hev, fun hwf => stored_of_store hlen hwf hbuf, ?_⟩, hran⟩
    rintro rfl
    exact hbuf
  obtain ⟨t, ht, hends⟩ := micro_rowEnds
    (P := fun t ev m => ∃ ok blocks, m = .bool ok ∧ SingleReadTrace addr ev blocks ok ∧
      (s.buf.cells.wf → Stored t blocks) ∧ (blocks = [] → t.buf = s.buf))
    rowBlank_readOne showsCard_readOne (cmd17_runs addr) (cmd17_keeps sendKept_readOne blockInKept_readOne addr) hdone
    fun _ _ _ _ h => h
  refine ⟨t, ht, hends, ?_⟩
  cases ht
  exact ⟨fun code hr => record_of_linkFault (p := fun t => t.buf = s.buf) (cmd17_fault addr s) (fun _ _ h => h) hr,
    fun a ha => Outside.record ((cmd17_outside addr).wp s) .bool a (.inr ha)⟩

/-- The first `done` blocks are the row's; every byte after them is as before, a link fault included (R35). -/
def WithinDone (s t : State) : Prop :=
  t.done.toNat ≤ s.count.toNat ∧ ∀ a, t.done.toNat * 512 ≤ a → t.bufByte a = s.bufByte a

theorem cmd18_withinDone (addr : Word) (s : State) :
    (cmd18 addr).wp (fun _ t => WithinDone s t) (fun _ t => WithinDone s t) s :=
  Link.wp_mono (cmd18_arrived addr s) (fun _ _ ⟨_, h, _⟩ => h.outside rfl) fun _ _ ⟨_, h, _⟩ => h.outside rfl

theorem cmd18_row (addr : Word) (s : State) :
    ∃ t, microOperation .bool (cmd18 addr) s = .next t ∧
      (RowEnds State.readManyBlank s t fun ev m => ∃ ok blocks, m = .bool ok ∧
        MultiReadTrace addr s.count.toNat ev blocks ok ∧ t.done.toNat = blocks.length ∧
        (s.buf.cells.wf → Stored t blocks)) ∧ WithinDone s t := by
  have hdone : (cmd18 addr).wp (fun ok t => ∃ ev, (∃ ok' blocks, MicroResult.bool ok = .bool ok' ∧
      MultiReadTrace addr s.count.toNat ev blocks ok' ∧ t.done.toNat = blocks.length ∧
      (s.buf.cells.wf → Stored t blocks)) ∧ Ran s t ev) anyFault s := by
    refine Link.wp_mono (cmd18_wp addr s) ?_ fun _ _ _ => trivial
    rintro ok t ⟨ev, blocks, hev, hran, hcount, hbuf⟩
    obtain ⟨hlen, -⟩ := hev.blocks_length
    exact ⟨ev, ⟨ok, blocks, rfl, hev, hcount, fun hwf => stored_of_store hlen hwf hbuf⟩, hran⟩
  obtain ⟨t, ht, hends⟩ := micro_rowEnds
    (P := fun t ev m => ∃ ok blocks, m = .bool ok ∧ MultiReadTrace addr s.count.toNat ev blocks ok ∧
      t.done.toNat = blocks.length ∧ (s.buf.cells.wf → Stored t blocks))
    rowBlank_readMany showsCard_readMany (cmd18_runs addr)
    (cmd18_keeps sendKept_readMany blockInKept_readMany (fun _ _ => rfl) addr) hdone fun _ _ _ _ h => h
  refine ⟨t, ht, hends, ?_⟩
  cases ht
  exact Link.wp_record (cmd18_withinDone addr s) (fun _ _ h => h) fun _ _ h => h

theorem cmd24_row (addr : Word) (s : State) :
    ∃ t, microOperation .bool (cmd24 addr) s = .next t ∧
      RowEnds State.writeOneBlank s t fun ev m => ∃ ok, m = .bool ok ∧ SingleWriteTrace addr (s.block 0) ev ok :=
  micro_rowEnds (P := fun _ ev m => ∃ ok, m = .bool ok ∧ SingleWriteTrace addr (s.block 0) ev ok)
    rowBlank_writeOne showsCard_writeOne (cmd24_runs addr) (cmd24_keeps sendKept_writeOne blockOutKept_writeOne addr)
    (Link.wp_mono (cmd24_wp addr s) (fun ok _ ⟨ev, hev, hran⟩ => ⟨ev, ⟨ok, rfl, hev⟩, hran⟩) fun _ _ _ => trivial)
    fun _ _ _ _ h => h

theorem cmd25_row (addr : Word) (s : State) :
    ∃ t, microOperation .bool (cmd25 addr) s = .next t ∧
      RowEnds State.writeManyBlank s t fun ev m => ∃ ok, m = .bool ok ∧
        MultiWriteTrace addr (s.blocks s.count.toNat) ev ok :=
  micro_rowEnds (P := fun _ ev m => ∃ ok, m = .bool ok ∧ MultiWriteTrace addr (s.blocks s.count.toNat) ev ok)
    rowBlank_writeMany showsCard_writeMany (cmd25_runs addr)
    (cmd25_keeps sendKept_writeMany blockOutKept_writeMany (fun _ _ => rfl) addr)
    (Link.wp_mono (cmd25_wp addr s) (fun ok _ ⟨ev, hev, hran⟩ => ⟨ev, ⟨ok, rfl, hev⟩, hran⟩) fun _ _ _ => trivial)
    fun _ _ _ _ h => h

end Sys2Proof.Machine

namespace Sys2Proof

open Machine

/-- Settles O27: the block is stored by one change after all of it has been read. -/
theorem receiveDatablockRow : Obligations.ReceiveDatablockRow := by
  refine ⟨fun s off length h => ?_, fun s off length h => bufferOperation_beyond h _ _⟩
  obtain ⟨t, ht, hrow⟩ := receiveDatablock_row off.toNat length.toNat s
  exact ⟨t, (bufferOperation_within h _ _).trans ht, hrow⟩

/-- Settles O28: the stop packet needs no byte of the buffer. -/
theorem transmitDatablockRow : Obligations.TransmitDatablockRow := by
  refine ⟨fun s off token h => ?_, fun s off token ht h => ?_⟩
  · obtain ⟨t, ht, hrow⟩ := transmitDatablock_row off.toNat token s
    refine ⟨t, (bufferOperation_within ?_ _ _).trans ht, hrow⟩
    cases token with
    | stopTran => exact Nat.zero_le _
    | startBlock | startMultiWrite => exact h.resolve_left nofun
  · refine bufferOperation_beyond ?_ _ _
    cases token with
    | stopTran => exact absurd rfl ht
    | startBlock | startMultiWrite => exact h

/-- Settles O29: the bounds of the grammar's packets, which hold neither SEL nor DES. -/
theorem packetBounds : Obligations.PacketBounds := by
  refine ⟨fun s t off length h hno => ?_, fun s t off token h hno => ?_⟩
  · obtain ⟨got, u, ⟨ev, data, hev, rfl, hran, -⟩, rfl⟩ :=
      micro_completed (bufferOperation_next h) hno (receiveDatablock_wp off.toNat length.toNat s)
    obtain ⟨-, -, hcs, -⟩ := hev.plain.chipSelect
    exact ⟨ev, data.isSome, hran.trace, hran.cs.trans (hcs _), rfl, hev.bounds⟩
  · obtain ⟨ok, u, ⟨ev, hev, hran⟩, rfl⟩ :=
      micro_completed (bufferOperation_next h) hno (transmitDatablock_wp off.toNat token s)
    obtain ⟨-, -, hcs, -⟩ := hev.plain.chipSelect
    refine ⟨ev, ok, hran.trace, hran.cs.trans (hcs _), rfl, fun ht => hev.data_bounds ht ?_, ?_⟩
    · exact s.payload_length off.toNat
    · rintro rfl
      exact hev.stop_bounds

/-- Settles O18. -/
theorem cmd17Row : Obligations.Cmd17Row := by
  refine ⟨fun s arg h => ?_, fun s arg h => bufferOperation_beyond (by simpa using h) _ _⟩
  obtain ⟨t, ht, hrow⟩ := cmd17_row arg s
  exact ⟨t, (bufferOperation_within (by simpa using h) _ _).trans ht, hrow⟩

/-- Settles O19. -/
theorem cmd18Row : Obligations.Cmd18Row := by
  refine ⟨fun s arg h => ?_, fun s arg h => bufferOperation_beyond (by simpa [transferBytes] using h) _ _⟩
  obtain ⟨t, ht, hrow⟩ := cmd18_row arg s
  exact ⟨t, (bufferOperation_within (by simpa [transferBytes] using h) _ _).trans ht, hrow⟩

/-- Settles O20. -/
theorem cmd24Row : Obligations.Cmd24Row := by
  refine ⟨fun s arg h => ?_, fun s arg h => bufferOperation_beyond (by simpa using h) _ _⟩
  obtain ⟨t, ht, hrow⟩ := cmd24_row arg s
  exact ⟨t, (bufferOperation_within (by simpa using h) _ _).trans ht, hrow⟩

/-- Settles O21. -/
theorem cmd25Row : Obligations.Cmd25Row := by
  refine ⟨fun s arg h => ?_, fun s arg h => bufferOperation_beyond (by simpa [transferBytes] using h) _ _⟩
  obtain ⟨t, ht, hrow⟩ := cmd25_row arg s
  exact ⟨t, (bufferOperation_within (by simpa [transferBytes] using h) _ _).trans ht, hrow⟩

end Sys2Proof
end

section
/-! The units beside the sequencer: the CRC-7 validator on the composer's frames (41_command_framer R90 to R93), the
translator (20_memory R36) and the buffer (R9, R32). -/

namespace Sys2Proof.Machine

theorem frameTail_endBit (index : BitVec 6) : (frameTail index).getLsbD 0 = true := by
  unfold frameTail
  split_ifs <;> decide

/-- The start bits and the end bit are the composer's, whatever index and argument are (R91). -/
theorem frameWellFormed_composeFrame (index : BitVec 6) (arg : Word) :
    frameWellFormed (composeFrame index arg) = true :=
  Bool.and_eq_true_iff.mpr ⟨beq_iff_eq.mpr (frameHead_start index), frameTail_endBit index⟩

/-- The two literals of R91 are CRC-7s; the byte the other frames end in is not theirs. -/
theorem composed_crc :
    crc7 [0x40, 0x00, 0x00, 0x00, 0x00] = 0x4A ∧ crc7 [0x48, 0x00, 0x00, 0x01, 0xAA] = 0x43 ∧
      frameCrcOk (composeFrame 0 0) = true ∧ frameCrcOk (composeFrame 8 0x1AA) = true ∧
      frameCrcOk (composeFrame 55 0) = false ∧ frameCrcOk (composeFrame 16 512) = false := by
  decide +kernel

end Sys2Proof.Machine

namespace Sys2Proof

open Machine

/-- Settles O23: the end bit of the sixth byte is 1 for each of the three bytes the index chooses from. -/
theorem crcValidator : Obligations.CrcValidator := by
  obtain ⟨hcrc0, hcrc8, hframes⟩ := composed_crc
  exact ⟨hcrc0, hcrc8, frameWellFormed_composeFrame, hframes⟩

/-- Settles O30. -/
theorem translator : Obligations.Translator := by
  refine ⟨fun _ => rfl, fun ct sector h => ?_, by decide, rfl⟩
  rw [translate_of_ne_sdc h, BitVec.toNat_mul]
  rfl

/-- Settles O32: the rules of the sorted memory. -/
theorem bufferReadWrite : Obligations.BufferReadWrite := fun _ off v hwf =>
  ⟨Memory.write_wf hwf off v, Memory.read_write_same hwf off v, fun _ ha => Memory.read_write_other v ha, rfl, rfl⟩

end Sys2Proof
end

section
/-! The host operations that move no block (44_disk_facade R170 to R175, 43_block_transfer R160): those that end before
the first link event, the calls that are refused, and disk_ioctl(CTRL_SYNC); and what a host operation leaves alone. -/

namespace Sys2Proof.Machine

/-! Ends before the first link event. -/

/-- An operation whose body gives its result at once leaves its latches and the result, nothing else. -/
theorem hostOperation_pure {op : HostOp} {body : Link Result} {o : HostOperands} {s : State} {r : Result}
    (hs : s.seq = .idle) (hb : ∀ t : State, t.cardType = s.cardType → t.count = o.count → t.ioctlCmd = o.ioctlCmd →
      body t = .ok r t) :
    hostOperation op .transfer body o s = .next { s with
      op := op, drive := o.drive, sector := o.sector, count := o.count, ioctlCmd := o.ioctlCmd, result := r } := by
  rw [hostOperation_idle hs, hb { s.loadOperands op o with seq := .transfer } rfl rfl rfl]
  exact congrArg _ (returned_loaded s op o .transfer r hs)

theorem transferOperation_pure {op : HostOp} {body : Link Result} {o : HostOperands} {s : State} {r : Result}
    (hs : s.seq = .idle) (hlong : shortBuffer o s = false) (hb : ∀ t : State, t.cardType = s.cardType →
      t.count = o.count → t.ioctlCmd = o.ioctlCmd → body t = .ok r t) :
    transferOperation op body o s = .next { s with
      op := op, drive := o.drive, sector := o.sector, count := o.count, ioctlCmd := o.ioctlCmd, result := r } := by
  rw [transferOperation, hlong]
  exact hostOperation_pure hs hb

/-- A count of 0 ends a transfer after the gate (R150, R153). -/
theorem gated_count_zero {body : Link Result} {t : State} (hct : t.cardType ≠ .none) (hc : t.count = 0) :
    gated (Link.reading State.count fun count => if count = 0 then Link.pure .paramError else body) t
      = .ok .paramError t := by
  rw [gated_present hct, Link.reading, hc]
  rfl

theorem ioctlBody_unimplemented {t : State} (hct : t.cardType ≠ .none) (hc : t.ioctlCmd ≠ 0) :
    ioctlBody t = .ok .paramError t := by
  rw [ioctlBody, gated_present hct, Link.reading, if_neg hc]
  rfl

theorem statusBody_eq (t : State) : statusBody t = .ok (if t.cardType = .none then .notReady else .ok) t := by
  split
  · exact gated_absent ‹_›
  · exact gated_present ‹_›

/-! Refused calls. -/

theorem hostOperation_running {op : HostOp} {first : Seq} {body : Link Result} {o : HostOperands} {s : State}
    (h : s.seq ≠ .idle) : hostOperation op first body o s = .refused .operationRunning := if_neg h

theorem transferOperation_short {op : HostOp} {body : Link Result} {o : HostOperands} {s : State}
    (h : shortBuffer o s = true) : transferOperation op body o s = .refused .bufferTooShort := if_pos h

theorem transferOperation_running {op : HostOp} {body : Link Result} {o : HostOperands} {s : State}
    (h : s.seq ≠ .idle) :
    transferOperation op body o s = .refused .operationRunning ∨
      transferOperation op body o s = .refused .bufferTooShort := by
  unfold transferOperation
  split
  · exact .inr rfl
  · exact .inl (hostOperation_running h)

theorem shortBuffer_eq_true {o : HostOperands} {s : State} (hct : s.cardType ≠ .none) (hc : o.count ≠ 0)
    (hb : s.buf.size < o.count.toNat * 512) : shortBuffer o s = true := by
  have hsize : decide (s.buf.size < transferBytes o.count) = true := decide_eq_true hb
  simpa [shortBuffer, cardPresent, hct, hsize] using hc

/-! What a host operation leaves alone. -/

/-- A frame that hides what the return and a link fault write beside `seq`, and shows `seq`. -/
structure HostBlank (blank : State → State) : Prop where
  latched : ∀ s t : State, blank (s.unlatched { t with seq := s.seq }) = s.unlatched { blank t with seq := s.seq }
  deselected : ∀ t, blank t.deselected = blank t
  seq : ∀ t, (blank t).seq = t.seq

theorem hostBlank_wait : HostBlank State.waitBlank := ⟨fun _ _ => rfl, fun _ => rfl, fun _ => rfl⟩
theorem hostBlank_fetch : HostBlank State.fetchBlank := ⟨fun _ _ => rfl, fun _ => rfl, fun _ => rfl⟩
theorem hostBlank_store : HostBlank State.storeBlank := ⟨fun _ _ => rfl, fun _ => rfl, fun _ => rfl⟩

/-- An operation besides disk_initialize changes what its frame blanks, the latches and the result. -/
theorem settle_frame {blank : State → State} (hb : HostBlank blank) {body : Link Result} (hk : body.Keeps (Same blank))
    {s : State} (hs : s.seq = .idle) (op : HostOp) (o : HostOperands) :
    blank (s.unlatched (body { s.loadOperands op o with seq := .transfer }).settle) = blank s := by
  have hsame := hk { s.loadOperands op o with seq := .transfer }
  have hback : ∀ t, blank t = blank { s.loadOperands op o with seq := .transfer } →
      blank (s.unlatched { t with seq := s.seq }) = blank s := fun t ht => by
    rw [hb.latched, ht, ← hb.latched]
    rfl
  cases hm : body { s.loadOperands op o with seq := .transfer } with
  | ok r t =>
    rw [hm] at hsame
    rw [← hback t hsame, hs]
    rfl
  | fault code t =>
    rw [hm] at hsame
    have hseq : t.seq = .transfer := (hb.seq t).symm.trans ((congrArg State.seq hsame).trans (hb.seq _))
    have hct : (t.takeLinkFault code).cardType = t.cardType :=
      takeLinkFault_cardType_of_not_initializing (by rw [hseq]; rfl) code
    rw [← hback t.deselected ((hb.deselected t).trans hsame), hs]
    simp only [LinkResult.settle, State.takeLinkFault] at hct ⊢
    rw [hct]
    rfl

/-- The latches after the return, field by field (R14; log 28). -/
theorem HostBody.settle_operands {i : Instr} {op : HostOp} {first : Seq} {body : Link Result} {o : HostOperands}
    (h : HostBody i op first body o) (s : State) {t : State}
    (ht : (body { s.loadOperands op o with seq := first }).settle = t) :
    t.op = op ∧ t.drive = o.drive ∧ t.sector = o.sector ∧ t.count = o.count ∧ t.ioctlCmd = o.ioctlCmd := by
  have hl := h.settle_latches s
  rw [ht] at hl
  cases hl
  exact ⟨rfl, rfl, rfl, rfl, rfl⟩

/-! disk_ioctl(CTRL_SYNC). -/

theorem ioctlBody_ctrlSync {t : State} (hct : t.cardType ≠ .none) (hc : t.ioctlCmd = 0) :
    ioctlBody.wp (fun r u => ∃ ev, (∃ wait ok, ev = .sel :: wait ∧ WaitTrace 500 wait ok ∧ r = verdict ok) ∧
      Ran t u (ev ++ [.des])) anyFault t := by
  rw [ioctlBody, gated_wp hct, Link.wp_reading, if_pos hc, select, Link.wp_andThen, Link.wp_modify]
  refine Link.wp_mono (concluding_wp (P := fun ev ok _ => WaitTrace 500 ev ok) ?_) ?_ fun _ _ h => h
  · exact Link.wp_mono (waitReady_sound _ _) (fun _ _ h => h) fun _ _ h => h
  · rintro r u ⟨wait, ok, v, hwait, hran, rfl, rfl⟩
    exact ⟨.sel :: wait, ⟨wait, ok, rfl, hwait, rfl⟩, (Ran.sel t).trans (hran.trans (Ran.des v))⟩

theorem hostOperation_ctrlSync {i : Instr} {s : State} {o : HostOperands}
    (hbody : HostBody i .diskIoctl .transfer ioctlBody o) (hs : s.seq = .idle) (hct : s.cardType ≠ .none)
    (hc : o.ioctlCmd = 0) :
    ∃ t, hostOperation .diskIoctl .transfer ioctlBody o s = .next t ∧
      (HostEnds s t fun ev r => ∃ wait ok, ev = .sel :: wait ∧ WaitTrace 500 wait ok ∧ r = verdict ok) ∧
      t.op = .diskIoctl ∧ t.drive = o.drive ∧ t.sector = o.sector ∧ t.count = o.count ∧ t.ioctlCmd = o.ioctlCmd ∧
      (s.unlatched t).waitBlank = s.waitBlank := by
  obtain ⟨hop, hdrive, hsector, hcount, hcmd⟩ := hbody.settle_operands s rfl
  have hkeeps : ioctlBody.Keeps (Same State.waitBlank) :=
    ioctlBody_keeps readKept_waitBlank (fun _ => rfl) fun _ => rfl
  refine ⟨_, hostOperation_idle hs, ?_, hop, hdrive, hsector, hcount, hcmd,
    settle_frame hostBlank_wait hkeeps hs .diskIoctl o⟩
  exact Link.hostEnds (s1 := { s.loadOperands .diskIoctl o with seq := .transfer })
    (P := fun _ ev r => ∃ wait ok, ev = .sel :: wait ∧ WaitTrace 500 wait ok ∧ r = verdict ok) ioctlBody_runs
    (ioctlBody_ctrlSync hct hc) ⟨rfl, rfl, rfl, rfl, rfl⟩ fun _ _ _ h => h

end Sys2Proof.Machine

namespace Sys2Proof

open Machine

/-- Settles O33. -/
theorem diskStatusRow : Obligations.DiskStatusRow := fun s _ hs =>
  hostOperation_pure hs fun t hct _ _ => by rw [statusBody_eq, hct]

/-- Settles O34: the gate comes before the buffer is looked at. -/
theorem gateRefuses : Obligations.GateRefuses := by
  intro s o hs hct
  have hgate : ∀ {body : Link Result} (t : State), t.cardType = s.cardType → gated body t = .ok .notReady t :=
    fun t ht => gated_absent (ht.trans hct)
  have hlong := shortBuffer_absent (o := o) hct
  exact ⟨transferOperation_pure hs hlong fun t ht _ _ => hgate t ht,
    transferOperation_pure hs hlong fun t ht _ _ => hgate t ht, hostOperation_pure hs fun t ht _ _ => hgate t ht,
    hostOperation_pure hs fun t ht _ _ => hgate t ht⟩

/-- Settles O35. -/
theorem operandsRefused : Obligations.OperandsRefused := by
  intro s o hs hct
  refine ⟨fun hc => ?_, fun hc => ?_, fun hc => ?_⟩
  · exact transferOperation_pure hs (shortBuffer_zero hc) fun t ht hn _ =>
      gated_count_zero (by rwa [ht]) (hn.trans hc)
  · exact transferOperation_pure hs (shortBuffer_zero hc) fun t ht hn _ =>
      gated_count_zero (by rwa [ht]) (hn.trans hc)
  · exact hostOperation_pure hs fun t ht _ hn => ioctlBody_unimplemented (by rwa [ht]) (by rwa [hn])

/-- Settles O36. -/
theorem reservedCodes : Obligations.ReservedCodes := fun _ _ hs =>
  have hbody : ∀ t : State, reservedBody t = .ok .paramError t := fun _ => rfl
  ⟨hostOperation_pure hs fun t _ _ _ => hbody t, hostOperation_pure hs fun t _ _ _ => hbody t,
    hostOperation_pure hs fun t _ _ _ => hbody t⟩

/-- Settles O37: both forms run disk_ioctl's body. -/
theorem ctrlSyncRow : Obligations.CtrlSyncRow := by
  rintro s o i hs hct (⟨rfl, hc⟩ | ⟨rfl, rfl⟩)
  · exact hostOperation_ctrlSync (.ioctl o) hs hct hc
  · exact hostOperation_ctrlSync (.ctrlSync _ rfl) hs hct rfl

/-- Settles O41: the buffer of a transfer is looked at first (log 7). -/
theorem callsRefused : Obligations.CallsRefused := by
  refine ⟨fun s i hs hi => ?_, fun s o hct hc hb => ?_⟩
  · cases i with
    | diskRead o => exact (transferOperation_running hs).imp_right fun h => ⟨h, o, .inl rfl⟩
    | diskWrite o => exact (transferOperation_running hs).imp_right fun h => ⟨h, o, .inr rfl⟩
    | diskInitialize | diskStatus | diskIoctl | hostReserved5 | hostReserved6 | hostReserved7 | ctrlSync =>
      exact .inl (hostOperation_running hs)
    | _ => exact absurd rfl hi
  · have hshort := shortBuffer_eq_true hct hc hb
    exact ⟨transferOperation_short hshort, transferOperation_short hshort⟩

end Sys2Proof
end

section
/-! disk_read and disk_write on a present card (43_block_transfer R150, R153): how each ends, what the buffer holds then
(R35, R176), and the stop packet (R209 b). -/

namespace Sys2Proof.Machine

/-! The body past the gate and the operand checks. -/

theorem gated_count_nonzero {body : Link Result} {t : State} (hct : t.cardType ≠ .none) (hc : t.count ≠ 0) :
    gated (Link.reading State.count fun count => if count = 0 then Link.pure .paramError else body) t = body t := by
  rw [gated_present hct, Link.reading, if_neg hc]

theorem readBody_eq {t : State} (hct : t.cardType ≠ .none) (hc : t.count ≠ 0) :
    readBody t = concluding readTransfer t := gated_count_nonzero hct hc

theorem writeBody_eq {t : State} (hct : t.cardType ≠ .none) (hc : t.count ≠ 0) :
    writeBody t = concluding writeTransfer t := gated_count_nonzero hct hc

/-- A transfer's body on a present card, for at least one block: the transfer, Deselect, the verdict. -/
theorem transferBody_wp {m : Link Bool} {s : State} {P : State → List Event → Bool → Prop} (hct : s.cardType ≠ .none)
    (hc : s.count ≠ 0) (h : m.wp (fun ok t => ∃ ev, P t ev ok ∧ Ran s t ev) anyFault s)
    (hP : ∀ t ev ok, P t ev ok → P t.deselected ev ok) :
    (gated (Link.reading State.count fun count =>
      if count = 0 then Link.pure .paramError else concluding m)).wp
        (fun r t => ∃ ev, (∃ ok, r = verdict ok ∧ P t ev ok) ∧ Ran s t (ev ++ [.des])) anyFault s := by
  rw [gated_wp hct, Link.wp_reading, if_neg hc]
  refine Link.wp_mono (concluding_wp (P := fun ev ok t => P t ev ok) h) ?_ fun _ _ h => h
  rintro r _ ⟨ev, ok, t, hev, hran, rfl, rfl⟩
  exact ⟨ev, ⟨ok, rfl, hP t ev ok hev⟩, hran.trans (Ran.des t)⟩

theorem HostEnds.imp {s t : State} {P Q : List Event → Result → Prop} (h : HostEnds s t P)
    (hPQ : ∀ ev r, P ev r → Q ev r) : HostEnds s t Q := by
  obtain ⟨hseq, hcs, ⟨ev, r, hP, hran, hr⟩ | hfault⟩ := h
  · exact ⟨hseq, hcs, .inl ⟨ev, r, hPQ ev r hP, hran, hr⟩⟩
  · exact ⟨hseq, hcs, .inr hfault⟩

/-- The state a transfer leaves: it ended by itself and was deselected, or a link fault was taken. -/
theorem settle_concluding {m : Link Bool} {s : State} {Q : Bool → State → Prop} {F : Nat → State → Prop}
    (h : m.wp Q F s) :
    (∃ ok t, Q ok t ∧ (concluding m s).settle = t.deselected.returned (verdict ok)) ∨
      ∃ code t, F code t ∧ (concluding m s).settle = t.takeLinkFault code := by
  unfold Link.wp at h
  simp only [concluding, Link.bind]
  cases hm : m s with
  | ok a t =>
    rw [hm] at h
    exact .inl ⟨a, t, h, rfl⟩
  | fault code t =>
    rw [hm] at h
    exact .inr ⟨code, t, h, rfl⟩

theorem verdict_eq_ok {ok : Bool} : verdict ok = .ok ↔ ok = true := by
  cases ok <;> simp [verdict]

/-! What a disk_read leaves in the buffer. -/

theorem ReadTrace.ok_iff {addr count : Word} {ev : List Event} {blocks : List (List Byte)} {ok : Bool}
    (h : ReadTrace addr count ev blocks ok) (hc : count ≠ 0) : ok = true ↔ blocks.length = count.toNat := by
  have hpos : count.toNat ≠ 0 := fun hz => hc (BitVec.eq_of_toNat_eq hz)
  cases h with
  | single hone h =>
    subst hone
    cases h <;> simp
  | multi _ h =>
    cases h with
    | rejected => simp
    | opened => simp

theorem ReadTrace.block_length {addr count : Word} {ev : List Event} {blocks : List (List Byte)} {ok : Bool}
    (h : ReadTrace addr count ev blocks ok) : ∀ b ∈ blocks, b.length = 512 := by
  cases h with
  | single _ h =>
    obtain ⟨hlen, -⟩ := h.blocks_length
    exact hlen
  | multi _ h =>
    obtain ⟨hlen, -⟩ := h.blocks_length
    exact hlen

theorem bufByte_of_store {s t : State} {blocks : List (List Byte)} (hlen : ∀ b ∈ blocks, b.length = 512)
    (h : t.buf = ⟨s.buf.size, s.buf.cells.store 0 blocks.flatten⟩) {a : Nat} (ha : blocks.length * 512 ≤ a) :
    t.bufByte a = s.bufByte a := by
  rw [State.bufByte, h]
  exact Memory.read_store_other (.inr (by rw [flatten_blocks_length hlen]; omega))

theorem Stored.blocks_eq {t : State} {blocks : List (List Byte)} (h : Stored t blocks) :
    t.blocks blocks.length = blocks := by
  refine List.ext_getElem (by simp [State.blocks]) fun k _ hk => ?_
  simpa [State.blocks] using h k hk

/-- The first `k` blocks of the buffer of `t` arrived whole since `s`, after an accepted command with argument `addr`;
every byte after them is as in `s` (R35). -/
def Fetched (addr : Word) (s t : State) (k : Nat) : Prop :=
  ∃ sent loop rest, t.trace = s.trace ++ (sent ++ (loop ++ rest)) ∧ k ≤ s.count.toNat ∧
    BlocksInTrace k loop (t.blocks k) ∧ (∀ a, k * 512 ≤ a → t.bufByte a = s.bufByte a) ∧
    (k ≠ 0 → CommandTrace ⟨false, if s.count = 1 then 17 else 18⟩ addr sent 0)

/-- How many blocks that is: `done` of them for a multi-block read, the one block of a single-block read only where it
succeeded. -/
def FetchedCount (ok : Bool) (s t : State) (k : Nat) : Prop :=
  (s.count = 1 → ok = false → k = 0) ∧ (s.count ≠ 1 → k = t.done.toNat)

theorem Fetched.none {addr : Word} {s t : State} {ev : List Event} (ht : t.trace = s.trace ++ ev)
    (hb : t.buf = s.buf) : Fetched addr s t 0 :=
  ⟨ev, [], [], by simpa using ht, Nat.zero_le _, .done, fun a _ => by rw [State.bufByte, hb]; rfl,
    fun h => absurd rfl h⟩

theorem Fetched.later {addr : Word} {s t u : State} {k : Nat} {more : List Event} (h : Fetched addr s t k)
    (ht : u.trace = t.trace ++ more) (hb : u.buf = t.buf) : Fetched addr s u k := by
  obtain ⟨sent, loop, rest, htrace, hk, hloop, hout, hcmd⟩ := h
  refine ⟨sent, loop, rest ++ more, by rw [ht, htrace]; simp, hk, by rwa [State.blocks_congr hb], fun a ha => ?_, hcmd⟩
  rw [State.bufByte, hb]
  exact hout a ha

/-- CMD17 and its block: the block stands in the buffer only where it arrived whole. -/
theorem cmd17_fetched (addr : Word) {s : State} (hone : s.count = 1) (hwf : s.buf.cells.wf) :
    (cmd17 addr).wp (fun ok t => ∃ k, Fetched addr s t k ∧ FetchedCount ok s t k)
      (fun _ t => ∃ k, Fetched addr s t k ∧ FetchedCount false s t k) s := by
  have hzero : ∀ (ok : Bool) (t : State), FetchedCount ok s t 0 := fun _ _ =>
    ⟨fun _ _ => rfl, fun hne => absurd hone hne⟩
  refine Link.wp_mono (Link.wp_and (cmd17_wp addr s) (Link.wp_and (cmd17_fault addr s) ((cmd17_runs addr).ends s)))
    ?_ ?_
  · rintro ok t ⟨⟨ev, blocks, hev, hran, hbuf⟩, -⟩
    obtain ⟨hlen, -⟩ := hev.blocks_length
    have hstored := stored_of_store hlen hwf hbuf
    cases hev with
    | rejected ev r hcmd hr => exact ⟨0, .none hran.trace hbuf, hzero _ _⟩
    | failed ev block hcmd hblock => exact ⟨0, .none hran.trace hbuf, hzero _ _⟩
    | stored ev block data hcmd hblock =>
      refine ⟨1, ⟨ev, block, [], by simpa using hran.trace, by rw [hone]; rfl, ?_, fun a ha => ?_, fun _ => ?_⟩,
        nofun, fun hne => absurd hone hne⟩
      · rw [show t.blocks 1 = [data] from hstored.blocks_eq]
        simpa using BlocksInTrace.more 0 block [] data [] hblock .done
      · exact bufByte_of_store hlen hbuf (by simpa using ha)
      · rw [if_pos hone]
        exact hcmd
  · rintro code t ⟨-, hbuf, ev, hab⟩
    exact ⟨0, .none hab.trace hbuf, hzero _ _⟩

/-- CMD18 and its blocks: `done` of them stand in the buffer, however it ends. -/
theorem cmd18_fetched (addr : Word) {s : State} (hne : s.count ≠ 1) (hwf : s.buf.cells.wf) :
    (cmd18 addr).wp (fun ok t => ∃ k, Fetched addr s t k ∧ FetchedCount ok s t k)
      (fun _ t => ∃ k, Fetched addr s t k ∧ FetchedCount false s t k) s := by
  have hall : ∀ (ok : Bool) (t : State), (∃ sent,
      Arrived s.count.toNat { s with done := 0, trace := s.trace ++ sent } t ∧ (t.done = 0 ∨ CommandTrace cmd18Value addr sent 0)) → ∃ k, Fetched addr s t k ∧ FetchedCount ok s t k := by
    rintro ok t ⟨sent, harr, hcmd⟩
    obtain ⟨loop, rest, htrace, hk, hloop⟩ := harr.blocks rfl hwf
    obtain ⟨-, hout⟩ := harr.outside rfl
    refine ⟨t.done.toNat, ⟨sent, loop, rest, by simpa using htrace, hk, hloop, hout, fun hdone => ?_⟩,
      fun hone => absurd hone hne, fun _ => rfl⟩
    rw [if_neg hne]
    exact hcmd.resolve_left fun hz => hdone (by rw [hz]; rfl)
  exact Link.wp_mono (cmd18_arrived addr s) (fun ok t => hall ok t) fun _ t => hall false t

theorem readTransfer_fetched {s : State} (hwf : s.buf.cells.wf) :
    readTransfer.wp (fun ok t => ∃ k, Fetched (translate s.cardType s.sector) s t k ∧ FetchedCount ok s t k)
      (fun _ t => ∃ k, Fetched (translate s.cardType s.sector) s t k ∧ FetchedCount false s t k) s := by
  simp only [readTransfer, translateSector, Link.wp_andThen, Link.wp_modify, Link.wp_reading]
  by_cases hone : s.count = 1
  · rw [if_pos hone]
    exact cmd17_fetched (translate s.cardType s.sector)
      (s := { s with addr := translate s.cardType s.sector }) hone hwf
  · rw [if_neg hone]
    exact cmd18_fetched (translate s.cardType s.sector)
      (s := { s with addr := translate s.cardType s.sector }) hone hwf

/-- What a disk_read has fetched when it returned, by itself or by a link fault. -/
theorem concluding_fetched {s t : State} (hwf : s.buf.cells.wf) (ht : t = (concluding readTransfer s).settle) :
    ∃ k, Fetched (translate s.cardType s.sector) s t k ∧ (s.count = 1 → t.result ≠ .ok → k = 0) ∧
      (s.count ≠ 1 → k = t.done.toNat) := by
  rcases settle_concluding (readTransfer_fetched hwf) with
    ⟨ok, u, ⟨k, hk, hone, hmany⟩, hset⟩ | ⟨code, u, ⟨k, hk, hone, hmany⟩, hset⟩
  · rw [ht, hset]
    refine ⟨k, hk.later (u := u.deselected.returned (verdict ok)) (more := [.des]) rfl rfl, fun hc hr => ?_, hmany⟩
    exact hone hc (Bool.eq_false_iff.mpr fun hok => hr (verdict_eq_ok.mpr hok))
  · rw [ht, hset]
    exact ⟨k, hk.later (u := u.takeLinkFault code) (more := [.des]) rfl rfl, fun hc _ => hone hc rfl, hmany⟩

/-- A disk_read that returned OK: every block arrived after an accepted command, and CMD12 closed a multi-block one. -/
theorem concluding_ok {s t : State} (hwf : s.buf.cells.wf) (hc : s.count ≠ 0)
    (ht : t = (concluding readTransfer s).settle) (hr : t.result = .ok) :
    ∃ sent loop stop, t.trace = s.trace ++ (sent ++ (loop ++ (stop ++ [.des]))) ∧
      BlocksInTrace s.count.toNat loop (t.blocks s.count.toNat) ∧
      (s.count = 1 → stop = [] ∧ CommandTrace cmd17Value (translate s.cardType s.sector) sent 0) ∧
      (s.count ≠ 1 → CommandTrace cmd18Value (translate s.cardType s.sector) sent 0 ∧
        ∃ r, CommandTrace cmd12Value 0 stop r) := by
  rcases settle_concluding (readTransfer_wp s) with ⟨ok, u, ⟨ev, blocks, hev, hran, hbuf⟩, hset⟩ | ⟨code, u, -, hset⟩
  · rw [ht, hset] at hr
    rw [ht, hset]
    obtain rfl := verdict_eq_ok.mp hr
    have hlen := (hev.ok_iff hc).mp rfl
    have hblocks : u.blocks s.count.toNat = blocks :=
      hlen ▸ (stored_of_store hev.block_length hwf hbuf).blocks_eq
    have htrace : u.deselected.trace = s.trace ++ (ev ++ [.des]) := by simp [hran.trace]
    have hend : (u.deselected.returned .ok).blocks s.count.toNat = blocks :=
      (State.blocks_congr rfl _).trans hblocks
    rw [show verdict true = .ok from rfl, hend]
    cases hev with
    | single hone h =>
      cases h with
      | stored sent block data hcmd hblock =>
        refine ⟨sent, block, [], by simpa using htrace, ?_, fun _ => ⟨rfl, hcmd⟩, fun hne => absurd hone hne⟩
        rw [hone]
        simpa using BlocksInTrace.more 0 block [] data [] hblock .done
    | multi hne h =>
      generalize htrue : true = ok at h
      cases h with
      | rejected _ r hcmd hr =>
        exact absurd (BitVec.eq_of_toNat_eq hlen.symm) hc
      | opened sent loop stop blocks r hcmd hloop hstop =>
        exact ⟨sent, loop, stop, by simpa using htrace, hloop, fun hone => absurd hone hne, fun _ => ⟨hcmd, r, hstop⟩⟩
  · rw [ht, hset] at hr
    cases hr

/-! disk_read and disk_write as instructions. -/

/-- A disk_read that the gate or the count ends reads nothing and does not return OK. -/
theorem diskRead_refused {s t : State} {o : HostOperands} (hs : s.seq = .idle)
    (hnone : ¬ (s.cardType ≠ .none ∧ o.count ≠ 0)) (h : exec (.diskRead o) s = .next t) :
    t.result ≠ .ok ∧ t.trace = s.trace ∧ t.buf = s.buf := by
  by_cases hct : s.cardType = .none
  · obtain ⟨hread, -⟩ := gateRefuses s o hs hct
    cases hread.symm.trans h
    exact ⟨nofun, rfl, rfl⟩
  · obtain ⟨hread, -⟩ := operandsRefused s o hs hct
    cases (hread (by_contra fun hc => hnone ⟨hct, hc⟩)).symm.trans h
    exact ⟨nofun, rfl, rfl⟩

theorem transferOperation_enough {op : HostOp} {body : Link Result} {o : HostOperands} {s : State}
    (hs : s.seq = .idle) (hb : o.count.toNat * 512 ≤ s.buf.size) :
    transferOperation op body o s = .next (body { s.loadOperands op o with seq := .transfer }).settle := by
  rw [transferOperation, shortBuffer_enough hb]
  exact hostOperation_idle hs

/-- A transfer of at least one block on a present card ends as its body says. -/
theorem transferBody_ends {m : Link Bool} {s s1 : State} {P : State → List Event → Bool → Prop}
    (hruns : (gated (Link.reading State.count fun count =>
      if count = 0 then Link.pure .paramError else concluding m)).Runs)
    (hct : s1.cardType ≠ .none) (hc : s1.count ≠ 0)
    (hm : m.wp (fun ok t => ∃ ev, P t ev ok ∧ Ran s1 t ev) anyFault s1)
    (hs : s1.trace = s.trace ∧ s1.cs = s.cs ∧ s1.oracle = s.oracle ∧ s1.draws = s.draws ∧ s1.params = s.params)
    (hdes : ∀ t ev ok, P t ev ok → P t.deselected ev ok) (hret : ∀ t ev ok r, P t ev ok → P (t.returned r) ev ok)
    {t : State} (ht : t = (concluding m s1).settle) :
    HostEnds s t fun ev r => ∃ ok, r = verdict ok ∧ P t ev ok := by
  rw [ht, ← gated_count_nonzero (body := concluding m) hct hc]
  exact Link.hostEnds (P := fun t ev r => ∃ ok, r = verdict ok ∧ P t ev ok) hruns (transferBody_wp hct hc hm hdes) hs
    fun t ev r ⟨ok, hr, hP⟩ => ⟨ok, hr, hret t ev ok r hP⟩

/-- What a read of `count` blocks with the command argument `addr` left, having ended by itself. -/
structure ReadLeft (addr count : Word) (s t : State) (ev : List Event) (blocks : List (List Byte)) (ok : Bool) :
    Prop where
  trace : ReadTrace addr count ev blocks ok
  buffer : t.buf = ⟨s.buf.size, s.buf.cells.store 0 blocks.flatten⟩

theorem diskRead_ends {s t : State} {o : HostOperands} (hct : s.cardType ≠ .none) (hc : o.count ≠ 0)
    (ht : t = (concluding readTransfer { s.loadOperands .diskRead o with seq := .transfer }).settle) :
    HostEnds s t fun ev r => ∃ ok, r = verdict ok ∧
      ∃ blocks, ReadLeft (translate s.cardType o.sector) o.count s t ev blocks ok := by
  refine transferBody_ends (s := s) (s1 := { s.loadOperands .diskRead o with seq := .transfer })
    (P := fun t ev ok => ∃ blocks, ReadLeft (translate s.cardType o.sector) o.count s t ev blocks ok)
    readBody_runs hct hc (Link.wp_mono (readTransfer_wp _) ?_ fun _ _ h => h) ⟨rfl, rfl, rfl, rfl, rfl⟩
    (fun _ _ _ ⟨blocks, h⟩ => ⟨blocks, h.trace, h.buffer⟩) (fun _ _ _ _ ⟨blocks, h⟩ => ⟨blocks, h.trace, h.buffer⟩) ht
  rintro ok t ⟨ev, blocks, hev, hran, hbuf⟩
  exact ⟨ev, ⟨blocks, hev, hbuf⟩, hran⟩

theorem diskWrite_ends {s t : State} {o : HostOperands} (hct : s.cardType ≠ .none) (hc : o.count ≠ 0)
    (ht : t = (concluding writeTransfer { s.loadOperands .diskWrite o with seq := .transfer }).settle) :
    HostEnds s t fun ev r => ∃ ok, r = verdict ok ∧
      WriteTrace (translate s.cardType o.sector) o.count (sendsAcmd23 s) (s.blocks o.count.toNat) ev ok := by
  refine transferBody_ends (s := s) (s1 := { s.loadOperands .diskWrite o with seq := .transfer })
    (P := fun _ ev ok =>
      WriteTrace (translate s.cardType o.sector) o.count (sendsAcmd23 s) (s.blocks o.count.toNat) ev ok)
    writeBody_runs hct hc (writeTransfer_wp _) ⟨rfl, rfl, rfl, rfl, rfl⟩ (fun _ _ _ h => h) (fun _ _ _ _ h => h) ht

end Sys2Proof.Machine

namespace Sys2Proof

open Machine

/-- Settles O38: `done` of the blocks at most stand in the buffer however the read ends, so none past `count`. -/
theorem diskReadRow : Obligations.DiskReadRow := by
  intro s o hs hct hc hb hwf
  obtain ⟨hop, hdrive, hsector, hcount, hcmd⟩ := (HostBody.read o).settle_operands s rfl
  have hbody := readBody_eq (t := { s.loadOperands .diskRead o with seq := .transfer }) hct hc
  obtain ⟨k, ⟨-, -, -, -, hk, -, hout, -⟩, -⟩ :=
    concluding_fetched (s := { s.loadOperands .diskRead o with seq := .transfer }) hwf rfl
  rw [← hbody] at hout
  refine ⟨_, transferOperation_enough hs hb, ?_, hop, hdrive, hsector, hcount, hcmd,
    settle_frame hostBlank_fetch (readBody_keeps fetchKept_blank) hs .diskRead o, fun a ha => hout a ?_⟩
  · refine (diskRead_ends hct hc (congrArg _ hbody)).imp fun ev r => ?_
    rintro ⟨ok, hr, blocks, hev, hbuf⟩
    have hlen := hev.block_length
    exact ⟨ok, blocks, hr, hev, stored_of_store hlen hwf hbuf, fun a ha => bufByte_of_store hlen hbuf ha, hev.ok_iff hc⟩
  · exact (Nat.mul_le_mul_right 512 hk).trans ha

/-- Settles O39. -/
theorem diskWriteRow : Obligations.DiskWriteRow := by
  intro s o hs hct hc hb
  obtain ⟨hop, hdrive, hsector, hcount, hcmd⟩ := (HostBody.write o).settle_operands s rfl
  have hbody := writeBody_eq (t := { s.loadOperands .diskWrite o with seq := .transfer }) hct hc
  exact ⟨_, transferOperation_enough hs hb, diskWrite_ends hct hc (congrArg _ hbody), hop, hdrive, hsector, hcount,
    hcmd, settle_frame hostBlank_store (writeBody_keeps storeKept_blank) hs .diskWrite o⟩

/-- Settles O54: the grammar of CMD25, whose opened transfer ends with the stop packet. -/
theorem stopPacketAlways : Obligations.StopPacketAlways := by
  intro s t o hct hc h hno
  obtain ⟨-, ht⟩ := transferOperation_next h
  have hc0 : o.count ≠ 0 := by rintro h0; rw [h0] at hc; simp at hc
  rw [writeBody_eq (t := { s.loadOperands .diskWrite o with seq := .transfer }) hct hc0] at ht
  obtain ⟨-, -, ⟨ev, r, ⟨ok, rfl, hev⟩, hran, hr⟩ | ⟨ev, code, hfault⟩⟩ := diskWrite_ends hct hc0 ht
  · have htrace := hran.trace
    cases hev with
    | single _ _ _ hone => rw [hone] at hc; simp at hc
    | multi erase ev _ _ hpre hev =>
      cases hev with
      | rejected ev r hcmd hne =>
        exact ⟨erase, ev, [], r, by simpa using htrace, hpre, hcmd, fun _ => ⟨rfl, hr⟩, fun h0 => absurd h0 hne⟩
      | opened ev loop stop accepted stopped hcmd hloop hstop =>
        refine ⟨erase, ev, loop ++ stop, 0, by simpa using htrace, hpre, hcmd, fun h0 => absurd rfl h0, fun _ =>
          ⟨loop, stop, accepted, stopped, rfl, hloop, hstop, ?_⟩⟩
        rw [hr]
        simp [verdict, State.blocks]
  · exact absurd hfault.result (hno code)

/-- Settles O55: what CMD17 and CMD18 leave however they end; before the gate and the count nothing is read. -/
theorem readStoresWholeBlocks : Obligations.ReadStoresWholeBlocks := by
  intro s t o hs hwf _ h
  by_cases hpresent : s.cardType ≠ .none ∧ o.count ≠ 0
  · obtain ⟨hct, hc⟩ := hpresent
    obtain ⟨-, rfl⟩ := transferOperation_next h
    rw [readBody_eq (t := { s.loadOperands .diskRead o with seq := .transfer }) hct hc]
    refine ⟨fun hr => ⟨hct, hc, ?_⟩, ?_⟩
    · exact concluding_ok (s := { s.loadOperands .diskRead o with seq := .transfer }) hwf hc rfl hr
    · obtain ⟨k, ⟨sent, loop, rest, htrace, hk, hloop, hout, hcmd⟩, hone, hmany⟩ :=
        concluding_fetched (s := { s.loadOperands .diskRead o with seq := .transfer }) hwf rfl
      exact ⟨k, sent, loop, rest, htrace, hk, hloop, hout, hcmd, hone, fun hne _ _ => hmany hne⟩
  · obtain ⟨hr, htrace, hbuf⟩ := diskRead_refused hs hpresent h
    refine ⟨fun hok => absurd hok hr, 0, [], [], [], by simpa using htrace, Nat.zero_le _, .done, fun a _ => ?_,
      fun h0 => absurd rfl h0, fun _ _ => rfl, fun _ hc hct => absurd ⟨hct, hc⟩ hpresent⟩
    rw [State.bufByte, hbuf]
    rfl

end Sys2Proof
end

section
/-! disk_initialize (42_card_initializer R120 to R135): how it ends, the four accepted sequences, its bounds, and that
the chain of phases is the one block of R131 and does not look at the old card type. -/

namespace Sys2Proof.Machine

/-! The old card type and the phases. -/

/-- A link fault during disk_initialize leaves the same state whatever the phase and the card type were. -/
theorem takeLinkFault_of_initializing {t : State} (h : t.seq.initializing = true) (code : Nat) :
    t.takeLinkFault code = { t.deselected with cardType := .none, result := .linkFault code, seq := .idle } := by
  simp only [State.takeLinkFault, h, if_true]

theorem settle_eq_of_samePhased {a b : LinkResult Result} (h : SamePhased a b)
    (ha : a.state.seq.initializing = true) (hb : b.state.seq.initializing = true) : a.settle = b.settle := by
  have hforget : ∀ r : LinkResult Result, r.state.seq.initializing = true →
      r.settle = (r.map State.unphased).settle := by
    intro r hr
    cases r with
    | ok r t => rfl
    | fault code t =>
      exact (takeLinkFault_of_initializing (t := t) hr code).trans
        (takeLinkFault_of_initializing (t := t.unphased) rfl code).symm
  rw [hforget a ha, hforget b hb, h]

theorem initializeCard_initializing {s : State} (hs : s.seq = .reset) :
    (initializeCard s).state.seq.initializing = true :=
  initializeCard_keeps initKept_initializing s (by rw [hs]; rfl)

/-- The one block writes no phase. -/
theorem initializeFlat_seq {s : State} (hs : s.seq = .reset) : (initializeFlat s).state.seq = .reset := by
  have h := unseen_seq .reset
  have hflat : initializeFlat.Ignores fun s => { s with seq := .reset } := by
    rw [initializeFlat_eq]
    exact .andThen (h.setTy _) (.andThen h.sel (.andThen (writeBytes_ignores h _)
      (.andThen (flatIdentify_ignores h) (flatConclude_ignores_seq _))))
  have hsame : { s with seq := .reset } = s := by rw [← hs]
  rw [← hsame, hflat s]
  cases initializeFlat s <;> rfl

/-- The five phases before `Ready` or `Failed` (R120). -/
def identification : Link Unit :=
  Link.andThen nextPhase (Link.andThen nextPhase (Link.andThen nextPhase (Link.andThen nextPhase nextPhase)))

theorem initializeCard_eq : initializeCard = Link.andThen identification phaseConclude := by
  simp only [initializeCard, identification, Link.andThen_assoc]

theorem identification_ignores_cardType (ct : CardType) : identification.Ignores fun s => { s with cardType := ct } :=
  have hphase : nextPhase.Ignores fun s => { s with cardType := ct } :=
    nextPhase_ignores { unseen_cardType ct with seq := fun _ => rfl, setSeq := fun _ _ => rfl }
  .andThen hphase (.andThen hphase (.andThen hphase (.andThen hphase hphase)))

/-- The conclusion overwrites the card type, and so does a link fault during the phases. -/
theorem initializeCard_settle_cardType {s : State} (hs : s.seq = .reset) (ct : CardType) :
    (initializeCard { s with cardType := ct }).settle = (initializeCard s).settle := by
  have hinit := initializeCard_initializing hs
  rw [initializeCard_eq] at hinit ⊢
  simp only [Link.andThen, Link.bind, identification_ignores_cardType ct s] at hinit ⊢
  cases hm : identification s with
  | ok _ t => rfl
  | fault code t =>
    rw [hm] at hinit
    exact (takeLinkFault_of_initializing (t := { t with cardType := ct }) hinit code).trans
      (takeLinkFault_of_initializing hinit code).symm

/-! How it ends. -/

theorem initializeCard_frame (s : State) (o : HostOperands) :
    (s.unlatched (initializeCard { s.loadOperands .diskInitialize o with seq := .reset }).settle).initBlank
      = s.initBlank :=
  settle_same (fun t => (s.unlatched t).initBlank)
    (fun t => congrArg (State.unlatched s) (initializeCard_keeps initKept_blank t)) (fun _ _ => rfl) fun _ _ => rfl

theorem initializeCard_ends (s : State) (o : HostOperands) {t : State}
    (ht : t = (initializeCard { s.loadOperands .diskInitialize o with seq := .reset }).settle) :
    HostEnds s t fun ev r => ∃ ct, InitializeTrace ev ct ∧ t.cardType = ct ∧
      r = if ct = .none then .notReady else .ok := by
  subst ht
  refine Link.hostEnds (s1 := { s.loadOperands .diskInitialize o with seq := .reset })
    (P := fun t ev r => ∃ ct, InitializeTrace ev ct ∧ t.cardType = ct ∧ r = if ct = .none then .notReady else .ok)
    initializeCard_runs (Link.wp_mono (initializeCard_wp _ rfl) ?_ fun _ _ h => h) ⟨rfl, rfl, rfl, rfl, rfl⟩
    fun _ _ _ h => h
  rintro r t ⟨ev, ct, hev, hran, hct, hr⟩
  exact ⟨ev, ⟨ct, hev, hct, hr⟩, hran⟩

/-! The accepted sequences (R132). -/

theorem LengthTrace.kept_of_ne {ct ct' : CardType} {len : List Event} (h : LengthTrace ct len ct') (hne : ct' ≠ .none) :
    ct' = ct ∧ CommandTrace cmd16Value 512 len 0 := by
  cases h with
  | kept hcmd => exact ⟨rfl, hcmd⟩
  | lost => exact absurd rfl hne

theorem InitializeTrace.accepted {ev : List Event} {ct : CardType} (h : InitializeTrace ev ct) (hne : ct ≠ .none) :
    AcceptedTrace ev ct := by
  cases h with
  | woken wake ev ct hwake hid =>
    cases hid with
    | noCard => exact absurd rfl hne
    | noEcho => exact absurd rfl hne
    | advanced ev0 ev8 ev b0 b1 _ h0 h8 hadv =>
      cases hadv with
      | exhausted => exact absurd rfl hne
      | noOcr => exact absurd rfl hne
      | classified loop ev58 len t0 t1 t2 t3 _ hloop h58 hlen =>
        obtain ⟨rfl, h16⟩ := hlen.kept_of_ne hne
        cases hbit : t0.getLsbD 6 with
        | true => exact .highCapacity wake ev0 ev8 loop ev58 len b0 b1 t0 t1 t2 t3 hwake h0 h8 hloop h58 hbit h16
        | false => exact .standardCapacity wake ev0 ev8 loop ev58 len b0 b1 t0 t1 t2 t3 hwake h0 h8 hloop h58 hbit h16
    | legacy ev0 ev8 ev r8 _ h0 h8 hr8 hleg =>
      cases hleg with
      | sd1Exhausted => exact absurd rfl hne
      | mmcExhausted => exact absurd rfl hne
      | sd1 probe loop len r _ hprobe hr hloop hlen =>
        obtain ⟨rfl, h16⟩ := hlen.kept_of_ne hne
        exact .legacySd wake ev0 ev8 probe loop len r8 r hwake h0 h8 hr8 hprobe hr hloop h16
      | mmc probe loop len r _ hprobe hr hloop hlen =>
        obtain ⟨rfl, h16⟩ := hlen.kept_of_ne hne
        exact .legacyMmc wake ev0 ev8 probe loop len r8 r hwake h0 h8 hr8 hprobe hr hloop h16

/-! Bounds (R134). -/

theorem CommandTrace.toStandard {cmd : Command} {arg : Word} {ev : List Event} {r : Byte}
    (h : CommandTrace cmd arg ev r) (hstd : cmd.app = false) : StandardTrace cmd.index arg ev r := by
  cases h with
  | standard _ _ _ h => exact h
  | aborted _ _ happ => exact absurd happ (by simp [hstd])
  | application _ _ _ _ happ => exact absurd happ (by simp [hstd])

theorem CommandTrace.standard_le {cmd : Command} {arg : Word} {ev : List Event} {r : Byte}
    (h : CommandTrace cmd arg ev r) (hstd : cmd.app = false) : exchanges ev ≤ 516 := by
  obtain ⟨-, hle, -⟩ := (h.toStandard hstd).selected
  exact hle

theorem CommandTrace.le {cmd : Command} {arg : Word} {ev : List Event} {r : Byte} (h : CommandTrace cmd arg ev r) :
    exchanges ev ≤ 1032 := by
  cases h with
  | standard _ _ _ h =>
    obtain ⟨-, hle, -⟩ := h.selected
    omega
  | aborted _ _ _ h =>
    obtain ⟨-, hle, -⟩ := h.selected
    omega
  | application first second _ _ _ h1 _ h2 =>
    obtain ⟨-, hle, -⟩ := h1.application_bounds h2 .asserted
    exact hle

theorem RetryTrace.le {cmd : Command} {arg : Word} {n : Nat} {ev : List Event} {ok : Bool}
    (h : RetryTrace cmd arg n ev ok) : exchanges ev ≤ n * 1032 := by
  induction h with
  | exhausted => exact Nat.le_refl 0
  | ready n ev h =>
    have := h.le
    omega
  | again n ev rest r ok h _ _ ih =>
    have := h.le
    rw [exchanges_append]
    omega

/-- An empty slot answers 0xFF to every exchange: the first poll of wait_ready ends it. -/
theorem WaitTrace.empty_slot {n : Nat} {ev : List Event} {ok : Bool} (h : WaitTrace n ev ok) (hn : 0 < n)
    (hff : ∀ b ∈ received ev, b = 0xFF) : ok = true ∧ exchanges ev = 1 := by
  cases h with
  | ready busy hlen hbusy =>
    rw [received_reads] at hff
    cases busy with
    | nil => exact ⟨rfl, rfl⟩
    | cons b busy => exact absurd (hff b (by simp)) (hbusy b (by simp))
  | never busy hlen hbusy =>
    rw [received_reads] at hff
    cases busy with
    | nil => exact absurd hlen (by simp; omega)
    | cons b busy => exact absurd (hff b (by simp)) (hbusy b (by simp))

/-- No byte an empty slot answers is an R1: the poll is exhausted. -/
theorem R1Trace.empty_slot {ev : List Event} {r : Byte} (h : R1Trace ev r) (hff : ∀ b ∈ received ev, b = 0xFF) :
    exchanges ev = 10 ∧ r = 0xFF := by
  cases h with
  | valid pending r hlen hpending hr =>
    rw [received_reads] at hff
    obtain rfl : r = 0xFF := hff r (by simp)
    exact absurd hr (by decide)
  | exhausted pending r hlen =>
    rw [received_reads] at hff
    exact ⟨by simp [hlen], hff r (by simp)⟩

/-- On an empty slot a frame is one idle byte, six bytes sent and ten polls (R134). -/
theorem StandardTrace.empty_slot {index : BitVec 6} {arg : Word} {ev : List Event} {r : Byte} (hi : index ≠ 12)
    (h : StandardTrace index arg ev r) (hff : ∀ b ∈ received ev, b = 0xFF) : exchanges ev = 17 ∧ r = 0xFF := by
  cases h with
  | stopTransmission _ _ h12 => exact absurd h12 hi
  | busy wait _ hw =>
    obtain ⟨hready, -⟩ := hw.empty_slot (by decide) fun b hb => hff b (by simpa [received] using hb)
    cases hready
  | sent wait frame r _ hw hf =>
    cases hf with
    | sent dropped poll r hlen hr =>
      have hsix : exchanges (writes (frameBytes index arg) dropped) = 6 := exchanges_writes hlen
      obtain ⟨-, hone⟩ := hw.empty_slot (by decide) fun b hb => hff b (by simp [received, hb])
      obtain ⟨hten, rfl⟩ := hr.empty_slot fun b hb => hff b (by simp [received, hb])
      exact ⟨by simp [hone, hsix, hten], rfl⟩

/-- CMD0 is the first frame of every disk_initialize. -/
theorem IdentifyTrace.cmd0 {ev : List Event} {ct : CardType} (h : IdentifyTrace ev ct) :
    ∃ ev0 rest r, ev = ev0 ++ rest ∧ CommandTrace cmd0Value 0 ev0 r ∧ (r ≠ 1 → rest = []) := by
  cases h with
  | noCard ev r h => exact ⟨ev, [], r, by simp, h, fun _ => rfl⟩
  | noEcho _ _ _ _ _ _ h => exact ⟨_, _, 1, rfl, h, fun hne => absurd rfl hne⟩
  | advanced _ _ _ _ _ _ h => exact ⟨_, _, 1, rfl, h, fun hne => absurd rfl hne⟩
  | legacy _ _ _ _ _ h => exact ⟨_, _, 1, rfl, h, fun hne => absurd rfl hne⟩

theorem InitializeTrace.bounds {ev : List Event} {ct : CardType} (h : InitializeTrace ev ct) :
    18 ≤ exchanges ev ∧ ((∀ b ∈ received ev, b = 0xFF) → exchanges ev = 27) := by
  cases h with
  | woken wake ev ct hwake hid =>
    obtain ⟨ev0, rest, r, rfl, hcmd, hend⟩ := hid.cmd0
    have hstd := hcmd.toStandard rfl
    have hwoken : exchanges (writes (List.replicate 10 0xFF) wake) = 10 := exchanges_writes hwake
    obtain ⟨hlo, -⟩ := hstd.bounds (by decide) .asserted
    simp only [exchanges_sel, exchanges_append, hwoken]
    refine ⟨by omega, fun hff => ?_⟩
    obtain ⟨hall, rfl⟩ := hstd.empty_slot (by decide) fun b hb => hff b (by simp [received, hb])
    rw [hall, hend (by decide)]
    rfl

theorem AcceptedTrace.v2_le {ev : List Event} {ct : CardType} (h : AcceptedTrace ev ct) (hct : ct = .sd2 ∨ ct = .sdc) :
    exchanges ev ≤ 1034082 := by
  have hv2 : ∀ {wake : List Byte} {ev0 ev8 loop ev58 ev16 : List Event} {b0 b1 t0 t1 t2 t3 : Byte}, wake.length = 10 →
      CommandTrace cmd0Value 0 ev0 1 → CommandTrace cmd8Value 0x1AA ev8 1 →
      RetryTrace acmd41Value 0x40000000 1000 loop true → CommandTrace cmd58Value 0 ev58 0 →
      CommandTrace cmd16Value 512 ev16 0 →
      exchanges (.sel :: (writes (List.replicate 10 0xFF) wake ++ (ev0 ++ (ev8 ++ (reads [b0, b1, 0x01, 0xAA] ++
        (loop ++ (ev58 ++ (reads [t0, t1, t2, t3] ++ ev16)))))))) ≤ 1034082 := by
    intro wake ev0 ev8 loop ev58 ev16 b0 b1 t0 t1 t2 t3 hwake h0 h8 hloop h58 h16
    have hwoken : exchanges (writes (List.replicate 10 0xFF) wake) = 10 := exchanges_writes hwake
    have h0 := h0.standard_le rfl
    have h8 := h8.standard_le rfl
    have h58 := h58.standard_le rfl
    have h16 := h16.standard_le rfl
    have hloop := hloop.le
    simp only [exchanges_sel, exchanges_append, exchanges_reads, hwoken, List.length_cons, List.length_nil]
    omega
  cases h with
  | highCapacity _ _ _ _ _ _ _ _ _ _ _ _ hwake h0 h8 hloop h58 _ h16 => exact hv2 hwake h0 h8 hloop h58 h16
  | standardCapacity _ _ _ _ _ _ _ _ _ _ _ _ hwake h0 h8 hloop h58 _ h16 => exact hv2 hwake h0 h8 hloop h58 h16
  | legacySd => exact absurd hct (by decide)
  | legacyMmc => exact absurd hct (by decide)

end Sys2Proof.Machine

namespace Sys2Proof

open Machine

/-- Settles O40. -/
theorem diskInitializeRow : Obligations.DiskInitializeRow := by
  intro s o hs
  obtain ⟨hop, hdrive, hsector, hcount, hcmd⟩ := (HostBody.init o).settle_operands s rfl
  exact ⟨_, hostOperation_idle hs, initializeCard_ends s o rfl, fun _ hr => initializeCard_fault rfl hr, hop, hdrive,
    hsector, hcount, hcmd, initializeCard_frame s o⟩

/-- Settles O43: the two runs differ in the phase only, which neither the return nor a link fault keeps. -/
theorem phasesAreTheOperation : Obligations.PhasesAreTheOperation := by
  intro s o hs
  have hseq : (initializeFlat { s.loadOperands .diskInitialize o with seq := .reset }).state.seq = .reset :=
    initializeFlat_seq rfl
  have hsettle := settle_eq_of_samePhased
    (initializeCard_flat { s.loadOperands .diskInitialize o with seq := .reset } rfl)
    (initializeCard_initializing rfl) (by rw [hseq]; rfl)
  exact (hostOperation_idle hs).trans (congrArg _ hsettle)

/-- Settles O44. -/
theorem oldCardTypeIgnored : Obligations.OldCardTypeIgnored := by
  intro s o ct
  by_cases hs : s.seq = .idle
  · have hold := initializeCard_settle_cardType (s := { s.loadOperands .diskInitialize o with seq := .reset }) rfl ct
    exact (hostOperation_idle (s := { s with cardType := ct }) hs).trans
      ((congrArg _ hold).trans (hostOperation_idle hs).symm)
  · exact (hostOperation_running (s := { s with cardType := ct }) hs).trans (hostOperation_running hs).symm

/-- Settles O53. -/
theorem acceptedSequences : Obligations.AcceptedSequences := by
  intro s t o h hok
  have hct := (diskInitialize_ok_iff h).mp hok
  obtain ⟨ev, hev, hran, -⟩ | ⟨code, -, hnone⟩ := exec_diskInitialize_next h
  · exact ⟨ev, hran.trace, hev.accepted hct⟩
  · exact absurd hnone hct

/-- Settles O46: the upper bound is the one of R211 (O45's), the others are the grammar's. -/
theorem initializeBounds : Obligations.InitializeBounds := by
  intro s t o h hno
  obtain ⟨ev', htrace', hmost, -⟩ := hostOperationBounds _ _ s t rfl h
  obtain ⟨ev, hev, hran, -⟩ | ⟨code, hr, -⟩ := exec_diskInitialize_next h
  · obtain rfl : ev' = ev ++ [.des] := List.append_cancel_left (htrace'.symm.trans hran.trace)
    obtain ⟨hleast, hempty⟩ := hev.bounds
    have hdes : exchanges (ev ++ [.des]) = exchanges ev := by simp
    rw [hdes] at hmost
    refine ⟨ev ++ [.des], htrace', by rw [hdes]; exact hleast, by rw [hdes]; exact hmost, fun hct => ?_, fun hff => ?_⟩
    · rw [hdes]
      exact (hev.accepted (by rcases hct with hct | hct <;> simp [hct])).v2_le hct
    · rw [hdes]
      exact hempty fun b hb => hff b (by simp [hb])
  · exact absurd hr (hno code)

end Sys2Proof
end

section
/-! Link faults (60_exceptions R185, R186): without them a host operation returns one of the four codes, and every
instruction that one cuts short begins as it would without. -/

namespace Sys2Proof.Machine

variable {α : Type} {s t : State} {ev : List Event} {code : Nat}

/-! The computation. -/

/-- How an instruction finishes its computation: a value changes neither the trace nor the draws, a link fault ends the
trace with Deselect (R186). -/
structure Finishes (finish : LinkResult α → State) : Prop where
  trace : ∀ a t, (finish (.ok a t)).trace = t.trace
  draws : ∀ a t, (finish (.ok a t)).draws = t.draws
  fault : ∀ c t, (finish (.fault c t)).trace = t.trace ++ [.des]

theorem finishes_record (report : α → MicroResult) : Finishes (LinkResult.record report) :=
  ⟨fun _ _ => rfl, fun _ _ => rfl, fun _ _ => rfl⟩

theorem finishes_settle : Finishes LinkResult.settle := ⟨fun _ _ => rfl, fun _ _ => rfl, fun _ _ => rfl⟩

/-- A computation whose instruction took a link fault after the events `ev` goes through `ev` where none is possible. A
computation that ended with a value took none: it drew one answer for each exchange in its trace. -/
theorem Link.Runs.begins {m : Link α} (h : m.Runs) {finish : LinkResult α → State} (hf : Finishes finish) {s0 : State}
    (htrace : s0.trace = s.trace) (hdraws : s0.draws = s.draws) (hfault : FaultTaken s (finish (m s0)) ev code) :
    ∃ a u rest, m s0.faultless = .ok a u ∧ u.trace = s.trace ++ (ev ++ rest) := by
  have hends := h.ends s0
  have hgoes := h.goesOn s0
  have hend := hfault.trace
  have hdrawn := hfault.draws
  unfold Link.wp at hends hgoes
  cases hm : m s0 with
  | ok a u =>
    rw [hm] at hends hend hdrawn
    obtain ⟨ev', hran⟩ := hends
    rw [hf.trace, hran.trace, htrace] at hend
    rw [hf.draws, hran.draws, hdraws, List.append_cancel_left hend] at hdrawn
    simp at hdrawn
  | fault c u =>
    rw [hm] at hgoes hend
    obtain ⟨a, v, rest, hv, hmore⟩ := hgoes
    rw [hf.fault, ← List.append_assoc] at hend
    exact ⟨a, v, rest, hv, by rw [hmore, List.append_cancel_right hend, List.append_assoc]⟩

/-! The instructions. -/

/-- From `s` the outcome is a state whose trace begins with `ev`. -/
def BeginsWith (s : State) (ev : List Event) (r : Host.Outcome State Fault Refusal) : Prop :=
  ∃ u rest, r = .next u ∧ u.trace = s.trace ++ (ev ++ rest)

theorem microOperation_begins {m : Link α} {report : α → MicroResult} (hm : m.Runs)
    (h : microOperation report m s = .next t) (hfault : FaultTaken s t ev code) :
    BeginsWith s ev (microOperation report m s.faultless) := by
  cases h
  obtain ⟨a, u, rest, hu, htrace⟩ := hm.begins (finishes_record report) rfl rfl hfault
  exact ⟨_, rest, microOperation_of_ok hu, htrace⟩

theorem recognize_begins {m : Link Bool} {bytes : List Byte} (hm : m.Runs) (h : recognize bytes m s = .next t)
    (hfault : FaultTaken s t ev code) : BeginsWith s ev (recognize bytes m s.faultless) := by
  cases h
  obtain ⟨a, u, rest, hu, htrace⟩ := hm.begins (finishes_record .bool) (s := s) (s0 := s.answering bytes) rfl rfl hfault
  exact ⟨_, rest, microOperation_of_ok hu, htrace⟩

theorem bufferOperation_begins {m : Link α} {report : α → MicroResult} {off n : Nat} (hm : m.Runs)
    (h : bufferOperation off n report m s = .next t) (hfault : FaultTaken s t ev code) :
    BeginsWith s ev (bufferOperation off n report m s.faultless) := by
  have hlong : off + n ≤ s.faultless.buf.size := by
    by_contra hshort
    rw [bufferOperation_beyond (s := s) (Nat.lt_of_not_le hshort)] at h
    cases h
  rw [bufferOperation_within hlong]
  exact microOperation_begins hm (bufferOperation_next h) hfault

theorem hostOperation_begins {op : HostOp} {first : Seq} {body : Link Result} {o : HostOperands} (hm : body.Runs)
    (h : hostOperation op first body o s = .next t) (hfault : FaultTaken s t ev code) :
    BeginsWith s ev (hostOperation op first body o s.faultless) := by
  obtain ⟨hs, rfl⟩ := hostOperation_next h
  obtain ⟨a, u, rest, hu, htrace⟩ :=
    hm.begins finishes_settle (s := s) (s0 := { s.loadOperands op o with seq := first }) rfl rfl hfault
  refine ⟨u.returned a, rest, ?_, htrace⟩
  rw [hostOperation_idle (s := s.faultless) hs]
  exact congrArg (fun r => Host.Outcome.next (LinkResult.settle r)) hu

theorem transferOperation_begins {op : HostOp} {body : Link Result} {o : HostOperands} (hm : body.Runs)
    (h : transferOperation op body o s = .next t) (hfault : FaultTaken s t ev code) :
    BeginsWith s ev (transferOperation op body o s.faultless) := by
  have hlong : shortBuffer o s = false := by
    by_contra hshort
    rw [transferOperation_short (Bool.eq_true_of_not_eq_false hshort)] at h
    cases h
  have hlong' : shortBuffer o s.faultless = false := hlong
  rw [transferOperation, hlong] at h
  rw [transferOperation, hlong']
  exact hostOperation_begins hm h hfault

/-- Every instruction: none looks at LINK_FAULTS beside its exchanges. -/
theorem exec_begins {i : Instr} (h : exec i s = .next t) (hfault : FaultTaken s t ev code) :
    BeginsWith s ev (exec i s.faultless) := by
  cases i with
  | cmd0 | cmd1 | cmd12 | acmd23 | acmd41 | cmd55 | sendCommand =>
    exact microOperation_begins (sendCommand_runs _ _) h hfault
  | cmd8 => exact microOperation_begins cmd8_runs h hfault
  | cmd16 => exact microOperation_begins cmd16_runs h hfault
  | cmd58 => exact microOperation_begins cmd58_runs h hfault
  | cmd17 => exact bufferOperation_begins (cmd17_runs _) h hfault
  | cmd18 => exact bufferOperation_begins (cmd18_runs _) h hfault
  | cmd24 => exact bufferOperation_begins (cmd24_runs _) h hfault
  | cmd25 => exact bufferOperation_begins (cmd25_runs _) h hfault
  | frameGeneric => exact microOperation_begins (.silent (silent_frame _)) h hfault
  | tokenStartBlock d =>
    cases d with
    | toCard => exact microOperation_begins (rowBody_token _).runs h hfault
    | toController => exact recognize_begins rowBody_startToken.runs h hfault
  | tokenStartMultiWrite | tokenStopTran => exact microOperation_begins (rowBody_token _).runs h hfault
  | r1Valid | r1Pending => exact recognize_begins rowBody_r1.runs h hfault
  | idleReady => exact recognize_begins rowBody_idle.runs h hfault
  | drespAccepted => exact recognize_begins rowBody_dresp.runs h hfault
  | trailCmd8Echo => exact recognize_begins rowBody_echo.runs h hfault
  | trailOcrCcsSet | trailOcrCcsClear => exact recognize_begins rowBody_ocr.runs h hfault
  | select => exact microOperation_begins select_runs h hfault
  | deselect => exact microOperation_begins deselect_runs h hfault
  | xfer => exact microOperation_begins (xfer_runs _) h hfault
  | readByte => exact microOperation_begins readByte_runs h hfault
  | writeByte => exact microOperation_begins (writeByte_runs _) h hfault
  | waitReady => exact microOperation_begins (waitReady_runs _) h hfault
  | receiveDatablock => exact bufferOperation_begins (receiveDatablock_runs _ _) h hfault
  | transmitDatablock => exact bufferOperation_begins (transmitDatablock_runs _ _) h hfault
  | diskInitialize => exact hostOperation_begins initializeCard_runs h hfault
  | diskStatus => exact hostOperation_begins statusBody_runs h hfault
  | diskRead => exact transferOperation_begins readBody_runs h hfault
  | diskWrite => exact transferOperation_begins writeBody_runs h hfault
  | diskIoctl | ctrlSync => exact hostOperation_begins ioctlBody_runs h hfault
  | hostReserved5 | hostReserved6 | hostReserved7 => exact hostOperation_begins (.pure _) h hfault

end Sys2Proof.Machine

namespace Sys2Proof

open Machine

/-- Settles O51. -/
theorem faultsArePrefixes : Obligations.FaultsArePrefixes := fun _ _ _ _ _ h hfault => exec_begins h hfault

/-- Settles O52: a link fault taken says LINK_FAULTS is true. -/
theorem fourResultCodes : Obligations.FourResultCodes := by
  intro i s t hi hoff h
  obtain ⟨op, hop⟩ := Option.ne_none_iff_exists'.mp hi
  obtain ⟨-, first, body, o, hb, rfl⟩ := exec_host hop h
  obtain ⟨ev, -, -, ⟨hcode, -⟩ | ⟨code, hfault⟩⟩ := hb.settled s
  · exact hcode
  · exact absurd (hoff.symm.trans hfault.enabled) (by decide)

end Sys2Proof
end
